-- ==== Sys2Proof/Word.lean ====
section
/-! DEFINITION. The widths of the block's values (R6, R8, R45, R47): every value is an unsigned number of a stated width. -/

namespace Sys2Proof

/-- 64 bits: a Weyl state, a coefficient, an accumulator lane, an operand word, an address, a register (R6, R8). -/
abbrev Word := BitVec 64

/-- 32 bits: a key lane, an output seed, the primitive update value, a control word (R6, R45). -/
abbrev Half := BitVec 32

/-- 8 bits: one byte of the data memory (R30). -/
abbrev Byte := BitVec 8

/-- 4 bits: a context index field of the control word (R47). -/
abbrev Slot := BitVec 4

end Sys2Proof
end

