-- ==== Sys2Proof/Config.lean ====
section
/-! DEFINITION. What an implementation of the block fixes (R5, R7, R28) and the free values of the spec's unspecified contents (R122).

`Params` is one instance of the block as plain data. It stands in `State`, where no step changes it (R23, R24, R28), so a statement about
every state is a statement about every instance. `Config.params` is the instance `State.reset` holds. -/

namespace Sys2Proof

/-- The kind of a byte access, the second argument of `mem_ok` (R7, R38). -/
inductive AccessKind where
  | read
  | write
  deriving DecidableEq, Repr

/-- What the platform does with a byte access inside a region.
DESIGN CHOICE (log 3): `mem_ok` is written as a list of regions; every predicate on 64-bit addresses can be written so. -/
inductive RegionKind where
  /-- `mem_ok(a, read)` is false here (R38). -/
  | noRead
  /-- `mem_ok(a, write)` is false here (R38). -/
  | noWrite
  /-- A location whose reads have side effects: a command pointed here has no meaning (R36, V5). -/
  | device
  deriving DecidableEq, Repr

/-- The addresses `first` to `last`, both included, and what the platform does there. -/
structure Region where
  first : Word
  last  : Word
  kind  : RegionKind
  deriving DecidableEq, Repr

/-- The width at which `UPD.BUF` and `UPD.STR` fold the length (R7, R87). -/
inductive LenW where
  | w32
  | w64
  deriving DecidableEq, Repr

/-- One instance of the block: the six constants (R5) and the framing parameters (R7). -/
structure Params where
  startIn  : Word
  incIn    : Word
  startOut : Word
  incOut   : Word
  mixM1    : Word
  mixM2    : Word
  /-- `NA`, the number of accumulator contexts. -/
  na       : Nat
  /-- `NG`, the number of generator contexts. -/
  ng       : Nat
  /-- `LMAX`, the most lanes or keys a context can hold. -/
  lmax     : Nat
  lenW     : LenW
  /-- `mem_ok` as data: where no region covers an address, every access succeeds, the spec's default. -/
  regions  : List Region
  deriving DecidableEq, Repr

namespace Config

/-! The six constants are not in the source (R5, D23, N1). Each is an opaque word with its lowest bit set, so that it is odd and nothing else
is known of it. DESIGN CHOICE (log 1), safe. -/

opaque rawStartIn : Word
opaque rawIncIn : Word
opaque rawStartOut : Word
opaque rawIncOut : Word
opaque rawMixM1 : Word
opaque rawMixM2 : Word

/-- `START_IN` of the reset instance: some odd word (R5). -/
def startIn : Word := rawStartIn ||| 1#64

/-- `INC_IN` of the reset instance: some odd word (R5). -/
def incIn : Word := rawIncIn ||| 1#64

/-- `START_OUT` of the reset instance: some odd word (R5). -/
def startOut : Word := rawStartOut ||| 1#64

/-- `INC_OUT` of the reset instance: some odd word that keeps the two (start, increment) pairs separate (R5). -/
def incOut : Word :=
  if startIn = startOut ∧ incIn = (rawIncOut ||| 1#64) then (rawIncOut ||| 1#64) + 2#64 else rawIncOut ||| 1#64

/-- `MIX_M1` of the reset instance: some odd word (R5). -/
def mixM1 : Word := rawMixM1 ||| 1#64

/-- `MIX_M2` of the reset instance: some odd word (R5). -/
def mixM2 : Word := rawMixM2 ||| 1#64

/-- The instance `State.reset` holds. DESIGN CHOICE (log 2): `NA = NG = 4`, `LMAX = 16` are the framing parameters of the spec's own
vectors (95_test_vectors.md section 1); `LENW = 32` and an all-true `mem_ok` are the spec's defaults (R7). -/
def params : Params where
  startIn  := startIn
  incIn    := incIn
  startOut := startOut
  incOut   := incOut
  mixM1    := mixM1
  mixM2    := mixM2
  na       := 4
  ng       := 4
  lmax     := 16
  lenW     := .w32
  regions  := []

/-- What the `ID` register reads (R24). -/
def blockId : Word := 0x49524F4E53454544#64

/-- What a byte of memory that nothing has written reads as. DESIGN CHOICE (log 4), unsafe: the spec gives no power-on contents;
its vectors take bytes not mentioned as zero. -/
def unlistedByte : Byte := 0#8

/-! Free values: what the contexts named by a command hold after its `BusFault` (R122, V2; log 7). They have no body, so no proof can know
one. Each is applied to the number of free values used before it (`State.freeCount`). -/

/-- Whether the context holds an object at all. -/
opaque freeValid : Nat → Bool
/-- Its `coef`. -/
opaque freeCoef : Nat → Word
/-- The lanes of an accumulator, any number of them. -/
opaque freeLanes : Nat → List Word
/-- The keys of a generator, any number of them. -/
opaque freeKeys : Nat → List Half

end Config

end Sys2Proof
end

