-- ==== Sys2Proof/Syntax.lean ====
section
/-! DEFINITION. The commands as data: one constructor per row of `spec/opcode_table.json` (R50), and the packet that carries one (R45). -/

namespace Sys2Proof

/-- A command packet: three numbers of 32, 64 and 64 bits (R45). -/
structure Packet where
  /-- The control word `CW`, packet bits 31:0. -/
  cw : Half
  /-- The first operand word `P0`, packet bits 95:32. -/
  p0 : Word
  /-- The second operand word `P1`, packet bits 159:96. -/
  p1 : Word
  deriving DecidableEq, Repr

/-- The 23 commands (R50) with their operands assembled as R49 says. `rt` and `rd` are `CW[11:8]`, `rs` is `CW[15:12]`. -/
inductive Instr where
  /-- `NOP` (R113). -/
  | nop
  /-- `ACC.CREATE a<rt>, bits` (R70). -/
  | accCreate (rt : Slot) (bits : Word)
  /-- `ACC.CLONE a<rd>, a<rs>` (R72). -/
  | accClone (rd rs : Slot)
  /-- `ACC.FREE a<rt>` (R73). -/
  | accFree (rt : Slot)
  /-- `ACC.LEN a<rt>` (R74). -/
  | accLen (rt : Slot)
  /-- `ACC.LANE a<rt>, i` (R75). -/
  | accLane (rt : Slot) (i : Word)
  /-- `UPD.U32 a<rt>, value` (R80). -/
  | updU32 (rt : Slot) (value : Half)
  /-- `UPD.U64 a<rt>, value` (R82). -/
  | updU64 (rt : Slot) (value : Word)
  /-- `UPD.F32 a<rt>, pattern` (R83). -/
  | updF32 (rt : Slot) (pattern : Half)
  /-- `UPD.F64 a<rt>, pattern` (R84). -/
  | updF64 (rt : Slot) (pattern : Word)
  /-- `UPD.PTR a<rt>, value` (R85). -/
  | updPtr (rt : Slot) (value : Word)
  /-- `UPD.BUF a<rt>, addr, len` (R86). -/
  | updBuf (rt : Slot) (addr len : Word)
  /-- `UPD.STR a<rt>, addr` (R88). -/
  | updStr (rt : Slot) (addr : Word)
  /-- `UPD.OBJ a<rt>, addr, len` (R90). -/
  | updObj (rt : Slot) (addr len : Word)
  /-- `GEN.FROMACC g<rd>, a<rs>` (R95). -/
  | genFromAcc (rd rs : Slot)
  /-- `GEN.CREATE g<rt>, addr, size` (R97). -/
  | genCreate (rt : Slot) (addr size : Word)
  /-- `GEN.CLONE g<rd>, g<rs>` (R98). -/
  | genClone (rd rs : Slot)
  /-- `GEN.FREE g<rt>` (R99). -/
  | genFree (rt : Slot)
  /-- `GEN.LEN g<rt>` (R100). -/
  | genLen (rt : Slot)
  /-- `GEN.KEY g<rt>, j` (R101). -/
  | genKey (rt : Slot) (j : Word)
  /-- `GEN.NEXT g<rt>` (R105). -/
  | genNext (rt : Slot)
  /-- `GEN.FILL g<rt>, addr, count` (R106). -/
  | genFill (rt : Slot) (addr count : Word)
  /-- `GEN.RESTART g<rt>` (R108). -/
  | genRestart (rt : Slot)
  deriving DecidableEq, Repr

/-- The two banks of contexts a context field can index (R10, R50). -/
inductive Bank where
  | acc
  | gen
  deriving DecidableEq, Repr

/-- The context fields of a command in the order R51 step 3 checks them: `rt` or `rd` first, then `rs`; with the bank each indexes (R50). -/
def Instr.slots : Instr → List (Bank × Slot)
  | .nop             => []
  | .accCreate rt _  => [(.acc, rt)]
  | .accClone rd rs  => [(.acc, rd), (.acc, rs)]
  | .accFree rt      => [(.acc, rt)]
  | .accLen rt       => [(.acc, rt)]
  | .accLane rt _    => [(.acc, rt)]
  | .updU32 rt _     => [(.acc, rt)]
  | .updU64 rt _     => [(.acc, rt)]
  | .updF32 rt _     => [(.acc, rt)]
  | .updF64 rt _     => [(.acc, rt)]
  | .updPtr rt _     => [(.acc, rt)]
  | .updBuf rt _ _   => [(.acc, rt)]
  | .updStr rt _     => [(.acc, rt)]
  | .updObj rt _ _   => [(.acc, rt)]
  | .genFromAcc rd rs => [(.gen, rd), (.acc, rs)]
  | .genCreate rt _ _ => [(.gen, rt)]
  | .genClone rd rs  => [(.gen, rd), (.gen, rs)]
  | .genFree rt      => [(.gen, rt)]
  | .genLen rt       => [(.gen, rt)]
  | .genKey rt _     => [(.gen, rt)]
  | .genNext rt      => [(.gen, rt)]
  | .genFill rt _ _  => [(.gen, rt)]
  | .genRestart rt   => [(.gen, rt)]

end Sys2Proof
end

