-- ==== Sys2Proof/WellFormed.lean ====
section
/-! DEFINITION. What a well-formed instance of the block is (R5, R7) and when a command is well-formed on it (R51 step 3). -/

namespace Sys2Proof

/-- A word is odd (R5). -/
def oddWord (w : Word) : Bool := w.toNat % 2 == 1

/-- All six constants are odd (R5). -/
def Params.constantsOdd (p : Params) : Bool :=
  oddWord p.startIn && oddWord p.incIn && oddWord p.startOut && oddWord p.incOut && oddWord p.mixM1 && oddWord p.mixM2

/-- The input pair and the output pair are not the same pair (R5). -/
def Params.pairsSeparate (p : Params) : Bool := !(p.startIn == p.startOut && p.incIn == p.incOut)

/-- `NA` and `NG` are 1 to 16 (R7). -/
def Params.countsInRange (p : Params) : Bool :=
  decide (1 ≤ p.na) && decide (p.na ≤ 16) && decide (1 ≤ p.ng) && decide (p.ng ≤ 16)

/-- `LMAX` is even, 2 to 2^16 (R7). -/
def Params.lmaxInRange (p : Params) : Bool :=
  decide (p.lmax % 2 = 0) && decide (2 ≤ p.lmax) && decide (p.lmax ≤ 65536)

/-- The constraints R5 and R7 put on the parameters. -/
def Params.wf (p : Params) : Bool := p.constantsOdd && p.pairsSeparate && p.countsInRange && p.lmaxInRange

/-- How many contexts a bank has (R10). -/
def Params.count (p : Params) : Bank → Nat
  | .acc => p.na
  | .gen => p.ng

/-- The context index exists on this instance (R10). -/
def Params.hasSlot (p : Params) (bs : Bank × Slot) : Bool := decide (bs.2.toNat < p.count bs.1)

/-- The first context field that is out of range, the one `BadSlot` reports (R51 step 3, R117). -/
def Instr.firstBadSlot (p : Params) (i : Instr) : Option Slot := (i.slots.find? fun bs => !p.hasSlot bs).map Prod.snd

/-- Every context field of the command names a context the instance has. -/
def Instr.wf (p : Params) (i : Instr) : Bool := i.slots.all p.hasSlot

end Sys2Proof
end

