-- ==== Sys2Proof/Decode.lean ====
section
/-! DEFINITION. Decoding a packet (R47 to R52) and encoding a command (R47 to R50, R53). -/

namespace Sys2Proof

/-- Why a control word selects no command (R51 steps 1 and 2, R52). Both raise `IllegalCommand`. -/
inductive DecodeError where
  /-- `CW[7:0]` is no opcode of R50 (R51 step 1). -/
  | unknownOpcode (op : BitVec 8)
  /-- A reserved bit or an unused index field is not zero (R51 step 2). -/
  | reservedBits (cw : Half)
  deriving DecidableEq, Repr

/-- The five formats (R48). -/
inductive Format where
  | n
  | t
  | tp
  | tpp
  | ds
  deriving DecidableEq, Repr

/-- The `CW` bits that must equal the row's `match` value (R48). -/
def Format.mask : Format → Half
  | .n   => 0xFFFFFFFF#32
  | .t   => 0xFFFFF0FF#32
  | .tp  => 0xFFFFF0FF#32
  | .tpp => 0xFFFFF0FF#32
  | .ds  => 0xFFFF00FF#32

/-- `CW[7:0]` (R47). -/
def Packet.op (p : Packet) : BitVec 8 := p.cw.extractLsb' 0 8

/-- `CW[11:8]`: `rt` or `rd` (R47). -/
def Packet.rt (p : Packet) : Slot := p.cw.extractLsb' 8 4

/-- `CW[15:12]`: `rs` (R47). -/
def Packet.rs (p : Packet) : Slot := p.cw.extractLsb' 12 4

/-- `P0[31:0]`, the operand of `UPD.U32` and `UPD.F32` (R49). -/
def Packet.p0low (p : Packet) : Half := p.p0.extractLsb' 0 32

/-- The opcode map (R50): the row of an opcode, its format and the command with its operands assembled (R49). -/
def Packet.row (p : Packet) : Option (Format × Instr) :=
  match p.op.toNat with
  | 0x00 => some (.n, .nop)
  | 0x10 => some (.tp, .accCreate p.rt p.p0)
  | 0x11 => some (.ds, .accClone p.rt p.rs)
  | 0x12 => some (.t, .accFree p.rt)
  | 0x13 => some (.t, .accLen p.rt)
  | 0x14 => some (.tp, .accLane p.rt p.p0)
  | 0x20 => some (.tp, .updU32 p.rt p.p0low)
  | 0x21 => some (.tp, .updU64 p.rt p.p0)
  | 0x22 => some (.tp, .updF32 p.rt p.p0low)
  | 0x23 => some (.tp, .updF64 p.rt p.p0)
  | 0x24 => some (.tp, .updPtr p.rt p.p0)
  | 0x25 => some (.tpp, .updBuf p.rt p.p0 p.p1)
  | 0x26 => some (.tp, .updStr p.rt p.p0)
  | 0x27 => some (.tpp, .updObj p.rt p.p0 p.p1)
  | 0x30 => some (.ds, .genFromAcc p.rt p.rs)
  | 0x31 => some (.tpp, .genCreate p.rt p.p0 p.p1)
  | 0x32 => some (.ds, .genClone p.rt p.rs)
  | 0x33 => some (.t, .genFree p.rt)
  | 0x34 => some (.t, .genLen p.rt)
  | 0x35 => some (.tp, .genKey p.rt p.p0)
  | 0x36 => some (.t, .genNext p.rt)
  | 0x37 => some (.tpp, .genFill p.rt p.p0 p.p1)
  | 0x38 => some (.t, .genRestart p.rt)
  | _    => none

/-- Decoding, R51 steps 1 and 2, in that order. Step 3 (`BadSlot`) is each meaning's first act, since it needs the instance's `NA` and `NG`.
Operand words a command does not use are not looked at (R49). -/
def decode (p : Packet) : Except DecodeError Instr :=
  match p.row with
  | none => .error (.unknownOpcode p.op)
  | some (f, i) => if p.cw &&& f.mask = p.op.setWidth 32 then .ok i else .error (.reservedBits p.cw)

/-- A control word from its fields (R47): `op` in 7:0, `rt` or `rd` in 11:8, `rs` in 15:12, zero above. -/
def controlWord (op : BitVec 8) (rt rs : Slot) : Half := 0#16 ++ rs ++ rt ++ op

/-- The packet of a command; an operand word the command does not use is zero (R50, R53). -/
def encode : Instr → Packet
  | .nop                  => ⟨controlWord 0x00#8 0#4 0#4, 0#64, 0#64⟩
  | .accCreate rt bits    => ⟨controlWord 0x10#8 rt 0#4, bits, 0#64⟩
  | .accClone rd rs       => ⟨controlWord 0x11#8 rd rs, 0#64, 0#64⟩
  | .accFree rt           => ⟨controlWord 0x12#8 rt 0#4, 0#64, 0#64⟩
  | .accLen rt            => ⟨controlWord 0x13#8 rt 0#4, 0#64, 0#64⟩
  | .accLane rt i         => ⟨controlWord 0x14#8 rt 0#4, i, 0#64⟩
  | .updU32 rt value      => ⟨controlWord 0x20#8 rt 0#4, value.setWidth 64, 0#64⟩
  | .updU64 rt value      => ⟨controlWord 0x21#8 rt 0#4, value, 0#64⟩
  | .updF32 rt pattern    => ⟨controlWord 0x22#8 rt 0#4, pattern.setWidth 64, 0#64⟩
  | .updF64 rt pattern    => ⟨controlWord 0x23#8 rt 0#4, pattern, 0#64⟩
  | .updPtr rt value      => ⟨controlWord 0x24#8 rt 0#4, value, 0#64⟩
  | .updBuf rt addr len   => ⟨controlWord 0x25#8 rt 0#4, addr, len⟩
  | .updStr rt addr       => ⟨controlWord 0x26#8 rt 0#4, addr, 0#64⟩
  | .updObj rt addr len   => ⟨controlWord 0x27#8 rt 0#4, addr, len⟩
  | .genFromAcc rd rs     => ⟨controlWord 0x30#8 rd rs, 0#64, 0#64⟩
  | .genCreate rt addr size => ⟨controlWord 0x31#8 rt 0#4, addr, size⟩
  | .genClone rd rs       => ⟨controlWord 0x32#8 rd rs, 0#64, 0#64⟩
  | .genFree rt           => ⟨controlWord 0x33#8 rt 0#4, 0#64, 0#64⟩
  | .genLen rt            => ⟨controlWord 0x34#8 rt 0#4, 0#64, 0#64⟩
  | .genKey rt j          => ⟨controlWord 0x35#8 rt 0#4, j, 0#64⟩
  | .genNext rt           => ⟨controlWord 0x36#8 rt 0#4, 0#64, 0#64⟩
  | .genFill rt addr count => ⟨controlWord 0x37#8 rt 0#4, addr, count⟩
  | .genRestart rt        => ⟨controlWord 0x38#8 rt 0#4, 0#64, 0#64⟩

/-- The packet whose 160 bits are the number `b`: `CW` in 31:0, `P0` in 95:32, `P1` in 159:96 (R45). -/
def Packet.ofBits (b : BitVec 160) : Packet := ⟨b.extractLsb' 0 32, b.extractLsb' 32 64, b.extractLsb' 96 64⟩

/-- The 160 bits of a packet as one number (R45). -/
def Packet.bits (p : Packet) : BitVec 160 := p.p1 ++ p.p0 ++ p.cw

/-- The packet whose lowest `nbits` bits are those of `w` and whose other bits are zero. -/
def Packet.ofTableWord (nbits w : Nat) : Packet := .ofBits (BitVec.ofNat 160 (w % 2 ^ nbits))

/-- What the decoder reads from a table row's word (bit 0 is `CW[0]`). -/
def decodeTableWord (nbits w : Nat) : Option Instr := (decode (.ofTableWord nbits w)).toOption

end Sys2Proof
end

