-- ==== Sys2Proof/Machine/State.lean ====
section
/-! DEFINITION. The machine's state as plain data (10_state.md), the host's acts, the reasons a step can stop, and the state after reset. -/

namespace Sys2Proof.Machine

/-- An accumulator (R11). Its `len` is the length of `lanes`; `valid` is whether the place holds one ("no object" is `none`, R13; log 5). -/
structure Acc where
  /-- The current position in the input Weyl sequence. -/
  coef  : Word
  lanes : List Word
  deriving DecidableEq, Repr

/-- A generator (R12). Its `len` is the length of `keys`. -/
structure Gen where
  /-- The current position in the output Weyl sequence. -/
  coef : Word
  keys : List Half
  deriving DecidableEq, Repr

/-- `STATUS.LAST`: the outcome of the last command that completed (R17). The code 3 is never produced, so it has no constructor. -/
inductive Last where
  | ok
  | noObj
  | zSize
  deriving DecidableEq, Repr

/-- `STATUS` (R17). Bits 63:3 read as zero and are not stored. -/
structure Status where
  fault : Bool
  last  : Last
  deriving DecidableEq, Repr

/-- The six fault causes (R116). -/
inductive Cause where
  | illegalCommand
  | badSlot
  | capacity
  | indexRange
  | lengthRange
  | busFault
  deriving DecidableEq, Repr

/-- The data memory: (address, byte) pairs in one canonical form, `Memory.wf` (R30; log 4). -/
abbrev Memory := List Host.Cell

/-- One act of the host (R29, R135, R136, R146), done by one step. DESIGN CHOICE (log 9). -/
inductive Input where
  /-- Submit a packet (R46, R146). -/
  | submit (p : Packet)
  /-- Observe the register of this number (R29). -/
  | observe (n : Nat)
  /-- Reset between commands (R135). -/
  | reset
  /-- Submit a packet and reset while it executes, after it has written `k` bytes of memory (R136; log 11). -/
  | resetDuring (p : Packet) (k : Nat)
  /-- The host writes a byte of memory between commands (R40, R146). -/
  | hostWrite (addr : Word) (byte : Byte)
  /-- The host reads a byte of memory between commands (R40, R146). -/
  | hostRead (addr : Word)
  deriving DecidableEq, Repr

/-- Everything the spec gives the machine, and three fields of the model's own (the last three). -/
structure State where
  /-- The instance: the constant registers 8 to 13, `CFG`'s contents and `mem_ok` (R5, R7, R23, R24, R28). No step changes it. -/
  params    : Params
  /-- `ACC[0..15]`, of which the first `NA` can be named (R10, R11; log 6). -/
  accs      : Vector (Option Acc) 16
  /-- `GEN[0..15]`, of which the first `NG` can be named (R10, R12; log 6). -/
  gens      : Vector (Option Gen) 16
  /-- `RES` (R16). -/
  res       : Word
  /-- `STATUS` (R17). -/
  status    : Status
  /-- `CAUSE` (R18). -/
  cause     : Word
  /-- `INFO` (R19). -/
  info      : Word
  /-- The data memory (R26, R30). -/
  mem       : Memory
  /-- The model's own: the host's acts not yet done, the next one first (log 9). -/
  inputs    : List Input
  /-- The model's own: what the host's last observation or memory read returned (R29, R146; log 10). -/
  observed  : Option Word
  /-- The model's own: how many free values have been used (log 8). -/
  freeCount : Nat
  deriving DecidableEq, Repr

/-- Why the machine is stuck. The faults of the spec are not here: they are next states (R120). -/
inductive Fault where
  /-- Raised by `UPD.STR` under `LENW = 64` when all 2^64 bytes are readable and non-zero: the command never completes and "a model gives
  such a command no final state" (R89, R143, V7). Safe: the model stops where the hardware runs for ever. -/
  | neverCompletes
  deriving DecidableEq, Repr

/-- Why a step has no meaning. -/
inductive Refusal where
  /-- Raised by an arm of `exec` whose command has no meaning yet. Safe. No arm raises it now. -/
  | notModelled (mnemonic : String)
  /-- Raised by a memory command that reaches a byte of a `device` region: "this spec gives such a command no meaning and a model refuses
  it" (R36, V5). Safe. -/
  | deviceMemory (addr : Word)
  /-- Raised by an observation of a number that names no register: "a model refuses it" (10_state.md section 2, V3). Safe. -/
  | noSuchRegister (n : Nat)
  deriving DecidableEq, Repr

/-- The outcome of a command or a step. -/
abbrev Result := Host.Outcome State Fault Refusal

/-- An instance right after its power-on reset (R27, R135): every context "no object", `RES`, `STATUS`, `CAUSE` and `INFO` zero. The memory
lists nothing (log 4) and the host has done nothing yet (log 9). -/
def State.resetOf (p : Params) : State where
  params    := p
  accs      := Vector.replicate 16 none
  gens      := Vector.replicate 16 none
  res       := 0#64
  status    := ⟨false, .ok⟩
  cause     := 0#64
  info      := 0#64
  mem       := []
  inputs    := []
  observed  := none
  freeCount := 0

/-- The machine right after reset (R27). -/
def State.reset : State := State.resetOf Config.params

end Sys2Proof.Machine
end

