-- ==== Sys2Proof/Machine/Flags.lean ====
section
/-! DEFINITION. The status register: the block has no arithmetic flags (R22), only `STATUS.FAULT` and `STATUS.LAST` (R17), and the codes of
`CAUSE` (R116); and the words of the read-only registers (R16 to R19, R23, R24). -/

namespace Sys2Proof.Machine

/-- The code of `STATUS.LAST` (R17). -/
def Last.code : Last → BitVec 2
  | .ok    => 0#2
  | .noObj => 1#2
  | .zSize => 2#2

/-- The code written to `CAUSE` (R116). -/
def Cause.code : Cause → Word
  | .illegalCommand => 1#64
  | .badSlot        => 2#64
  | .capacity       => 3#64
  | .indexRange     => 4#64
  | .lengthRange    => 5#64
  | .busFault       => 6#64

/-- `STATUS` as the host reads it: `FAULT` in bit 0, `LAST` in bits 2:1, zero above (R17). -/
def Status.word (st : Status) : Word := 0#61 ++ st.last.code ++ BitVec.ofBool st.fault

/-- A command completes without a fault: it writes `LAST` and nothing else of `STATUS` (R17). -/
def State.complete (last : Last) (s : State) : State := { s with status := { s.status with last := last } }

/-- A value-returning command writes `RES` (R16). -/
def State.setRes (v : Word) (s : State) : State := { s with res := v }

/-- `CFG`: `NA` in 4:0, `NG` in 12:8, `LMAX` in 32:16, bit 40 set when `LENW` is 64, zero elsewhere (R24). -/
def cfgWord (p : Params) : Word :=
  0#23 ++ BitVec.ofBool (p.lenW == .w64) ++ 0#7 ++ BitVec.ofNat 17 p.lmax ++ 0#3 ++ BitVec.ofNat 5 p.ng ++ 0#3 ++ BitVec.ofNat 5 p.na

/-- The register of a number as the host observes it; `none` for a number that names no register (10_state.md section 2, R29). -/
def State.register (s : State) : Nat → Option Word
  | 0  => some Config.blockId
  | 1  => some (cfgWord s.params)
  | 2  => some s.status.word
  | 3  => some s.cause
  | 4  => some s.info
  | 5  => some s.res
  | 8  => some s.params.startIn
  | 9  => some s.params.incIn
  | 10 => some s.params.startOut
  | 11 => some s.params.incOut
  | 12 => some s.params.mixM1
  | 13 => some s.params.mixM2
  | _  => none

end Sys2Proof.Machine
end

