-- ==== Sys2Proof/Machine/Operands.lean ====
section
/-! DEFINITION. Operand arithmetic on mathematical integers (R8, R49, R70, R97) and the assembly of bytes, all little-endian (R31 to R34). -/

namespace Sys2Proof.Machine

/-- `ceil(x / 64)` as a mathematical integer (R8). -/
def ceilDiv64 (x : Word) : Nat := (x >>> 6).toNat + (if x.extractLsb' 0 6 = 0#6 then 0 else 1)

/-- `L = 2 * ceil(bits / 64)` (R70). -/
def lanesWanted (bits : Word) : Nat := 2 * ceilDiv64 bits

/-- `K`: `size` rounded up to even (R97). -/
def keysWanted (size : Word) : Nat := size.toNat + size.toNat % 2

/-- The 32-bit value of four bytes, the first in bits 7:0 (R31, R33). -/
def leWord (b0 b1 b2 b3 : Byte) : Half := b3 ++ b2 ++ b1 ++ b0

/-- Byte `k` of a 32-bit value, `v[8k+7 : 8k]` (R34). -/
def byteOf (v : Half) (k : Nat) : Byte := v.extractLsb' (8 * k) 8

/-- The bytes of a buffer as 32-bit words, the last padded with zeros in its high bytes (R31). -/
def leWords : List Byte → List Half
  | []                          => []
  | [b0]                        => [leWord b0 0#8 0#8 0#8]
  | [b0, b1]                    => [leWord b0 b1 0#8 0#8]
  | [b0, b1, b2]                => [leWord b0 b1 b2 0#8]
  | b0 :: b1 :: b2 :: b3 :: rest => leWord b0 b1 b2 b3 :: leWords rest

/-- The byte writes that store words from an address on, in the order the block makes them (R32, R34, R39). -/
def writesAt : Word → List Half → List (Word × Byte)
  | _, []      => []
  | a, w :: ws => (a, byteOf w 0) :: (a + 1#64, byteOf w 1) :: (a + 2#64, byteOf w 2) :: (a + 3#64, byteOf w 3) :: writesAt (a + 4#64) ws

/-- The raw words of `GEN.CREATE` as keys: in order, with a zero last lane when their number is odd (R97). -/
def padEven (ws : List Half) : List Half := if ws.length % 2 = 1 then ws ++ [0#32] else ws

/-- How many bytes `UPD.STR` reads before it gives up: 2^32 under `LENW = 32`, the whole address space under `LENW = 64` (R88, R89; C8). -/
def scanBound (p : Params) : Nat :=
  match p.lenW with
  | .w32 => 2 ^ 32
  | .w64 => 2 ^ 64

end Sys2Proof.Machine
end

