-- ==== Sys2Proof/Machine/Units.lean ====
section
/-! DEFINITION. The four functional units (R60 to R65) and the procedures the command rules build from them (R68, R70, R80, R82, R95, R105). -/

namespace Sys2Proof.Machine

/-- One draw of a Weyl sequence: (new state, value) (R60). -/
def weylNext (state inc : Word) : Word × Word := (state + inc, state + inc)

/-- `c <- draw_in(c)` (R60). -/
def drawIn (p : Params) (c : Word) : Word := (weylNext c p.incIn).1

/-- `c <- draw_out(c)` (R60). -/
def drawOut (p : Params) (c : Word) : Word := (weylNext c p.incOut).1

/-- The multiply-accumulate step: the 32-bit value widened with zeros, product and sum modulo 2^64 (R62). -/
def macStep (lane c : Word) (value : Half) : Word := lane + c * value.setWidth 64

/-- The loop of the polynomial evaluator (R63): `c` the last draw, `v` the running sum. -/
def polyLoop (p : Params) : Word → Word → List Half → Word × Word
  | c, v, []      => (c, v)
  | c, v, k :: ks => polyLoop p (drawOut p c) (v + drawOut p c * k.setWidth 64) ks

/-- The polynomial evaluator: (the new `coef`, `v`) (R63). -/
def polyEval (p : Params) (coef : Word) (keys : List Half) : Word × Word := polyLoop p (drawOut p coef) (drawOut p coef) keys

/-- The 64-bit value `d` of the avalanche network, before the truncation (R64). Shifts 33 and 28 by `90_conflicts.md` C1. -/
def mix64 (p : Params) (u : Word) : Word :=
  let a := u ^^^ (u >>> 33)
  let b := a * p.mixM1
  let c := b ^^^ (b >>> 28)
  c * p.mixM2

/-- The avalanche permutation network: bits 63:32 of `mix64` (R64). -/
def finalmix (p : Params) (u : Word) : Half := (mix64 p u).extractLsb' 32 32

/-- The loop of `ACC.CREATE`: `n` draws after `c`, as (the lanes, the last draw) (R70). -/
def createLanes (p : Params) : Word → Nat → List Word × Word
  | c, 0     => ([], c)
  | c, n + 1 =>
    let rest := createLanes p (drawIn p c) n
    (drawIn p c :: rest.1, rest.2)

/-- A fresh accumulator of `n` lanes (R70). -/
def freshAcc (p : Params) (n : Nat) : Acc :=
  let made := createLanes p p.startIn n
  ⟨made.2, made.1⟩

/-- The loop of `update32`: every lane in order, each with the next draw, as (the lanes, the last draw) (R68, R80). -/
def macLanes (p : Params) (value : Half) : Word → List Word → List Word × Word
  | c, []      => ([], c)
  | c, l :: ls =>
    let rest := macLanes p value (drawIn p c) ls
    (macStep l (drawIn p c) value :: rest.1, rest.2)

/-- `update32(a, value)` (R80). -/
def update32 (p : Params) (value : Half) (a : Acc) : Acc :=
  let done := macLanes p value a.coef a.lanes
  ⟨done.2, done.1⟩

/-- `update64(a, value)`: low 32 bits first, then high 32 bits (R82). -/
def update64 (p : Params) (value : Word) (a : Acc) : Acc :=
  update32 p (value.extractLsb' 32 32) (update32 p (value.extractLsb' 0 32) a)

/-- `prefix(a, len)`: the length folded at width `LENW` (R86, R87). -/
def foldLength (p : Params) (len : Word) (a : Acc) : Acc :=
  match p.lenW with
  | .w32 => update32 p (len.extractLsb' 0 32) a
  | .w64 => update64 p len a

/-- The updates of `body(a, addr, len)`, the words of the buffer in order (R86). -/
def foldWords (p : Params) (ws : List Half) (a : Acc) : Acc := ws.foldl (fun b w => update32 p w b) a

/-- The loop of `GEN.FROMACC`: each lane plus the next draw, through the avalanche network (R95). -/
def finalizeKeys (p : Params) : Word → List Word → List Half
  | _, []      => []
  | c, l :: ls => finalmix p (l + drawOut p c) :: finalizeKeys p (drawOut p c) ls

/-- The generator an accumulator finalizes to; its `coef` is `START_OUT` (R95, R96; log 16). -/
def finalize (p : Params) (a : Acc) : Gen := ⟨p.startOut, finalizeKeys p p.startOut a.lanes⟩

/-- `next_seed(g)`: the seed and the generator after it (R105). -/
def nextSeed (p : Params) (g : Gen) : Half × Gen :=
  let e := polyEval p g.coef g.keys
  (finalmix p e.2, ⟨e.1, g.keys⟩)

/-- `n` seeds in order and the generator after them (R106). -/
def seeds (p : Params) : Nat → Gen → List Half × Gen
  | 0, g     => ([], g)
  | n + 1, g =>
    let one  := nextSeed p g
    let rest := seeds p n one.2
    (one.1 :: rest.1, rest.2)

end Sys2Proof.Machine
end

