-- ==== Sys2Proof/Machine/Ops.lean ====
section
/-! DEFINITION. The named operations: memory (20_memory.md), contexts (R10 to R13), taking a fault (R120, R122) and reset, the only way out
of one (R121, R135). -/

namespace Sys2Proof.Machine

/-! ## Memory -/

/-- The byte at an address (R30); an address that is not listed reads as `Config.unlistedByte` (log 4). -/
def Memory.read : Memory → Nat → Byte
  | [], _          => Config.unlistedByte
  | (k, v) :: m, a => if k = a then v else Memory.read m a

/-- `memory[a] <- b` (R34), keeping the canonical form: writing the unlisted byte removes the entry. -/
def Memory.write : Memory → Nat → Byte → Memory
  | [], a, b          => if b = Config.unlistedByte then [] else [(a, b)]
  | (k, v) :: m, a, b =>
    if a < k then (if b = Config.unlistedByte then (k, v) :: m else (a, b) :: (k, v) :: m)
    else if a = k then (if b = Config.unlistedByte then m else (a, b) :: m)
    else (k, v) :: Memory.write m a b

/-- Addresses from `lo` on, strictly rising, below 2^64, and no entry equal to what an unlisted address reads as. -/
def Memory.wfFrom : Nat → Memory → Bool
  | _, []           => true
  | lo, (k, v) :: m => decide (lo ≤ k) && decide (k < 2 ^ 64) && decide (v ≠ Config.unlistedByte) && Memory.wfFrom (k + 1) m

/-- The canonical form of a memory: equal memories are equal lists. -/
def Memory.wf (m : Memory) : Bool := Memory.wfFrom 0 m

/-- The region covers the address. -/
def regionCovers (r : Region) (a : Word) : Bool := decide (r.first.toNat ≤ a.toNat) && decide (a.toNat ≤ r.last.toNat)

/-- The platform refuses accesses of this kind in regions of this kind. -/
def refusesKind : RegionKind → AccessKind → Bool
  | .noRead, .read   => true
  | .noWrite, .write => true
  | _, _             => false

/-- `mem_ok(a, kind)` (R38). -/
def memOk (p : Params) (a : Word) (kind : AccessKind) : Bool := p.regions.all fun r => !(regionCovers r a && refusesKind r.kind kind)

/-- The address is a location whose reads have side effects (R36, V5). -/
def isDevice (p : Params) (a : Word) : Bool := p.regions.any fun r => regionCovers r a && r.kind == .device

/-- Why a memory access of a command goes no further. -/
inductive Stop where
  /-- `mem_ok` is false for this byte: `BusFault` (R38). -/
  | bus (a : Word)
  /-- The byte is device memory: the command has no meaning (R36). -/
  | device (a : Word)
  deriving DecidableEq, Repr

/-- What the platform says to one byte access: nothing against it, or a stop. -/
def checkAccess (p : Params) (a : Word) (kind : AccessKind) : Option Stop :=
  if !memOk p a kind then some (.bus a) else if isDevice p a then some (.device a) else none

/-- `MemRead(a, 1)` (R33). -/
def readByte (p : Params) (m : Memory) (a : Word) : Except Stop Byte :=
  match checkAccess p a .read with
  | some stop => .error stop
  | none      => .ok (Memory.read m a.toNat)

/-- `n` bytes from `a` on, in increasing order, addresses modulo 2^64 (R30, R33, R39). -/
def readBytes (p : Params) (m : Memory) : Word → Nat → Except Stop (List Byte)
  | _, 0     => .ok []
  | a, n + 1 =>
    match readByte p m a with
    | .error stop => .error stop
    | .ok b =>
      match readBytes p m (a + 1#64) n with
      | .error stop => .error stop
      | .ok bs      => .ok (b :: bs)

/-- The scan of `UPD.STR`: from offset `n` on, at most `fuel` bytes; the offset of the first zero byte, or none found (R88, R89). -/
def scanText (p : Params) (m : Memory) (addr : Word) : Nat → Nat → Except Stop (Option Nat)
  | 0, _        => .ok none
  | fuel + 1, n =>
    match readByte p m (addr + BitVec.ofNat 64 n) with
    | .error stop => .error stop
    | .ok b       => if b = 0#8 then .ok (some n) else scanText p m addr fuel (n + 1)

/-- Byte writes in order until one is stopped: the memory then, and the stop (R34: bytes written before a `BusFault` stay written). -/
def storeBytes (p : Params) : Memory → List (Word × Byte) → Memory × Option Stop
  | m, []           => (m, none)
  | m, (a, b) :: ws =>
    match checkAccess p a .write with
    | some stop => (m, some stop)
    | none      => storeBytes p (Memory.write m a.toNat b) ws

/-! ## Contexts -/

/-- `ACC[a]`; `none` is "no object" (R11, R13). -/
def State.acc (s : State) (a : Slot) : Option Acc := s.accs[a.toNat]'a.isLt

/-- `GEN[g]`; `none` is "no object" (R12, R13). -/
def State.gen (s : State) (g : Slot) : Option Gen := s.gens[g.toNat]'g.isLt

/-- `ACC[a] <- x`; writing `none` is `valid <- 0`. -/
def State.setAcc (a : Slot) (x : Option Acc) (s : State) : State := { s with accs := s.accs.set a.toNat x a.isLt }

/-- `GEN[g] <- x`; writing `none` is `valid <- 0`. -/
def State.setGen (g : Slot) (x : Option Gen) (s : State) : State := { s with gens := s.gens.set g.toNat x g.isLt }

def State.setMem (m : Memory) (s : State) : State := { s with mem := m }

/-! ## Taking a fault, and reset -/

/-- `raise F(info)`: `FAULT`, `CAUSE` and `INFO` are written and nothing else (R120). -/
def State.raise (c : Cause) (info : Word) (s : State) : State :=
  { s with status := { s.status with fault := true }, cause := c.code, info := info }

/-- An accumulator context of which nothing is known, the `n`-th free value (R122; log 7). -/
def freeAcc (n : Nat) : Option Acc := if Config.freeValid n then some ⟨Config.freeCoef n, Config.freeLanes n⟩ else none

/-- A generator context of which nothing is known, the `n`-th free value (R122; log 7). -/
def freeGen (n : Nat) : Option Gen := if Config.freeValid n then some ⟨Config.freeCoef n, Config.freeKeys n⟩ else none

/-- `BusFault(a)` of a command that names `ACC[rt]`: that context is left unspecified (R122). -/
def State.raiseBusAcc (rt : Slot) (a : Word) (s : State) : State :=
  { (s.setAcc rt (freeAcc s.freeCount)).raise .busFault a with freeCount := s.freeCount + 1 }

/-- `BusFault(a)` of a command that names `GEN[rt]`: that context is left unspecified (R122). -/
def State.raiseBusGen (rt : Slot) (a : Word) (s : State) : State :=
  { (s.setGen rt (freeGen s.freeCount)).raise .busFault a with freeCount := s.freeCount + 1 }

/-- A stopped access of a command that names `ACC[rt]` ends the command (R36, R38). -/
def stopAcc (rt : Slot) (stop : Stop) (s : State) : Result :=
  match stop with
  | .bus a    => .next (s.raiseBusAcc rt a)
  | .device a => .refused (.deviceMemory a)

/-- A stopped access of a command that names `GEN[rt]` ends the command (R36, R38). -/
def stopGen (rt : Slot) (stop : Stop) (s : State) : Result :=
  match stop with
  | .bus a    => .next (s.raiseBusGen rt a)
  | .device a => .refused (.deviceMemory a)

/-- Reset, the event (R135): every context "no object"; `RES`, `STATUS`, `CAUSE`, `INFO` zero; the constants, the memory and the host's side
untouched. It is the only way out of a fault (R121). -/
def State.resetEvent (s : State) : State :=
  { s with
    accs := Vector.replicate 16 none, gens := Vector.replicate 16 none
    res := 0#64, status := ⟨false, .ok⟩, cause := 0#64, info := 0#64 }

/-! ## Context fields -/

/-- An `ACC[]` index must be below `NA`; if not, `BadSlot(index)` before anything else (R51 step 3, R117). -/
def withAcc (a : Slot) (s : State) (go : Result) : Result :=
  if a.toNat < s.params.na then go else .next (s.raise .badSlot (a.setWidth 64))

/-- A `GEN[]` index must be below `NG`; if not, `BadSlot(index)` before anything else (R51 step 3, R117). -/
def withGen (g : Slot) (s : State) (go : Result) : Result :=
  if g.toNat < s.params.ng then go else .next (s.raise .badSlot (g.setWidth 64))

end Sys2Proof.Machine
end

