-- ==== Sys2Proof/Machine/Accumulator.lean ====
section
/-! DEFINITION. The accumulator family (41_accumulator.md). -/

namespace Sys2Proof.Machine

/-- `ACC.CREATE` (R70). -/
def execAccCreate (rt : Slot) (bits : Word) (s : State) : Result :=
  withAcc rt s <|
    if bits = 0#64 then .next ((s.setAcc rt none).complete .zSize)
    else if s.params.lmax < lanesWanted bits then .next (s.raise .capacity (BitVec.ofNat 64 (lanesWanted bits)))
    else .next ((s.setAcc rt (some (freshAcc s.params (lanesWanted bits)))).complete .ok)

/-- `ACC.CLONE` (R72). -/
def execAccClone (rd rs : Slot) (s : State) : Result :=
  withAcc rd s <| withAcc rs s <|
    match s.acc rs with
    | none   => .next ((s.setAcc rd none).complete .noObj)
    | some a => .next ((s.setAcc rd (some a)).complete .ok)

/-- `ACC.FREE` (R73). -/
def execAccFree (rt : Slot) (s : State) : Result :=
  withAcc rt s <|
    match s.acc rt with
    | none   => .next (s.complete .noObj)
    | some _ => .next ((s.setAcc rt none).complete .ok)

/-- `ACC.LEN` (R74). -/
def execAccLen (rt : Slot) (s : State) : Result :=
  withAcc rt s <|
    match s.acc rt with
    | none   => .next ((s.setRes 0#64).complete .noObj)
    | some a => .next ((s.setRes (BitVec.ofNat 64 a.lanes.length)).complete .ok)

/-- `ACC.LANE` (R75). -/
def execAccLane (rt : Slot) (i : Word) (s : State) : Result :=
  withAcc rt s <|
    match s.acc rt with
    | none   => .next ((s.setRes 0#64).complete .noObj)
    | some a =>
      match a.lanes[i.toNat]? with
      | none      => .next (s.raise .indexRange i)
      | some lane => .next ((s.setRes lane).complete .ok)

end Sys2Proof.Machine
end

