-- ==== Sys2Proof/Machine/Generator.lean ====
section
/-! DEFINITION. The generator family (43_generator.md). -/

namespace Sys2Proof.Machine

/-- `GEN.FROMACC` (R95, R96). The source is not written (R76, C6). -/
def execGenFromAcc (rd rs : Slot) (s : State) : Result :=
  withGen rd s <| withAcc rs s <|
    match s.acc rs with
    | none   => .next ((s.setGen rd none).complete .noObj)
    | some a => .next ((s.setGen rd (some (finalize s.params a))).complete .ok)

/-- `GEN.CREATE` (R97). -/
def execGenCreate (rt : Slot) (addr size : Word) (s : State) : Result :=
  withGen rt s <|
    if size = 0#64 then .next ((s.setGen rt none).complete .zSize)
    else if s.params.lmax < keysWanted size then .next (s.raise .capacity (BitVec.ofNat 64 (keysWanted size)))
    else
      match readBytes s.params s.mem addr (4 * size.toNat) with
      | .error stop => stopGen rt stop s
      | .ok bs      => .next ((s.setGen rt (some ⟨s.params.startOut, padEven (leWords bs)⟩)).complete .ok)

/-- `GEN.CLONE` (R98). -/
def execGenClone (rd rs : Slot) (s : State) : Result :=
  withGen rd s <| withGen rs s <|
    match s.gen rs with
    | none   => .next ((s.setGen rd none).complete .noObj)
    | some g => .next ((s.setGen rd (some g)).complete .ok)

/-- `GEN.FREE` (R99). -/
def execGenFree (rt : Slot) (s : State) : Result :=
  withGen rt s <|
    match s.gen rt with
    | none   => .next (s.complete .noObj)
    | some _ => .next ((s.setGen rt none).complete .ok)

/-- `GEN.LEN` (R100). -/
def execGenLen (rt : Slot) (s : State) : Result :=
  withGen rt s <|
    match s.gen rt with
    | none   => .next ((s.setRes 0#64).complete .noObj)
    | some g => .next ((s.setRes (BitVec.ofNat 64 g.keys.length)).complete .ok)

/-- `GEN.KEY` (R101). -/
def execGenKey (rt : Slot) (j : Word) (s : State) : Result :=
  withGen rt s <|
    match s.gen rt with
    | none   => .next ((s.setRes 0#64).complete .noObj)
    | some g =>
      match g.keys[j.toNat]? with
      | none     => .next (s.raise .indexRange j)
      | some key => .next ((s.setRes (key.setWidth 64)).complete .ok)

/-- `GEN.NEXT` (R105). -/
def execGenNext (rt : Slot) (s : State) : Result :=
  withGen rt s <|
    match s.gen rt with
    | none   => .next ((s.setRes 0#64).complete .noObj)
    | some g =>
      let made := nextSeed s.params g
      .next (((s.setGen rt (some made.2)).setRes (made.1.setWidth 64)).complete .ok)

/-- The words `GEN.FILL` stores: the next `count` seeds, or `count` zeros on "no object" (R106, R107; C7). -/
def fillWords (rt : Slot) (count : Word) (s : State) : List Half :=
  match s.gen rt with
  | none   => List.replicate count.toNat 0#32
  | some g => (seeds s.params count.toNat g).1

/-- The context after `GEN.FILL`: advanced by `count` seeds; "no object" stays so (R106). -/
def filledGen (rt : Slot) (count : Word) (s : State) : Option Gen :=
  (s.gen rt).map fun g => (seeds s.params count.toNat g).2

/-- `LAST` after `GEN.FILL` (R106). -/
def fillLast (rt : Slot) (s : State) : Last := if (s.gen rt).isSome then .ok else .noObj

/-- `GEN.FILL` (R106, R107). -/
def execGenFill (rt : Slot) (addr count : Word) (s : State) : Result :=
  withGen rt s <|
    let stored := storeBytes s.params s.mem (writesAt addr (fillWords rt count s))
    match stored.2 with
    | some stop => stopGen rt stop (s.setMem stored.1)
    | none      => .next (((s.setGen rt (filledGen rt count s)).setMem stored.1).complete (fillLast rt s))

/-- `GEN.RESTART` (R108, R109; C4). -/
def execGenRestart (rt : Slot) (s : State) : Result :=
  withGen rt s <|
    match s.gen rt with
    | none   => .next ((s.setRes 0#64).complete .noObj)
    | some g => .next (((s.setGen rt (some ⟨s.params.startOut, g.keys⟩)).setRes g.coef).complete .ok)

end Sys2Proof.Machine
end

