-- ==== Sys2Proof/Machine/System.lean ====
section
/-! DEFINITION. The system family (44_system.md). -/

namespace Sys2Proof.Machine

/-- `NOP` (R113). -/
def execNop (s : State) : Result := .next (s.complete .ok)

end Sys2Proof.Machine
end

