-- ==== Sys2Proof/Machine/Update.lean ====
section
/-! DEFINITION. The update family, the input digester (42_update.md). -/

namespace Sys2Proof.Machine

/-- The shape of every scalar update: on "no object" nothing but `LAST = NOOBJ`, else the update (R80, R91). -/
def digest (rt : Slot) (s : State) (update : Acc → Acc) : Result :=
  withAcc rt s <|
    match s.acc rt with
    | none   => .next (s.complete .noObj)
    | some a => .next ((s.setAcc rt (some (update a))).complete .ok)

/-- `body(rt, addr, n)` on the accumulator `a` and the end of the command (R86). The bytes are read in order and then folded; a `BusFault`
leaves the context unspecified (R122), so that the folds before it cannot show (log 7). -/
def digestBytes (rt : Slot) (addr : Word) (n : Nat) (a : Acc) (s : State) : Result :=
  match readBytes s.params s.mem addr n with
  | .error stop => stopAcc rt stop s
  | .ok bs      => .next ((s.setAcc rt (some (foldWords s.params (leWords bs) a))).complete .ok)

/-- `UPD.U32` (R80). -/
def execUpdU32 (rt : Slot) (value : Half) (s : State) : Result := digest rt s (update32 s.params value)

/-- `UPD.U64` (R82). -/
def execUpdU64 (rt : Slot) (value : Word) (s : State) : Result := digest rt s (update64 s.params value)

/-- `UPD.F32` (R83): the bit pattern, as `UPD.U32`. -/
def execUpdF32 (rt : Slot) (pattern : Half) (s : State) : Result := digest rt s (update32 s.params pattern)

/-- `UPD.F64` (R84): the bit pattern, as `UPD.U64`. -/
def execUpdF64 (rt : Slot) (pattern : Word) (s : State) : Result := digest rt s (update64 s.params pattern)

/-- `UPD.PTR` (R85): the word itself, as `UPD.U64`; nothing is dereferenced. -/
def execUpdPtr (rt : Slot) (value : Word) (s : State) : Result := digest rt s (update64 s.params value)

/-- `UPD.BUF` (R86). -/
def execUpdBuf (rt : Slot) (addr len : Word) (s : State) : Result :=
  withAcc rt s <|
    match s.acc rt with
    | none   => .next (s.complete .noObj)
    | some a =>
      if s.params.lenW = .w32 ∧ 2 ^ 32 ≤ len.toNat then .next (s.raise .lengthRange len)
      else digestBytes rt addr len.toNat (foldLength s.params len a) s

/-- `UPD.STR` when no zero byte was found within the bound: `LengthRange(2^32)` under `LENW = 32`; under `LENW = 64` the command never
completes (R88, R89, V7; log 13). -/
def unterminated (s : State) : Result :=
  match s.params.lenW with
  | .w32 => .next (s.raise .lengthRange (BitVec.ofNat 64 (2 ^ 32)))
  | .w64 => .fault .neverCompletes

/-- `UPD.STR` (R88, R89). -/
def execUpdStr (rt : Slot) (addr : Word) (s : State) : Result :=
  withAcc rt s <|
    match s.acc rt with
    | none   => .next (s.complete .noObj)
    | some a =>
      match scanText s.params s.mem addr (scanBound s.params) 0 with
      | .error stop    => stopAcc rt stop s
      | .ok none       => unterminated s
      | .ok (some n)   => digestBytes rt addr n (foldLength s.params (BitVec.ofNat 64 n) a) s

/-- `UPD.OBJ` (R90). -/
def execUpdObj (rt : Slot) (addr len : Word) (s : State) : Result :=
  withAcc rt s <|
    match s.acc rt with
    | none   => .next (s.complete .noObj)
    | some a => digestBytes rt addr len.toNat a s

end Sys2Proof.Machine
end

