-- ==== Sys2Proof/Machine/Dispatch.lean ====
section
/-! DEFINITION. One arm per command (R50). -/

namespace Sys2Proof.Machine

def exec (i : Instr) (s : State) : Host.Outcome State Fault Refusal :=
  match i with
  | .nop => Sys2Proof.Machine.execNop s
  | .accCreate rt bits => Sys2Proof.Machine.execAccCreate rt bits s
  | .accClone rd rs => Sys2Proof.Machine.execAccClone rd rs s
  | .accFree rt => Sys2Proof.Machine.execAccFree rt s
  | .accLen rt => Sys2Proof.Machine.execAccLen rt s
  | .accLane rt lane => Sys2Proof.Machine.execAccLane rt lane s
  | .updU32 rt value => Sys2Proof.Machine.execUpdU32 rt value s
  | .updU64 rt value => Sys2Proof.Machine.execUpdU64 rt value s
  | .updF32 rt pattern => Sys2Proof.Machine.execUpdF32 rt pattern s
  | .updF64 rt pattern => Sys2Proof.Machine.execUpdF64 rt pattern s
  | .updPtr rt value => Sys2Proof.Machine.execUpdPtr rt value s
  | .updBuf rt addr len => Sys2Proof.Machine.execUpdBuf rt addr len s
  | .updStr rt addr => Sys2Proof.Machine.execUpdStr rt addr s
  | .updObj rt addr len => Sys2Proof.Machine.execUpdObj rt addr len s
  | .genFromAcc rd rs => Sys2Proof.Machine.execGenFromAcc rd rs s
  | .genCreate rt addr size => Sys2Proof.Machine.execGenCreate rt addr size s
  | .genClone rd rs => Sys2Proof.Machine.execGenClone rd rs s
  | .genFree rt => Sys2Proof.Machine.execGenFree rt s
  | .genLen rt => Sys2Proof.Machine.execGenLen rt s
  | .genKey rt key => Sys2Proof.Machine.execGenKey rt key s
  | .genNext rt => Sys2Proof.Machine.execGenNext rt s
  | .genFill rt addr count => Sys2Proof.Machine.execGenFill rt addr count s
  | .genRestart rt => Sys2Proof.Machine.execGenRestart rt s

end Sys2Proof.Machine
end

