-- ==== Sys2Proof/Machine/Port.lean ====
section
/-! DEFINITION. The command port and the rest of the host interface (R29, R46, R121, R135, R136, R146). -/

namespace Sys2Proof.Machine

/-- Submit (R46, R146): discarded undecoded while `FAULT` is 1 (R121); else decoded (R51, R52) and executed to completion. -/
def submit (p : Packet) (s : State) : Result :=
  if s.status.fault then .next s
  else
    match decode p with
    | .error _ => .next (s.raise .illegalCommand (p.cw.setWidth 64))
    | .ok i    => exec i s

/-- Observe (R29): the host gets the register's value, nothing of the block changes. A number that names no register is refused (V3; log 12). -/
def observe (n : Nat) (s : State) : Result :=
  match s.register n with
  | some v => .next { s with observed := some v }
  | none   => .refused (.noSuchRegister n)

/-- The byte writes a command makes, in order, when none is refused: only `GEN.FILL` writes memory (R30, R106). -/
def commandWrites (i : Instr) (s : State) : List (Word × Byte) :=
  match i with
  | .genFill rt addr count => if rt.toNat < s.params.ng then writesAt addr (fillWords rt count s) else []
  | .nop | .accCreate .. | .accClone .. | .accFree .. | .accLen .. | .accLane .. | .updU32 .. | .updU64 .. | .updF32 ..
  | .updF64 .. | .updPtr .. | .updBuf .. | .updStr .. | .updObj .. | .genFromAcc .. | .genCreate .. | .genClone ..
  | .genFree .. | .genLen .. | .genKey .. | .genNext .. | .genRestart .. => []

/-- Reset during a command, after it has made `k` byte writes (R136; log 11): the command is abandoned, the bytes it had written stay, the
block is as after reset. A command that has no meaning (R36) is refused here too. -/
def submitThenReset (p : Packet) (k : Nat) (s : State) : Result :=
  if s.status.fault then .next s.resetEvent
  else
    match decode p with
    | .error _ => .next s.resetEvent
    | .ok i    =>
      match exec i s with
      | .refused r => .refused r
      | _          => .next (s.setMem (storeBytes s.params s.mem ((commandWrites i s).take k)).1).resetEvent

/-- The host writes a byte of its memory between commands (R40, R146). -/
def hostWrite (a : Word) (b : Byte) (s : State) : State := s.setMem (Memory.write s.mem a.toNat b)

/-- The host reads a byte of its memory between commands (R40, R146). -/
def hostRead (a : Word) (s : State) : State := { s with observed := some ((Memory.read s.mem a.toNat).setWidth 64) }

/-- One act of the host (R146). -/
def act (i : Input) (s : State) : Result :=
  match i with
  | .submit p        => submit p s
  | .observe n       => observe n s
  | .reset           => .next s.resetEvent
  | .resetDuring p k => submitThenReset p k s
  | .hostWrite a b   => .next (hostWrite a b s)
  | .hostRead a      => .next (hostRead a s)

end Sys2Proof.Machine
end

