-- ==== Sys2Proof/Machine/Step.lean ====
section
/-! DEFINITION. One step: the host's next act (R146); with none pending the block is idle and keeps all state (R132). -/

namespace Sys2Proof.Machine

def step (s : State) : Host.Outcome State Fault Refusal :=
  match s.inputs with
  | []        => .next s
  | i :: rest => act i { s with inputs := rest }

/-- `s` with the packet of a table row's word as the host's next act: the block fetches nothing (R2, R21), so the next packet submitted is
the next command that runs. It stands for the host's submission (log 9). -/
def State.withFetchWord (s : State) (nbits w : Nat) : State := { s with inputs := .submit (.ofTableWord nbits w) :: s.inputs }

end Sys2Proof.Machine
end

