-- ==== Sys2Proof/Safety.lean ====
section
/-! DEFINITION. What a good state is, and the words the statements are written in: what a command leaves unchanged, what completing and taking
a fault leave. -/

namespace Sys2Proof.Machine

/-! ## The invariants of a valid context (R14) -/

/-- An accumulator that fits: `len` even, at least 2, at most `LMAX` (R14 item 1). -/
def Acc.fits (p : Params) (a : Acc) : Prop := a.lanes.length % 2 = 0 ∧ 2 ≤ a.lanes.length ∧ a.lanes.length ≤ p.lmax

/-- A generator that fits: `len` even, at least 2, at most `LMAX` (R14 item 1). -/
def Gen.fits (p : Params) (g : Gen) : Prop := g.keys.length % 2 = 0 ∧ 2 ≤ g.keys.length ∧ g.keys.length ≤ p.lmax

/-- The `k`-th value of the Weyl sequence that starts at `start` (R61); `k = 0` is the start itself. -/
def weylAt (start inc : Word) (k : Nat) : Word := start + BitVec.ofNat 64 k * inc

/-- `coef` is where `n` primitive updates after the creation leave it (R14 item 4). -/
def Acc.at (p : Params) (a : Acc) (n : Nat) : Prop := a.coef = weylAt p.startIn p.incIn (a.lanes.length * (n + 1))

/-- `coef` is where `m` seeds after the creation or the last restart leave it (R14 item 5). -/
def Gen.at (p : Params) (g : Gen) (m : Nat) : Prop := g.coef = weylAt p.startOut p.incOut (m * (1 + g.keys.length))

/-- The invariant of the machine. The clauses on the contexts hold while no fault is pending: after a `BusFault` the contexts are unspecified
until reset (R122, R145). -/
structure State.Inv (s : State) : Prop where
  /-- The instance is one R5 and R7 allow. -/
  params : s.params.wf = true
  /-- The memory keeps its canonical form. -/
  mem    : Memory.wf s.mem = true
  /-- `CAUSE` and `INFO` are zero while `FAULT` is 0 (R18, R19). -/
  quiet  : s.status.fault = false → s.cause = 0#64 ∧ s.info = 0#64
  /-- While `FAULT` is 1, `CAUSE` is one of the six codes (R116, R121). -/
  caused : s.status.fault = true → 1 ≤ s.cause.toNat ∧ s.cause.toNat ≤ 6
  /-- Every accumulator stands in a context the instance has, and fits (R10, R14). -/
  accs   : s.status.fault = false → ∀ (a : Slot) (x : Acc), s.acc a = some x → a.toNat < s.params.na ∧ x.fits s.params
  /-- Every generator stands in a context the instance has, and fits (R10, R14). -/
  gens   : s.status.fault = false → ∀ (g : Slot) (x : Gen), s.gen g = some x → g.toNat < s.params.ng ∧ x.fits s.params

/-- For every context, how many primitive updates were applied to it since its creation, or how many seeds it produced since its creation or its
last restart (R14 items 4 and 5). The machine holds no such counts; statements carry them beside the state. -/
structure Counts where
  acc : Slot → Nat
  gen : Slot → Nat

/-- Before any command. -/
def Counts.zero : Counts := ⟨fun _ => 0, fun _ => 0⟩

/-- The count of one accumulator becomes `n`. -/
def Counts.setAcc (c : Counts) (rt : Slot) (n : Nat) : Counts := { c with acc := fun a => if a = rt then n else c.acc a }

/-- The count of one generator becomes `m`. -/
def Counts.setGen (c : Counts) (rt : Slot) (m : Nat) : Counts := { c with gen := fun g => if g = rt then m else c.gen g }

/-- How many primitive updates fold a length: one under `LENW = 32`, two under `LENW = 64` (R86, R87). -/
def lengthFolds (p : Params) : Nat :=
  match p.lenW with
  | .w32 => 1
  | .w64 => 2

/-- Every valid context stands where its count says (R14 items 4 and 5), while no fault is pending. -/
def State.PositionedAt (s : State) (c : Counts) : Prop :=
  s.status.fault = false →
    (∀ (a : Slot) (x : Acc), s.acc a = some x → x.at s.params (c.acc a)) ∧ (∀ (g : Slot) (x : Gen), s.gen g = some x → x.at s.params (c.gen g))

/-! ## What a step leaves unchanged -/

/-- Every accumulator context reads as before. -/
def KeepsAccs (s t : State) : Prop := ∀ a : Slot, t.acc a = s.acc a

/-- Every accumulator context but one reads as before. -/
def KeepsAccsBut (rt : Slot) (s t : State) : Prop := ∀ a : Slot, a ≠ rt → t.acc a = s.acc a

/-- Every generator context reads as before. -/
def KeepsGens (s t : State) : Prop := ∀ g : Slot, t.gen g = s.gen g

/-- Every generator context but one reads as before. -/
def KeepsGensBut (rt : Slot) (s t : State) : Prop := ∀ g : Slot, g ≠ rt → t.gen g = s.gen g

/-- Every byte of memory reads as before. -/
def KeepsMem (s t : State) : Prop := ∀ x : Nat, Memory.read t.mem x = Memory.read s.mem x

/-- The instance and the host's side are as before. -/
def KeepsHost (s t : State) : Prop := t.params = s.params ∧ t.inputs = s.inputs ∧ t.observed = s.observed

/-- The command completed without a fault with this outcome: `LAST` is written, `FAULT`, `CAUSE`, `INFO` and the host's side are as before
(R17), and no free value was used. -/
def Completed (last : Last) (s t : State) : Prop :=
  t.status = ⟨s.status.fault, last⟩ ∧ t.cause = s.cause ∧ t.info = s.info ∧ t.freeCount = s.freeCount ∧ KeepsHost s t

/-- The command raised the fault of this code with this detail word (R120): `LAST` and `RES` keep their values. -/
def Faulted (code info : Word) (s t : State) : Prop :=
  t.status = ⟨true, s.status.last⟩ ∧ t.cause = code ∧ t.info = info ∧ t.res = s.res ∧ KeepsHost s t

/-- A fault that was raised before the command changed anything (R122). -/
def FaultedPrecisely (code info : Word) (s t : State) : Prop :=
  Faulted code info s t ∧ KeepsAccs s t ∧ KeepsGens s t ∧ KeepsMem s t ∧ t.freeCount = s.freeCount

/-! ## Which bytes a command can reach -/

/-- The `n` bytes from `addr` on are ordinary memory that the platform lets the block access in this way (R36, R38). -/
def Accessible (p : Params) (addr : Word) (n : Nat) (kind : AccessKind) : Prop :=
  ∀ k, k < n → memOk p (addr + BitVec.ofNat 64 k) kind = true ∧ isDevice p (addr + BitVec.ofNat 64 k) = false

/-- `x` is one of the `n` addresses `addr`, `addr + 1`, ..., modulo 2^64 (R30). -/
def InRange (addr : Word) (n : Nat) (x : Nat) : Prop := ∃ k, k < n ∧ x = (addr + BitVec.ofNat 64 k).toNat

end Sys2Proof.Machine
end

