-- ==== Sys2Proof/Certificates/Slice0/Obligations.lean ====
section
/-! DEFINITION. The statements about the machine, for the provers, and the words they are written in (`Sys2Proof.Claims`), which say the
rules of the spec in closed form, apart from the model's own loops. -/

open Sys2Proof Sys2Proof.Machine

namespace Sys2Proof.Claims

/-! ## The opcode table -/

/-- The rows of `spec/opcode_table.json`: mnemonic, `match`, `mask` (R48, R50). -/
def table : List (String × Half × Half) :=
  [("NOP", 0x00#32, 0xFFFFFFFF#32), ("ACC.CREATE", 0x10#32, 0xFFFFF0FF#32), ("ACC.CLONE", 0x11#32, 0xFFFF00FF#32),
   ("ACC.FREE", 0x12#32, 0xFFFFF0FF#32), ("ACC.LEN", 0x13#32, 0xFFFFF0FF#32), ("ACC.LANE", 0x14#32, 0xFFFFF0FF#32),
   ("UPD.U32", 0x20#32, 0xFFFFF0FF#32), ("UPD.U64", 0x21#32, 0xFFFFF0FF#32), ("UPD.F32", 0x22#32, 0xFFFFF0FF#32),
   ("UPD.F64", 0x23#32, 0xFFFFF0FF#32), ("UPD.PTR", 0x24#32, 0xFFFFF0FF#32), ("UPD.BUF", 0x25#32, 0xFFFFF0FF#32),
   ("UPD.STR", 0x26#32, 0xFFFFF0FF#32), ("UPD.OBJ", 0x27#32, 0xFFFFF0FF#32)] ++
  [("GEN.FROMACC", 0x30#32, 0xFFFF00FF#32), ("GEN.CREATE", 0x31#32, 0xFFFFF0FF#32), ("GEN.CLONE", 0x32#32, 0xFFFF00FF#32),
   ("GEN.FREE", 0x33#32, 0xFFFFF0FF#32), ("GEN.LEN", 0x34#32, 0xFFFFF0FF#32), ("GEN.KEY", 0x35#32, 0xFFFFF0FF#32),
   ("GEN.NEXT", 0x36#32, 0xFFFFF0FF#32), ("GEN.FILL", 0x37#32, 0xFFFFF0FF#32), ("GEN.RESTART", 0x38#32, 0xFFFFF0FF#32)]

/-- The mnemonic of a command (R50). -/
def mnemonic : Instr → String
  | .nop => "NOP"
  | .accCreate .. => "ACC.CREATE"
  | .accClone .. => "ACC.CLONE"
  | .accFree .. => "ACC.FREE"
  | .accLen .. => "ACC.LEN"
  | .accLane .. => "ACC.LANE"
  | .updU32 .. => "UPD.U32"
  | .updU64 .. => "UPD.U64"
  | .updF32 .. => "UPD.F32"
  | .updF64 .. => "UPD.F64"
  | .updPtr .. => "UPD.PTR"
  | .updBuf .. => "UPD.BUF"
  | .updStr .. => "UPD.STR"
  | .updObj .. => "UPD.OBJ"
  | .genFromAcc .. => "GEN.FROMACC"
  | .genCreate .. => "GEN.CREATE"
  | .genClone .. => "GEN.CLONE"
  | .genFree .. => "GEN.FREE"
  | .genLen .. => "GEN.LEN"
  | .genKey .. => "GEN.KEY"
  | .genNext .. => "GEN.NEXT"
  | .genFill .. => "GEN.FILL"
  | .genRestart .. => "GEN.RESTART"

/-- The control word of an opcode with its two context fields, as a number (R47). -/
def word (op : Nat) (rt rs : Slot) : Nat := op + 2 ^ 8 * rt.toNat + 2 ^ 12 * rs.toNat

/-- What a packet that carries this command holds: every bit of its control word, and every operand word the command uses; the words and
halves a command ignores are not mentioned (R47, R49, R50). -/
def FieldsOf (p : Packet) : Instr → Prop
  | .nop => p.cw.toNat = 0
  | .accCreate rt bits => p.cw.toNat = word 0x10 rt 0#4 ∧ bits = p.p0
  | .accClone rd rs => p.cw.toNat = word 0x11 rd rs
  | .accFree rt => p.cw.toNat = word 0x12 rt 0#4
  | .accLen rt => p.cw.toNat = word 0x13 rt 0#4
  | .accLane rt i => p.cw.toNat = word 0x14 rt 0#4 ∧ i = p.p0
  | .updU32 rt value => p.cw.toNat = word 0x20 rt 0#4 ∧ value.toNat = p.p0.toNat % 2 ^ 32
  | .updU64 rt value => p.cw.toNat = word 0x21 rt 0#4 ∧ value = p.p0
  | .updF32 rt pattern => p.cw.toNat = word 0x22 rt 0#4 ∧ pattern.toNat = p.p0.toNat % 2 ^ 32
  | .updF64 rt pattern => p.cw.toNat = word 0x23 rt 0#4 ∧ pattern = p.p0
  | .updPtr rt value => p.cw.toNat = word 0x24 rt 0#4 ∧ value = p.p0
  | .updBuf rt addr len => p.cw.toNat = word 0x25 rt 0#4 ∧ addr = p.p0 ∧ len = p.p1
  | .updStr rt addr => p.cw.toNat = word 0x26 rt 0#4 ∧ addr = p.p0
  | .updObj rt addr len => p.cw.toNat = word 0x27 rt 0#4 ∧ addr = p.p0 ∧ len = p.p1
  | .genFromAcc rd rs => p.cw.toNat = word 0x30 rd rs
  | .genCreate rt addr size => p.cw.toNat = word 0x31 rt 0#4 ∧ addr = p.p0 ∧ size = p.p1
  | .genClone rd rs => p.cw.toNat = word 0x32 rd rs
  | .genFree rt => p.cw.toNat = word 0x33 rt 0#4
  | .genLen rt => p.cw.toNat = word 0x34 rt 0#4
  | .genKey rt j => p.cw.toNat = word 0x35 rt 0#4 ∧ j = p.p0
  | .genNext rt => p.cw.toNat = word 0x36 rt 0#4
  | .genFill rt addr count => p.cw.toNat = word 0x37 rt 0#4 ∧ addr = p.p0 ∧ count = p.p1
  | .genRestart rt => p.cw.toNat = word 0x38 rt 0#4

/-! ## Registers, commands and their families -/

/-- The registers by number, as numbers (10_state.md section 2, R17, R23, R24). -/
def registerValue (s : State) : Nat → Option Nat
  | 0 => some 0x49524F4E53454544
  | 1 => some (s.params.na % 2 ^ 5 + 2 ^ 8 * (s.params.ng % 2 ^ 5) + 2 ^ 16 * (s.params.lmax % 2 ^ 17) +
      2 ^ 40 * (if s.params.lenW = .w64 then 1 else 0))
  | 2 => some ((if s.status.fault = true then 1 else 0) + 2 * (match s.status.last with | .ok => 0 | .noObj => 1 | .zSize => 2))
  | 3 => some s.cause.toNat
  | 4 => some s.info.toNat
  | 5 => some s.res.toNat
  | 8 => some s.params.startIn.toNat
  | 9 => some s.params.incIn.toNat
  | 10 => some s.params.startOut.toNat
  | 11 => some s.params.incOut.toNat
  | 12 => some s.params.mixM1.toNat
  | 13 => some s.params.mixM2.toNat
  | _ => none

/-- The codes of the faults a command can raise in execution (R119). -/
def causesOf : Instr → List Nat
  | .nop | .accClone .. | .accFree .. | .accLen .. | .updU32 .. | .updU64 .. | .updF32 .. | .updF64 .. | .updPtr .. | .genFromAcc ..
  | .genClone .. | .genFree .. | .genLen .. | .genNext .. | .genRestart .. => []
  | .accCreate .. => [3]
  | .accLane .. | .genKey .. => [4]
  | .updBuf .. | .updStr .. => [5, 6]
  | .updObj .. => [6]
  | .genCreate .. => [3, 6]
  | .genFill .. => [6]

/-- The context a value-returning command works on; `none` for a command that returns no value (R16). -/
def valueFrom : Instr → Option (Bank × Slot)
  | .accLen rt | .accLane rt _ => some (.acc, rt)
  | .genLen rt | .genKey rt _ | .genNext rt | .genRestart rt => some (.gen, rt)
  | .nop | .accCreate .. | .accClone .. | .accFree .. | .updU32 .. | .updU64 .. | .updF32 .. | .updF64 .. | .updPtr .. | .updBuf ..
  | .updStr .. | .updObj .. | .genFromAcc .. | .genCreate .. | .genClone .. | .genFree .. | .genFill .. => none

/-- The context is "no object" (R13). -/
def NoObjectAt (s : State) : Bank × Slot → Prop
  | (.acc, a) => s.acc a = none
  | (.gen, g) => s.gen g = none

/-- The accumulator a `UPD.*` command works on; `none` for every other command. -/
def updateOf : Instr → Option Slot
  | .updU32 rt _ | .updU64 rt _ | .updF32 rt _ | .updF64 rt _ | .updPtr rt _ | .updBuf rt _ _ | .updStr rt _ | .updObj rt _ _ => some rt
  | .nop | .accCreate .. | .accClone .. | .accFree .. | .accLen .. | .accLane .. | .genFromAcc .. | .genCreate .. | .genClone ..
  | .genFree .. | .genLen .. | .genKey .. | .genNext .. | .genFill .. | .genRestart .. => none

/-- The context a command only reads: the source of a clone or a finalization (R15, R76). -/
def sourceOf : Instr → Option (Bank × Slot)
  | .accClone rd rs => if rd = rs then none else some (.acc, rs)
  | .genClone rd rs => if rd = rs then none else some (.gen, rs)
  | .genFromAcc _ rs => some (.acc, rs)
  | .nop | .accCreate .. | .accFree .. | .accLen .. | .accLane .. | .updU32 .. | .updU64 .. | .updF32 .. | .updF64 .. | .updPtr ..
  | .updBuf .. | .updStr .. | .updObj .. | .genCreate .. | .genFree .. | .genLen .. | .genKey .. | .genNext .. | .genFill ..
  | .genRestart .. => none

/-! ## Frames -/

/-- Contexts, memory and `RES` are as before. -/
def KeepsAll (s t : State) : Prop := KeepsAccs s t ∧ KeepsGens s t ∧ KeepsMem s t ∧ t.res = s.res

/-- Contexts and memory are as before; `RES` may differ. -/
def KeepsAllButRes (s t : State) : Prop := KeepsAccs s t ∧ KeepsGens s t ∧ KeepsMem s t

/-- All but one accumulator context is as before. -/
def KeepsAllButAcc (rt : Slot) (s t : State) : Prop := KeepsAccsBut rt s t ∧ KeepsGens s t ∧ KeepsMem s t ∧ t.res = s.res

/-- All but one generator context is as before. -/
def KeepsAllButGen (rt : Slot) (s t : State) : Prop := KeepsAccs s t ∧ KeepsGensBut rt s t ∧ KeepsMem s t ∧ t.res = s.res

/-- The two states agree on all that a command may draw on: the instance, the memory, the contexts it names (R112), and how many free values
were used, a field of the model's own (log 8). -/
def Agree (i : Instr) (s s' : State) : Prop :=
  s'.params = s.params ∧ s'.mem = s.mem ∧ s'.freeCount = s.freeCount ∧
    (∀ a, (Bank.acc, a) ∈ i.slots → s'.acc a = s.acc a) ∧ (∀ g, (Bank.gen, g) ∈ i.slots → s'.gen g = s.gen g)

/-- The registers a command may write are written alike from `s` to `t` and from `s'` to `t'`, or kept in both: `RES`; and either `LAST`
alone with the three fault registers kept, or the three fault registers with `LAST` kept. -/
def RegistersAlike (s s' t t' : State) : Prop :=
  ((t.res = s.res ∧ t'.res = s'.res) ∨ t'.res = t.res) ∧
    ((t.cause = s.cause ∧ t'.cause = s'.cause ∧ t.info = s.info ∧ t'.info = s'.info ∧
        ∃ last, t.status = ⟨s.status.fault, last⟩ ∧ t'.status = ⟨s'.status.fault, last⟩) ∨
      (t'.cause = t.cause ∧ t'.info = t.info ∧ t.status = ⟨true, s.status.last⟩ ∧ t'.status = ⟨true, s'.status.last⟩))

/-! ## The rules in closed form -/

/-- One primitive update of `a` with `v` gives `b` (R68, R80). -/
def Folded (p : Params) (v : Half) (a b : Acc) : Prop :=
  b.lanes.length = a.lanes.length ∧ b.coef = a.coef + BitVec.ofNat 64 a.lanes.length * p.incIn ∧
    ∀ (i : Nat) (l : Word), a.lanes[i]? = some l →
      b.lanes[i]? = some (l + (a.coef + BitVec.ofNat 64 (i + 1) * p.incIn) * v.setWidth 64)

/-- The primitive updates with these values in order take `a` to `b`. -/
def FoldedAll (p : Params) : List Half → Acc → Acc → Prop
  | [], a, b => b = a
  | v :: vs, a, b => ∃ m, Folded p v a m ∧ FoldedAll p vs m b

/-- The values that fold a 64-bit number: low 32 bits first, then high 32 bits (R82). -/
def halves (w : Word) : List Half := [BitVec.ofNat 32 w.toNat, BitVec.ofNat 32 (w.toNat / 2 ^ 32)]

/-- The values that fold a length (R86, R87). -/
def lengthValues (p : Params) (len : Word) : List Half :=
  match p.lenW with
  | .w32 => [BitVec.ofNat 32 len.toNat]
  | .w64 => halves len

/-- `B(k)`: the byte at `addr +64 k` while `k < len`, then zero (R31). -/
def bufferByte (m : Memory) (addr : Word) (len k : Nat) : Nat :=
  if k < len then (Memory.read m (addr + BitVec.ofNat 64 k).toNat).toNat else 0

/-- `word[w]` of a buffer (R31). -/
def bufferWord (m : Memory) (addr : Word) (len w : Nat) : Half :=
  BitVec.ofNat 32 (bufferByte m addr len (4 * w) + bufferByte m addr len (4 * w + 1) * 2 ^ 8 +
    bufferByte m addr len (4 * w + 2) * 2 ^ 16 + bufferByte m addr len (4 * w + 3) * 2 ^ 24)

/-- The words of a buffer of `len` bytes, `ceil(len / 4)` of them (R31). -/
def bufferWords (m : Memory) (addr : Word) (len : Nat) : List Half := (List.range ((len + 3) / 4)).map (bufferWord m addr len)

/-- A text of `n` non-zero bytes and a zero byte stands at `addr`, all readable, and `n` is a length the scan can count (R88, R89). -/
def TextAt (p : Params) (m : Memory) (addr : Word) (n : Nat) : Prop :=
  n < (match p.lenW with | .w32 => 2 ^ 32 | .w64 => 2 ^ 64) ∧ Accessible p addr (n + 1) .read ∧
    (∀ k, k < n → Memory.read m (addr + BitVec.ofNat 64 k).toNat ≠ 0#8) ∧ Memory.read m (addr + BitVec.ofNat 64 n).toNat = 0#8

/-- The `n` bytes from `addr` on are readable and none of them is zero (R89). -/
def NoZeroFor (p : Params) (m : Memory) (addr : Word) (n : Nat) : Prop :=
  Accessible p addr n .read ∧ ∀ k, k < n → Memory.read m (addr + BitVec.ofNat 64 k).toNat ≠ 0#8

/-- Byte `k` from `addr` on is the first the platform refuses in this way; the ones before it are ordinary and accessible (R38). -/
def RefusedAt (p : Params) (addr : Word) (k : Nat) (kind : AccessKind) : Prop :=
  Accessible p addr k kind ∧ memOk p (addr + BitVec.ofNat 64 k) kind = false

/-- Byte `k` from `addr` on is the first that is device memory; the ones before it are ordinary and accessible (R36). -/
def DeviceAt (p : Params) (addr : Word) (k : Nat) (kind : AccessKind) : Prop :=
  Accessible p addr k kind ∧ memOk p (addr + BitVec.ofNat 64 k) kind = true ∧ isDevice p (addr + BitVec.ofNat 64 k) = true

/-- The row of the fault table that a command's fault in execution falls under: the cause, when it is raised, and its detail word (R116). -/
def FaultRow (i : Instr) (s : State) (cause info : Word) : Prop :=
  (cause = 2#64 ∧ ∃ k, i.firstBadSlot s.params = some k ∧ info = BitVec.ofNat 64 k.toNat) ∨
  (cause = 3#64 ∧ ∃ n, s.params.lmax < n ∧ info = BitVec.ofNat 64 n ∧
    ((∃ rt bits, i = .accCreate rt bits ∧ n = 2 * ((bits.toNat + 63) / 64)) ∨
      ∃ rt addr size, i = .genCreate rt addr size ∧ n = size.toNat + size.toNat % 2)) ∨
  (cause = 4#64 ∧ ∃ rt, (i = .accLane rt info ∧ ∃ a, s.acc rt = some a ∧ a.lanes.length ≤ info.toNat) ∨
    (i = .genKey rt info ∧ ∃ g, s.gen rt = some g ∧ g.keys.length ≤ info.toNat)) ∨
  (cause = 5#64 ∧ s.params.lenW = .w32 ∧ ∃ rt addr, (i = .updBuf rt addr info ∧ 2 ^ 32 ≤ info.toNat) ∨
    (i = .updStr rt addr ∧ info = BitVec.ofNat 64 (2 ^ 32) ∧ NoZeroFor s.params s.mem addr (2 ^ 32))) ∨
  (cause = 6#64 ∧ ∃ rt addr k kind, RefusedAt s.params addr k kind ∧ info = addr + BitVec.ofNat 64 k ∧
    ((kind = .read ∧ ∃ len : Word, k < len.toNat ∧ (i = .updBuf rt addr len ∨ i = .updObj rt addr len)) ∨
      (kind = .read ∧ i = .updStr rt addr ∧ NoZeroFor s.params s.mem addr k) ∨
      (kind = .read ∧ ∃ size : Word, k < 4 * size.toNat ∧ i = .genCreate rt addr size) ∨
      (kind = .write ∧ ∃ count : Word, k < 4 * count.toNat ∧ i = .genFill rt addr count)))

/-- The generator after `n` seeds (R105). -/
def genAfter (p : Params) (g : Gen) (n : Nat) : Gen := (fun h => (nextSeed p h).2)^[n] g

/-- Seed number `n`, from 0 (R105). -/
def seedAt (p : Params) (g : Gen) (n : Nat) : Half := (nextSeed p (genAfter p g n)).1

/-- Byte `j` of what `GEN.FILL` stores: of the seeds, little-endian, or of the zeros of "no object" (R32, R106, R107). -/
def fillByte (p : Params) (g : Option Gen) (j : Nat) : Byte :=
  match g with
  | none => 0#8
  | some g => BitVec.ofNat 8 ((seedAt p g (j / 4)).toNat / 2 ^ (8 * (j % 4)))

/-- Memory `m'` is `m` with the bytes `f 0 .. f (n-1)` written in order from `addr` on, addresses modulo 2^64: where two of them fall on one
address the later stays (R30, R39, R142), and every other byte is as before. -/
def Wrote (m m' : Memory) (addr : Word) (n : Nat) (f : Nat → Byte) : Prop :=
  (∀ j, j < n → (∀ j', j < j' → j' < n → addr + BitVec.ofNat 64 j' ≠ addr + BitVec.ofNat 64 j) →
    Memory.read m' (addr + BitVec.ofNat 64 j).toNat = f j) ∧
  ∀ x, ¬ InRange addr n x → Memory.read m' x = Memory.read m x

/-- The block is as reset leaves it, the instance is kept (R27, R135). -/
def AsAfterReset (s t : State) : Prop :=
  (∀ a, t.acc a = none) ∧ (∀ g, t.gen g = none) ∧ t.res = 0#64 ∧ t.status = ⟨false, .ok⟩ ∧ t.cause = 0#64 ∧ t.info = 0#64 ∧
    t.params = s.params

/-- `RES`, `STATUS`, `CAUSE`, `INFO` and the contexts are as after reset, the act of the host is taken off, and the memory is as before. -/
def ResetWithMemoryKept (s : State) (rest : List Input) : Prop :=
  ∃ t, step s = .next t ∧ AsAfterReset s t ∧ t.inputs = rest ∧ t.mem = s.mem

/-- The counts of every context after the command has completed, from those before it: a creation, a finalization and a restart start at 0, a
clone takes its source's count, an update adds the primitive updates it makes (a text's length is known where it has a terminator), and
`GEN.NEXT` and `GEN.FILL` add the seeds they produce (R14, R81). -/
def CountsAfter (s : State) (c c' : Counts) : Instr → Prop
  | .accCreate rt _ => c' = c.setAcc rt 0
  | .accClone rd rs => c' = c.setAcc rd (c.acc rs)
  | .updU32 rt _ | .updF32 rt _ => c' = c.setAcc rt (c.acc rt + 1)
  | .updU64 rt _ | .updF64 rt _ | .updPtr rt _ => c' = c.setAcc rt (c.acc rt + 2)
  | .updBuf rt _ len => c' = c.setAcc rt (c.acc rt + lengthFolds s.params + (len.toNat + 3) / 4)
  | .updStr rt addr => ∃ n, c' = c.setAcc rt n ∧
      ∀ len, TextAt s.params s.mem addr len → n = c.acc rt + lengthFolds s.params + (len + 3) / 4
  | .updObj rt _ len => c' = c.setAcc rt (c.acc rt + (len.toNat + 3) / 4)
  | .genFromAcc rd _ => c' = c.setGen rd 0
  | .genCreate rt _ _ | .genRestart rt => c' = c.setGen rt 0
  | .genClone rd rs => c' = c.setGen rd (c.gen rs)
  | .genNext rt => c' = c.setGen rt (c.gen rt + 1)
  | .genFill rt _ count => c' = c.setGen rt (c.gen rt + count.toNat)
  | .nop | .accFree _ | .accLen _ | .accLane _ _ | .genFree _ | .genLen _ | .genKey _ _ => c' = c

/-- The counts after a step: a submitted command's, and as before for every other act of the host. -/
def CountsAfterStep (s : State) (c c' : Counts) : Prop :=
  match s.inputs with
  | .submit p :: _ =>
    match decode p with
    | .ok i => CountsAfter s c c' i
    | .error _ => c' = c
  | [] | .observe _ :: _ | .reset :: _ | .resetDuring _ _ :: _ | .hostWrite _ _ :: _ | .hostRead _ :: _ => c' = c

/-- `GEN.NEXT` executed `n` times: what `RES` held after each, and the state at the end. -/
def nexts : Nat → Slot → State → Option (List Word × State)
  | 0, _, s => some ([], s)
  | n + 1, rt, s =>
    match exec (.genNext rt) s with
    | .next t => (nexts n rt t).map fun r => (t.res :: r.1, r.2)
    | _ => none

/-- The commands executed one after another, each completing or faulting; `none` if one does not end. -/
def runAll : List Instr → State → Option State
  | [], s => some s
  | i :: is, s =>
    match exec i s with
    | .next t => runAll is t
    | _ => none

/-- Two states with the same contexts and the same memory. -/
def SameObjects (t u : State) : Prop := KeepsAccs t u ∧ KeepsGens t u ∧ KeepsMem t u

/-- The updates that fold a length (R54, R87). -/
def lengthUpdates (p : Params) (rt : Slot) (len : Word) : Instr :=
  match p.lenW with
  | .w32 => .updU32 rt (BitVec.ofNat 32 len.toNat)
  | .w64 => .updU64 rt len

end Sys2Proof.Claims

open Sys2Proof.Claims

/-! ## Encoding -/

/-- For every command with every operand value, decoding its encoding gives the command back (R47 to R50). -/
def Obligations.DecodeOfEncode : Prop := ∀ i : Instr, decode (encode i) = .ok i

/-- The decoder reads a command from a packet exactly when the packet holds it: every bit of the control word and every operand word the
command uses; an ignored word or half can be anything (R47, R49, R50). -/
def Obligations.DecodeReadsExactlyTheFields : Prop := ∀ (p : Packet) (i : Instr), decode p = .ok i ↔ FieldsOf p i

/-- A control word `w` selects the row with `w & mask = match`, and the decoder reads that row's command (R48, R50). -/
def Obligations.RowSelectsItsCommand : Prop :=
  ∀ (p : Packet) (name : String) (m k : Half), (name, m, k) ∈ table → p.cw &&& k = m → ∃ i, decode p = .ok i ∧ mnemonic i = name

/-- A few words of 96_test_vectors.md section 3 (K4, K13, K17, K24, KD2, KD7, KD10), a sanity check of the decoder. -/
def Obligations.DecodeSampleWords : Prop :=
  decode ⟨0x00002311#32, 0#64, 0#64⟩ = .ok (.accClone 3#4 2#4) ∧
  decode ⟨0x00000225#32, 0x1000#64, 5#64⟩ = .ok (.updBuf 2#4 0x1000#64 5#64) ∧
  decode ⟨0x00003230#32, 0#64, 0#64⟩ = .ok (.genFromAcc 2#4 3#4) ∧
  decode ⟨0x00000037#32, 0x3000#64, 2#64⟩ = .ok (.genFill 0#4 0x3000#64 2#64) ∧
  decode ⟨0x00002130#32, 0#64, 0#64⟩ = .ok (.genFromAcc 1#4 2#4) ∧
  decodeTableWord 32 0x00000000 = some .nop ∧ decodeTableWord 32 0x00010000 = none ∧ decodeTableWord 32 0x00001012 = none

/-! ## The port -/

/-- A step whose next act of the host is a submission, with no fault pending, runs the decoded command on the state with that act taken
off (R46, R51, R146). That the host's acts stand in State is the model's choice (log 9). -/
def Obligations.StepRunsTheDecodedCommand : Prop :=
  ∀ (s : State) (p : Packet) (rest : List Input) (i : Instr), s.inputs = .submit p :: rest → s.status.fault = false →
    decode p = .ok i → step s = exec i { s with inputs := rest }

/-- A control word that no row of the table selects raises `IllegalCommand` with the control word as detail, and changes nothing else
(R51, R52, R116, R122). -/
def Obligations.UnselectedWordRaisesIllegalCommand : Prop :=
  ∀ (s : State) (p : Packet) (rest : List Input), s.inputs = .submit p :: rest → s.status.fault = false →
    (∀ row, row ∈ table → p.cw &&& row.2.2 ≠ row.2.1) →
    ∃ t, step s = .next t ∧ FaultedPrecisely 1#64 (BitVec.ofNat 64 p.cw.toNat) { s with inputs := rest } t

/-- While a fault is pending a submitted packet is discarded undecoded and changes nothing; the registers stay observable; only a reset ends
it, and that makes every context "no object"; no other step changes a register or a context, so that no second fault can occur (R121). -/
def Obligations.FaultStopsTheBlockUntilReset : Prop :=
  ∀ s : State, s.status.fault = true →
    (∀ p rest, s.inputs = .submit p :: rest → step s = .next { s with inputs := rest }) ∧
    (∀ n rest v, s.inputs = .observe n :: rest → registerValue s n = some v →
      step s = .next { s with inputs := rest, observed := some (BitVec.ofNat 64 v) }) ∧
    (∀ rest, s.inputs = .reset :: rest → ∃ t, step s = .next t ∧ AsAfterReset s t) ∧
    ∀ t, step s = .next t →
      (∃ rest, s.inputs = .reset :: rest) ∨ (∃ p k rest, s.inputs = .resetDuring p k :: rest) ∨
      (t.status = s.status ∧ t.cause = s.cause ∧ t.info = s.info ∧ t.res = s.res ∧ KeepsAccs s t ∧ KeepsGens s t)

/-- An observation gives the host the register's value and changes nothing of the block; a number that names no register is refused; with no
act pending the block keeps all state (R17, R23, R24, R29, R132). That the host's acts and the last value observed stand in State is the
model's choice (logs 9 and 10). -/
def Obligations.ObserveReturnsTheRegister : Prop :=
  ∀ s : State,
    (s.inputs = [] → step s = .next s) ∧
    ∀ n rest, s.inputs = .observe n :: rest →
      (∀ v, registerValue s n = some v → step s = .next { s with inputs := rest, observed := some (BitVec.ofNat 64 v) }) ∧
      (registerValue s n = none → step s = .refused (.noSuchRegister n))

/-- What the host writes into memory between commands is what is read afterwards, every other byte stays, and the block is not touched; a
host read changes nothing of the block (R40, R146). The form of the host's acts is the model's choice (log 9). That it holds at every address,
also where `mem_ok` refuses the block and at a device location, which is ordinary to the host, is the model's reading too (log 20). -/
def Obligations.HostMemoryAccess : Prop :=
  ∀ (s : State) (rest : List Input) (a : Word),
    (∀ b, s.inputs = .hostWrite a b :: rest → Memory.wf s.mem = true →
      ∃ t, step s = .next t ∧ t = { s with inputs := rest, mem := t.mem } ∧ Memory.read t.mem a.toNat = b ∧
        ∀ x, x ≠ a.toNat → Memory.read t.mem x = Memory.read s.mem x) ∧
    (s.inputs = .hostRead a :: rest →
      step s = .next { s with inputs := rest, observed := some ((Memory.read s.mem a.toNat).setWidth 64) })

/-! ## Reset -/

/-- Reset makes every context "no object" and clears `RES`, `STATUS`, `CAUSE` and `INFO`; the constants and the memory stay; the state after
power-on is such a state; and no command is a reset, since none clears `FAULT` (R27, R135). -/
def Obligations.ResetEffect : Prop :=
  (∀ (s : State) (rest : List Input), s.inputs = .reset :: rest →
    ∃ t, step s = .next t ∧ AsAfterReset s t ∧ t.mem = s.mem ∧ t.inputs = rest) ∧
  AsAfterReset State.reset State.reset ∧
  ∀ (i : Instr) (s t : State), s.status.fault = true → exec i s = .next t → t.status.fault = true

/-- A reset during a command abandons it: the block is as after reset (R135, R136). With a fault pending, with a packet that decodes to no
command, and with every command but a `GEN.FILL` of a generator the instance has, the memory is as before; an endless `UPD.STR` ends so too
(R143). A `GEN.FILL` leaves the bytes it had written by then, in order; where the platform refuses one of its bytes, none from that byte on.
How many they are is the host's act's to say, and a command that reaches a device location is refused here too (log 11). -/
def Obligations.ResetDuringACommand : Prop :=
  ∀ (s : State) (p : Packet) (k : Nat) (rest : List Input), s.inputs = .resetDuring p k :: rest →
    (s.status.fault = true → ResetWithMemoryKept s rest) ∧
    (s.status.fault = false → (∀ i, decode p ≠ .ok i) → ResetWithMemoryKept s rest) ∧
    ∀ i, s.status.fault = false → decode p = .ok i →
      (∀ r, exec i { s with inputs := rest } = .refused r → step s = .refused r) ∧
      ((∀ r, exec i { s with inputs := rest } ≠ .refused r) →
        ((∀ rt addr count, i = .genFill rt addr count → s.params.ng ≤ rt.toNat) → ResetWithMemoryKept s rest) ∧
        ∀ rt addr count, i = .genFill rt addr count → rt.toNat < s.params.ng → Memory.wf s.mem = true →
          ∃ t, step s = .next t ∧ AsAfterReset s t ∧ t.inputs = rest ∧
            (Accessible s.params addr (4 * count.toNat) .write →
              Wrote s.mem t.mem addr (min k (4 * count.toNat)) (fillByte s.params (s.gen rt))) ∧
            ∀ k0, k0 < 4 * count.toNat → RefusedAt s.params addr k0 .write →
              Wrote s.mem t.mem addr (min k k0) (fillByte s.params (s.gen rt)))

/-! ## Invariants -/

/-- The state after reset meets the invariant of the machine, and every count is 0 (R14, R18, R19, R27). The instance it holds is the model's
choice (logs 1, 2). -/
def Obligations.InvariantAtReset : Prop := State.reset.Inv ∧ State.reset.PositionedAt Counts.zero

/-- Every step keeps the invariant: the instance legal, the memory canonical, `CAUSE` and `INFO` zero while no fault is pending and a cause
code while one is, every context in a place the instance has and of a legal even size (R10, R14, R18, R19, R116). -/
def Obligations.StepKeepsTheInvariant : Prop := ∀ s t : State, s.Inv → step s = .next t → t.Inv

/-- Every step keeps every valid context where its count says: an accumulator at `n` primitive updates stands after the step at `n` plus those
the command made, a generator at `m` seeds at `m` plus those it produced, and at 0 after a restart; a creation starts at 0 and a clone takes
the count over (R14 items 4 and 5, R81). -/
def Obligations.StepKeepsThePositions : Prop :=
  ∀ (s t : State) (c c' : Counts), s.PositionedAt c → step s = .next t → CountsAfterStep s c c' → t.PositionedAt c'

/-- No step changes the constants or the other parameters, a reset neither (R23, R24, R28). That they stand in State is the model's choice
(log 1). -/
def Obligations.StepKeepsTheInstance : Prop := ∀ s t : State, step s = .next t → t.params = s.params

/-! ## Rules about every command -/

/-- The first context field out of range, destination or target before source, raises `BadSlot` with the index as detail, before anything
else (R51 step 3, R117). -/
def Obligations.BadSlotComesFirst : Prop :=
  ∀ (i : Instr) (s : State) (k : Slot), i.firstBadSlot s.params = some k →
    ∃ t, exec i s = .next t ∧ FaultedPrecisely 2#64 (BitVec.ofNat 64 k.toNat) s t

/-- The faults each command can raise in execution; `LengthRange` only under `LENW = 32`, `BusFault` never with the default `mem_ok` (R119). -/
def Obligations.FaultsPerCommand : Prop :=
  ∀ (i : Instr) (s t : State), s.status.fault = false → exec i s = .next t → t.status.fault = true →
    ((t.cause = 2#64 ∧ ¬ i.wf s.params = true) ∨ t.cause.toNat ∈ causesOf i) ∧
    (t.cause = 5#64 → s.params.lenW = .w32) ∧ ((∀ a kind, memOk s.params a kind = true) → t.cause ≠ 6#64)

/-- A command that raises a fault writes `FAULT`, and to `CAUSE` and `INFO` the code and the detail word of its row of the table, whose
condition holds; it keeps `LAST`, `RES` and the host's side (R16, R17, R116, R120). -/
def Obligations.FaultWritesItsRow : Prop :=
  ∀ (i : Instr) (s t : State), s.status.fault = false → exec i s = .next t → t.status.fault = true →
    Faulted t.cause t.info s t ∧ FaultRow i s t.cause t.info

/-- Every fault but `BusFault` is raised before the command has changed anything (R122). -/
def Obligations.FaultsButBusFaultArePrecise : Prop :=
  ∀ (i : Instr) (s t : State), s.status.fault = false → exec i s = .next t → t.status.fault = true → t.cause ≠ 6#64 →
    FaultedPrecisely t.cause t.info s t

/-- No command writes a context it does not name, nor the source of a clone or a finalization (R15, R72, R76, R98); only a `BusFault` can
leave a context of which the spec says nothing, and then it is one the command names. -/
def Obligations.OnlyNamedContextsAreWritten : Prop :=
  ∀ (i : Instr) (s t : State), exec i s = .next t →
    (∀ a, (Bank.acc, a) ∉ i.slots → t.acc a = s.acc a) ∧ (∀ g, (Bank.gen, g) ∉ i.slots → t.gen g = s.gen g) ∧
    (∀ a, sourceOf i = some (.acc, a) → t.acc a = s.acc a) ∧ (∀ g, sourceOf i = some (.gen, g) → t.gen g = s.gen g)

/-- No command but `GEN.FILL` writes memory, and `GEN.FILL` writes no byte outside its range (R30). -/
def Obligations.OnlyFillWritesMemory : Prop :=
  ∀ (i : Instr) (s t : State), exec i s = .next t →
    (∀ x, Memory.read t.mem x = Memory.read s.mem x) ∨
    ∃ rt addr count, i = .genFill rt addr count ∧ ∀ x, ¬ InRange addr (4 * count.toNat) x → Memory.read t.mem x = Memory.read s.mem x

/-- Only the six value-returning commands write `RES`, and on "no object" they write 0 with `LAST = NOOBJ` (R16). -/
def Obligations.ResIsWrittenByValueCommandsOnly : Prop :=
  (∀ (i : Instr) (s t : State), valueFrom i = none → exec i s = .next t → t.res = s.res) ∧
  ∀ (i : Instr) (s : State) (c : Bank × Slot), valueFrom i = some c → s.params.hasSlot c = true → NoObjectAt s c →
    ∃ t, exec i s = .next t ∧ Completed .noObj s t ∧ KeepsAllButRes s t ∧ t.res = 0#64

/-- A command's effect is a function of its operands, the instance, the memory and the contexts it names: from two states that agree on
those it stops alike or leaves the same contexts and memory and writes the registers alike, whatever the other contexts, `RES`, `STATUS`, `CAUSE`
and `INFO` hold (R15, R22, R112). The states must also agree on how many free values were used, a field of the model's own (log 8). -/
def Obligations.EffectDependsOnNamedContextsOnly : Prop :=
  ∀ (i : Instr) (s s' : State), Agree i s s' →
    (∀ t, exec i s = .next t → ∃ t', exec i s' = .next t' ∧ Agree i t t' ∧ RegistersAlike s s' t t') ∧
    (∀ f, exec i s = .fault f → exec i s' = .fault f) ∧ (∀ r, exec i s = .refused r → exec i s' = .refused r)

/-- Where no location is a device, every command ends in a next state, but for `UPD.STR` under `LENW = 64` on an address space with no zero
byte, which never completes (R89, R143). That the model stops there with a fault of its own is log 13. -/
def Obligations.EveryCommandEnds : Prop :=
  ∀ (i : Instr) (s : State), (∀ a, isDevice s.params a = false) →
    (∃ t, exec i s = .next t) ∨
    (exec i s = .fault .neverCompletes ∧
      ∃ rt addr, i = .updStr rt addr ∧ s.params.lenW = .w64 ∧ NoZeroFor s.params s.mem addr (2 ^ 64))

/-! ## The units -/

/-- The value drawn is the state after the addition; the `k`-th draw is `START + k * INC` modulo 2^64; with an odd increment two draws are
equal exactly when their numbers are equal modulo 2^64 (R60, R61). -/
def Obligations.WeylSequence : Prop :=
  ∀ start inc : Word,
    (∀ c : Word, weylNext c inc = (c + inc, c + inc)) ∧
    (∀ k : Nat, ((fun c => (weylNext c inc).1)^[k] start).toNat = (start.toNat + k * inc.toNat) % 2 ^ 64) ∧
    (inc.toNat % 2 = 1 → ∀ j k : Nat,
      (fun c => (weylNext c inc).1)^[j] start = (fun c => (weylNext c inc).1)^[k] start ↔ j % 2 ^ 64 = k % 2 ^ 64)

/-- The multiply-accumulate step is `lane + c * value` modulo 2^64 on unsigned numbers (R62). -/
def Obligations.MacStepModulo : Prop :=
  ∀ (lane c : Word) (value : Half), (macStep lane c value).toNat = (lane.toNat + c.toNat * value.toNat) % 2 ^ 64

/-- The polynomial evaluator in closed form: `1 + K` draws, and `v` the first draw plus each key times its draw (R63). -/
def Obligations.PolyEvalClosedForm : Prop :=
  ∀ (p : Params) (s : Word) (keys : List Half),
    (polyEval p s keys).1.toNat = (s.toNat + (keys.length + 1) * p.incOut.toNat) % 2 ^ 64 ∧
    (polyEval p s keys).2.toNat =
      (s.toNat + p.incOut.toNat +
        Finset.sum (Finset.range keys.length) fun j => (s.toNat + (j + 2) * p.incOut.toNat) * (keys.getD j 0#32).toNat) % 2 ^ 64

/-- The avalanche network with its shifts 33, 28 and 32, on unsigned numbers (R64). -/
def Obligations.FinalmixFormula : Prop :=
  ∀ (p : Params) (u : Word),
    (finalmix p u).toNat =
      let a := u.toNat ^^^ (u.toNat / 2 ^ 33)
      let b := a * p.mixM1.toNat % 2 ^ 64
      let c := b ^^^ (b / 2 ^ 28)
      c * p.mixM2.toNat % 2 ^ 64 / 2 ^ 32

/-- With odd multipliers the avalanche network before its truncation is a bijection on 64 bits (R65). -/
def Obligations.MixIsBijective : Prop :=
  ∀ p : Params, oddWord p.mixM1 = true → oddWord p.mixM2 = true → Function.Bijective (mix64 p)

/-- With odd multipliers every 32-bit result of the avalanche network has exactly 2^32 preimages (R65). -/
def Obligations.FinalmixPreimages : Prop :=
  ∀ (p : Params) (r : Half), oddWord p.mixM1 = true → oddWord p.mixM2 = true → Nat.card { u : Word // finalmix p u = r } = 2 ^ 32

/-- The block reads a buffer as `ceil(len / 4)` little-endian words, the last padded with zeros in its high bytes (R31). -/
def Obligations.BufferIsReadLittleEndian : Prop :=
  ∀ (p : Params) (m : Memory) (addr : Word) (len : Nat), Accessible p addr len .read →
    ∃ bs, readBytes p m addr len = .ok bs ∧ leWords bs = bufferWords m addr len

/-- Words stored little-endian are read back as the same words, at any address and across the wrap (R30, R32, R34, R35). -/
def Obligations.StoredWordsReadBack : Prop :=
  ∀ (p : Params) (m : Memory) (addr : Word) (ws : List Half), Memory.wf m = true → 4 * ws.length ≤ 2 ^ 64 →
    Accessible p addr (4 * ws.length) .write →
    ∃ m', storeBytes p m (writesAt addr ws) = (m', none) ∧ Memory.wf m' = true ∧ bufferWords m' addr (4 * ws.length) = ws ∧
      ∀ x, ¬ InRange addr (4 * ws.length) x → Memory.read m' x = Memory.read m x

/-- The digest in closed form: after a creation with `L` lanes and the primitive updates `xs`, lane `i` is
`START_IN + (i+1)*INC_IN + sum over t of (START_IN + (t*L+i+1)*INC_IN) * x_t` modulo 2^64 (R69, R71). -/
def Obligations.DigestClosedForm : Prop :=
  ∀ (p : Params) (n i : Nat) (xs : List Half), i < n →
    (foldWords p xs (freshAcc p n)).lanes[i]? = some (BitVec.ofNat 64
      (p.startIn.toNat + (i + 1) * p.incIn.toNat +
        Finset.sum (Finset.range xs.length) fun t =>
          (p.startIn.toNat + ((t + 1) * n + i + 1) * p.incIn.toNat) * (xs.getD t 0#32).toNat))

/-! ## System and accumulator commands -/

/-- `NOP` writes `LAST = OK` and nothing else (R113). -/
def Obligations.NopCompletes : Prop := ∀ s : State, ∃ t, exec .nop s = .next t ∧ Completed .ok s t ∧ KeepsAll s t

/-- `ACC.CREATE`: size zero gives "no object" and `ZSIZE`; a size that fits gives `L` lanes holding the first `L` draws (R70, R71). -/
def Obligations.AccCreateCompletes : Prop :=
  ∀ (rt : Slot) (bits : Word) (s : State), rt.toNat < s.params.na →
    (bits = 0#64 →
      ∃ t, exec (.accCreate rt bits) s = .next t ∧ Completed .zSize s t ∧ KeepsAllButAcc rt s t ∧ t.acc rt = none) ∧
    (bits ≠ 0#64 → 2 * ((bits.toNat + 63) / 64) ≤ s.params.lmax →
      ∃ t a, exec (.accCreate rt bits) s = .next t ∧ Completed .ok s t ∧ KeepsAllButAcc rt s t ∧ t.acc rt = some a ∧
        a.lanes.length = 2 * ((bits.toNat + 63) / 64) ∧
        a.coef = s.params.startIn + BitVec.ofNat 64 (2 * ((bits.toNat + 63) / 64)) * s.params.incIn ∧
        ∀ i, i < 2 * ((bits.toNat + 63) / 64) →
          a.lanes[i]? = some (s.params.startIn + BitVec.ofNat 64 (i + 1) * s.params.incIn))

/-- A creation that needs more than `LMAX` lanes or keys raises `Capacity` with the number wanted modulo 2^64, before any change (R70, R97,
R118). -/
def Obligations.CreateOverCapacityFaults : Prop :=
  ∀ (rt : Slot) (s : State),
    (∀ bits : Word, rt.toNat < s.params.na → bits ≠ 0#64 → s.params.lmax < 2 * ((bits.toNat + 63) / 64) →
      ∃ t, exec (.accCreate rt bits) s = .next t ∧ FaultedPrecisely 3#64 (BitVec.ofNat 64 (2 * ((bits.toNat + 63) / 64))) s t) ∧
    (∀ addr size : Word, rt.toNat < s.params.ng → size ≠ 0#64 → s.params.lmax < size.toNat + size.toNat % 2 →
      ∃ t, exec (.genCreate rt addr size) s = .next t ∧ FaultedPrecisely 3#64 (BitVec.ofNat 64 (size.toNat + size.toNat % 2)) s t)

/-- `ACC.CLONE` and `GEN.CLONE` make the destination equal to the source, position included, "no object" too, and write nothing else (R72,
R98). -/
def Obligations.ClonesCopyTheSource : Prop :=
  ∀ (rd rs : Slot) (s : State),
    (rd.toNat < s.params.na → rs.toNat < s.params.na →
      ∃ t, exec (.accClone rd rs) s = .next t ∧ Completed (if s.acc rs = none then .noObj else .ok) s t ∧
        t.acc rd = s.acc rs ∧ KeepsAllButAcc rd s t) ∧
    (rd.toNat < s.params.ng → rs.toNat < s.params.ng →
      ∃ t, exec (.genClone rd rs) s = .next t ∧ Completed (if s.gen rs = none then .noObj else .ok) s t ∧
        t.gen rd = s.gen rs ∧ KeepsAllButGen rd s t)

/-- `ACC.FREE` and `GEN.FREE` make the context "no object"; on "no object" they are safe no-ops (R73, R99). -/
def Obligations.FreesLeaveNoObject : Prop :=
  ∀ (rt : Slot) (s : State),
    (rt.toNat < s.params.na →
      ∃ t, exec (.accFree rt) s = .next t ∧ Completed (if s.acc rt = none then .noObj else .ok) s t ∧
        t.acc rt = none ∧ KeepsAllButAcc rt s t) ∧
    (rt.toNat < s.params.ng →
      ∃ t, exec (.genFree rt) s = .next t ∧ Completed (if s.gen rt = none then .noObj else .ok) s t ∧
        t.gen rt = none ∧ KeepsAllButGen rt s t)

/-- `ACC.LEN` and `GEN.LEN` write the number of lanes or keys to `RES` (R74, R100). -/
def Obligations.LengthsAreRead : Prop :=
  ∀ (rt : Slot) (s : State),
    (∀ a, rt.toNat < s.params.na → s.acc rt = some a →
      ∃ t, exec (.accLen rt) s = .next t ∧ Completed .ok s t ∧ KeepsAllButRes s t ∧ t.res = BitVec.ofNat 64 a.lanes.length) ∧
    (∀ g, rt.toNat < s.params.ng → s.gen rt = some g →
      ∃ t, exec (.genLen rt) s = .next t ∧ Completed .ok s t ∧ KeepsAllButRes s t ∧ t.res = BitVec.ofNat 64 g.keys.length)

/-- `ACC.LANE` and `GEN.KEY` write the lane, or the key widened with zeros, to `RES`; an index not below `len` raises `IndexRange` with the
index as detail (R75, R101). -/
def Obligations.LanesAndKeysAreRead : Prop :=
  ∀ (rt : Slot) (i : Word) (s : State),
    (∀ a, rt.toNat < s.params.na → s.acc rt = some a →
      (∀ l, a.lanes[i.toNat]? = some l →
        ∃ t, exec (.accLane rt i) s = .next t ∧ Completed .ok s t ∧ KeepsAllButRes s t ∧ t.res = l) ∧
      (a.lanes.length ≤ i.toNat → ∃ t, exec (.accLane rt i) s = .next t ∧ FaultedPrecisely 4#64 i s t)) ∧
    (∀ g, rt.toNat < s.params.ng → s.gen rt = some g →
      (∀ k, g.keys[i.toNat]? = some k →
        ∃ t, exec (.genKey rt i) s = .next t ∧ Completed .ok s t ∧ KeepsAllButRes s t ∧ t.res = BitVec.ofNat 64 k.toNat) ∧
      (g.keys.length ≤ i.toNat → ∃ t, exec (.genKey rt i) s = .next t ∧ FaultedPrecisely 4#64 i s t))

/-! ## Update commands -/

/-- `UPD.U32` and `UPD.F32` fold the 32-bit value or pattern into every lane with the next `L` draws (R62, R80, R83). -/
def Obligations.ThirtyTwoBitUpdatesFold : Prop :=
  ∀ (rt : Slot) (v : Half) (s : State) (a : Acc), rt.toNat < s.params.na → s.acc rt = some a →
    ∀ i : Instr, i = .updU32 rt v ∨ i = .updF32 rt v →
      ∃ t b, exec i s = .next t ∧ Completed .ok s t ∧ KeepsAllButAcc rt s t ∧ t.acc rt = some b ∧ Folded s.params v a b

/-- `UPD.U64`, `UPD.F64` and `UPD.PTR` are two primitive updates, low 32 bits first, then high 32 bits (R82, R84, R85). -/
def Obligations.SixtyFourBitUpdatesFold : Prop :=
  ∀ (rt : Slot) (v : Word) (s : State) (a : Acc), rt.toNat < s.params.na → s.acc rt = some a →
    ∀ i : Instr, i = .updU64 rt v ∨ i = .updF64 rt v ∨ i = .updPtr rt v →
      ∃ t b, exec i s = .next t ∧ Completed .ok s t ∧ KeepsAllButAcc rt s t ∧ t.acc rt = some b ∧
        FoldedAll s.params (halves v) a b

/-- On "no object" every `UPD.*` command is a complete no-op with `LAST = NOOBJ`, whatever its operands and the memory (R91). -/
def Obligations.UpdatesOnNoObjectDoNothing : Prop :=
  ∀ (i : Instr) (rt : Slot) (s : State), updateOf i = some rt → rt.toNat < s.params.na → s.acc rt = none →
    ∃ t, exec i s = .next t ∧ Completed .noObj s t ∧ KeepsAll s t

/-- `UPD.OBJ` folds the words of the object, without a length (R31, R90). -/
def Obligations.UpdObjFolds : Prop :=
  ∀ (rt : Slot) (addr len : Word) (s : State) (a : Acc), rt.toNat < s.params.na → s.acc rt = some a →
    Accessible s.params addr len.toNat .read →
    ∃ t b, exec (.updObj rt addr len) s = .next t ∧ Completed .ok s t ∧ KeepsAllButAcc rt s t ∧ t.acc rt = some b ∧
      FoldedAll s.params (bufferWords s.mem addr len.toNat) a b

/-- `UPD.BUF` folds the length at width `LENW`, then the words of the buffer (R31, R86, R87). -/
def Obligations.UpdBufFolds : Prop :=
  ∀ (rt : Slot) (addr len : Word) (s : State) (a : Acc), rt.toNat < s.params.na → s.acc rt = some a →
    (s.params.lenW = .w32 → len.toNat < 2 ^ 32) → Accessible s.params addr len.toNat .read →
    ∃ t b, exec (.updBuf rt addr len) s = .next t ∧ Completed .ok s t ∧ KeepsAllButAcc rt s t ∧ t.acc rt = some b ∧
      FoldedAll s.params (lengthValues s.params len ++ bufferWords s.mem addr len.toNat) a b

/-- Under `LENW = 32` a buffer of 2^32 bytes or more raises `LengthRange` with the length as detail, before any change (R86, R87). -/
def Obligations.LongBufferFaults : Prop :=
  ∀ (rt : Slot) (addr len : Word) (s : State) (a : Acc), rt.toNat < s.params.na → s.acc rt = some a → s.params.lenW = .w32 →
    2 ^ 32 ≤ len.toNat → ∃ t, exec (.updBuf rt addr len) s = .next t ∧ FaultedPrecisely 5#64 len s t

/-- `UPD.STR` folds the text as a buffer of its length, the terminator excluded (R88). -/
def Obligations.UpdStrFolds : Prop :=
  ∀ (rt : Slot) (addr : Word) (n : Nat) (s : State) (a : Acc), rt.toNat < s.params.na → s.acc rt = some a →
    TextAt s.params s.mem addr n →
    ∃ t b, exec (.updStr rt addr) s = .next t ∧ Completed .ok s t ∧ KeepsAllButAcc rt s t ∧ t.acc rt = some b ∧
      FoldedAll s.params (lengthValues s.params (BitVec.ofNat 64 n) ++ bufferWords s.mem addr n) a b

/-- The typed updates equal, in their effect on the contexts and the memory, the sequences of simpler commands R54 gives: `UPD.U64` two
`UPD.U32`; `UPD.F32`, `UPD.F64` and `UPD.PTR` the integer forms; `UPD.BUF` the length and then `UPD.OBJ`; `UPD.OBJ` one `UPD.U32` per word;
`UPD.STR` the `UPD.BUF` of the text's length. `LAST` is the same where the sequence is not empty (R54, R82 to R90). -/
def Obligations.TypedUpdatesEqualTheirSequences : Prop :=
  ∀ (rt : Slot) (s : State), rt.toNat < s.params.na →
    (∀ v, ∃ t u, exec (.updU64 rt v) s = .next t ∧
      runAll [.updU32 rt (BitVec.ofNat 32 v.toNat), .updU32 rt (BitVec.ofNat 32 (v.toNat / 2 ^ 32))] s = some u ∧
      SameObjects t u ∧ u.status = t.status) ∧
    (∀ v, exec (.updF32 rt v) s = exec (.updU32 rt v) s) ∧ (∀ v, exec (.updF64 rt v) s = exec (.updU64 rt v) s) ∧
    (∀ v, exec (.updPtr rt v) s = exec (.updU64 rt v) s) ∧
    (∀ addr len : Word, Accessible s.params addr len.toNat .read →
      ((s.params.lenW = .w32 → len.toNat < 2 ^ 32) →
        ∃ t u, exec (.updBuf rt addr len) s = .next t ∧
          runAll [lengthUpdates s.params rt len, .updObj rt addr len] s = some u ∧ SameObjects t u ∧ u.status = t.status) ∧
      ∃ t u, exec (.updObj rt addr len) s = .next t ∧
        runAll ((bufferWords s.mem addr len.toNat).map (Instr.updU32 rt)) s = some u ∧ SameObjects t u ∧
        (len ≠ 0#64 → u.status = t.status)) ∧
    ∀ (addr : Word) (n : Nat), TextAt s.params s.mem addr n → exec (.updStr rt addr) s = exec (.updBuf rt addr (BitVec.ofNat 64 n)) s

/-- A text with no terminator: under `LENW = 32`, 2^32 non-zero bytes raise `LengthRange(2^32)` before any change; under `LENW = 64`, 2^64
non-zero bytes make a command that never completes (R89, V7). That the model stops there with a fault of its own is log 13. -/
def Obligations.UnterminatedText : Prop :=
  ∀ (rt : Slot) (addr : Word) (s : State) (a : Acc), rt.toNat < s.params.na → s.acc rt = some a →
    (s.params.lenW = .w32 → NoZeroFor s.params s.mem addr (2 ^ 32) →
      ∃ t, exec (.updStr rt addr) s = .next t ∧ FaultedPrecisely 5#64 (BitVec.ofNat 64 (2 ^ 32)) s t) ∧
    (s.params.lenW = .w64 → NoZeroFor s.params s.mem addr (2 ^ 64) → exec (.updStr rt addr) s = .fault .neverCompletes)

/-- A byte the platform refuses to read raises `BusFault` at that byte in `UPD.OBJ`, `UPD.BUF`, `UPD.STR` and `GEN.CREATE`; the memory and
every context the command does not name stay (R38, R116, R122; `mem_ok` as regions, log 3). -/
def Obligations.RefusedReadRaisesBusFault : Prop :=
  ∀ (rt : Slot) (addr : Word) (k : Nat) (s : State), RefusedAt s.params addr k .read →
    (∀ a, rt.toNat < s.params.na → s.acc rt = some a →
      (∀ len : Word, k < len.toNat →
        ∃ t, exec (.updObj rt addr len) s = .next t ∧ Faulted 6#64 (addr + BitVec.ofNat 64 k) s t ∧ KeepsAllButAcc rt s t) ∧
      (∀ len : Word, k < len.toNat → (s.params.lenW = .w32 → len.toNat < 2 ^ 32) →
        ∃ t, exec (.updBuf rt addr len) s = .next t ∧ Faulted 6#64 (addr + BitVec.ofNat 64 k) s t ∧ KeepsAllButAcc rt s t) ∧
      (NoZeroFor s.params s.mem addr k → (s.params.lenW = .w32 → k < 2 ^ 32) →
        ∃ t, exec (.updStr rt addr) s = .next t ∧ Faulted 6#64 (addr + BitVec.ofNat 64 k) s t ∧ KeepsAllButAcc rt s t)) ∧
    (∀ size : Word, rt.toNat < s.params.ng → k < 4 * size.toNat → size.toNat + size.toNat % 2 ≤ s.params.lmax →
      ∃ t, exec (.genCreate rt addr size) s = .next t ∧ Faulted 6#64 (addr + BitVec.ofNat 64 k) s t ∧ KeepsAllButGen rt s t)

/-- A memory command that reaches a location whose reads have side effects has no meaning and is refused (R36, V5), at the first such byte
(log 12). -/
def Obligations.DeviceMemoryIsRefused : Prop :=
  ∀ (rt : Slot) (addr : Word) (k : Nat) (s : State),
    (DeviceAt s.params addr k .read →
      (∀ a, rt.toNat < s.params.na → s.acc rt = some a →
        (∀ len : Word, k < len.toNat → exec (.updObj rt addr len) s = .refused (.deviceMemory (addr + BitVec.ofNat 64 k))) ∧
        (∀ len : Word, k < len.toNat → (s.params.lenW = .w32 → len.toNat < 2 ^ 32) →
          exec (.updBuf rt addr len) s = .refused (.deviceMemory (addr + BitVec.ofNat 64 k))) ∧
        (NoZeroFor s.params s.mem addr k → (s.params.lenW = .w32 → k < 2 ^ 32) →
          exec (.updStr rt addr) s = .refused (.deviceMemory (addr + BitVec.ofNat 64 k)))) ∧
      (∀ size : Word, rt.toNat < s.params.ng → k < 4 * size.toNat → size.toNat + size.toNat % 2 ≤ s.params.lmax →
        exec (.genCreate rt addr size) s = .refused (.deviceMemory (addr + BitVec.ofNat 64 k)))) ∧
    (DeviceAt s.params addr k .write → ∀ count : Word, rt.toNat < s.params.ng → k < 4 * count.toNat →
      exec (.genFill rt addr count) s = .refused (.deviceMemory (addr + BitVec.ofNat 64 k)))

/-- Zero-length operands touch no memory, not even through `mem_ok`; `UPD.STR` always reads the byte at its address (R37). -/
def Obligations.ZeroLengthTouchesNoMemory : Prop :=
  ∀ (rt : Slot) (addr : Word) (s : State),
    (∀ a, rt.toNat < s.params.na → s.acc rt = some a →
      (∃ t, exec (.updObj rt addr 0#64) s = .next t ∧ Completed .ok s t ∧ KeepsAll s t) ∧
      (∃ t, exec (.updBuf rt addr 0#64) s = .next t ∧ Completed .ok s t ∧ KeepsAllButAcc rt s t) ∧
      (memOk s.params addr .read = false →
        ∃ t, exec (.updStr rt addr) s = .next t ∧ Faulted 6#64 addr s t)) ∧
    (rt.toNat < s.params.ng →
      (∃ t, exec (.genCreate rt addr 0#64) s = .next t ∧ Completed .zSize s t ∧ KeepsAllButGen rt s t ∧ t.gen rt = none) ∧
      (∃ t, exec (.genFill rt addr 0#64) s = .next t ∧ Completed (if s.gen rt = none then .noObj else .ok) s t ∧ KeepsAll s t))

/-! ## Generator commands -/

/-- `GEN.FROMACC`: each key is the avalanche of the lane plus the next draw from `START_OUT`, the new `coef` is `START_OUT`, and the source
is not changed; "no object" gives "no object" (R76, R95, R96). That the position starts at `START_OUT` is the spec's inference (log 16). -/
def Obligations.FromAccFinalizes : Prop :=
  ∀ (rd rs : Slot) (s : State), rd.toNat < s.params.ng → rs.toNat < s.params.na →
    (s.acc rs = none →
      ∃ t, exec (.genFromAcc rd rs) s = .next t ∧ Completed .noObj s t ∧ KeepsAllButGen rd s t ∧ t.gen rd = none) ∧
    (∀ a, s.acc rs = some a →
      ∃ t g, exec (.genFromAcc rd rs) s = .next t ∧ Completed .ok s t ∧ KeepsAllButGen rd s t ∧ t.gen rd = some g ∧
        g.coef = s.params.startOut ∧ g.keys.length = a.lanes.length ∧
        ∀ i l, a.lanes[i]? = some l →
          g.keys[i]? = some (finalmix s.params (l + (s.params.startOut + BitVec.ofNat 64 (i + 1) * s.params.incOut))))

/-- `GEN.CREATE`: the words in memory, little-endian and in order, are the keys, with a zero last key when their number is odd; `coef` is
`START_OUT` (R32, R97). -/
def Obligations.GenCreateReadsTheKeys : Prop :=
  ∀ (rt : Slot) (addr size : Word) (s : State), rt.toNat < s.params.ng → size ≠ 0#64 →
    size.toNat + size.toNat % 2 ≤ s.params.lmax → Accessible s.params addr (4 * size.toNat) .read →
    ∃ t, exec (.genCreate rt addr size) s = .next t ∧ Completed .ok s t ∧ KeepsAllButGen rt s t ∧
      t.gen rt = some ⟨s.params.startOut,
        bufferWords s.mem addr (4 * size.toNat) ++ (if size.toNat % 2 = 1 then [0#32] else [])⟩

/-- `GEN.NEXT`: `RES` is the avalanche of the polynomial, `coef` advances by `1 + K` draws, the keys stay (R63, R64, R105). -/
def Obligations.GenNextProducesTheSeed : Prop :=
  ∀ (rt : Slot) (s : State) (g : Gen), rt.toNat < s.params.ng → s.gen rt = some g →
    ∃ t, exec (.genNext rt) s = .next t ∧ Completed .ok s t ∧ KeepsAccs s t ∧ KeepsGensBut rt s t ∧ KeepsMem s t ∧
      t.gen rt = some ⟨g.coef + BitVec.ofNat 64 (1 + g.keys.length) * s.params.incOut, g.keys⟩ ∧
      t.res = BitVec.ofNat 64 (finalmix s.params (polyEval s.params g.coef g.keys).2).toNat

/-- `GEN.FILL` stores the next `count` seeds, or `count` zeros on "no object", little-endian from the address on, and no other byte; `coef`
advances by all of them (R32, R106, R107, R142). The zeros are the reading R107 takes (log 19). -/
def Obligations.GenFillStoresTheSeeds : Prop :=
  ∀ (rt : Slot) (addr count : Word) (s : State), rt.toNat < s.params.ng → Accessible s.params addr (4 * count.toNat) .write →
    Memory.wf s.mem = true →
    ∃ t, exec (.genFill rt addr count) s = .next t ∧ Completed (if s.gen rt = none then .noObj else .ok) s t ∧
      KeepsAccs s t ∧ KeepsGensBut rt s t ∧ t.res = s.res ∧
      t.gen rt = (s.gen rt).map (fun g => genAfter s.params g count.toNat) ∧
      Wrote s.mem t.mem addr (4 * count.toNat) (fillByte s.params (s.gen rt))

/-- A byte the platform refuses to write raises `BusFault` at that byte in `GEN.FILL`: the bytes before it stay stored, nothing after it is,
and every context the command does not name stays (R34, R106, R122). -/
def Obligations.RefusedWriteRaisesBusFault : Prop :=
  ∀ (rt : Slot) (addr count : Word) (k : Nat) (s : State), rt.toNat < s.params.ng → k < 4 * count.toNat →
    RefusedAt s.params addr k .write → Memory.wf s.mem = true →
    ∃ t, exec (.genFill rt addr count) s = .next t ∧ Faulted 6#64 (addr + BitVec.ofNat 64 k) s t ∧
      KeepsAccs s t ∧ KeepsGensBut rt s t ∧ Wrote s.mem t.mem addr k (fillByte s.params (s.gen rt))

/-- `GEN.RESTART` returns `coef` and resets it to `START_OUT`; the keys stay (R108). -/
def Obligations.GenRestartRewinds : Prop :=
  ∀ (rt : Slot) (s : State) (g : Gen), rt.toNat < s.params.ng → s.gen rt = some g →
    ∃ t, exec (.genRestart rt) s = .next t ∧ Completed .ok s t ∧ KeepsAccs s t ∧ KeepsGensBut rt s t ∧ KeepsMem s t ∧
      t.gen rt = some ⟨s.params.startOut, g.keys⟩ ∧ t.res = g.coef

/-- The restart laws. A restart of a generator that stands at its start returns `START_OUT` and changes nothing else; two restarts in a row
return the position and then `START_OUT`, and leave the same; after a restart the next `n` seeds equal the first `n` seeds the generator
produced after it was made, however many it had produced (R109). -/
def Obligations.RestartLaws : Prop :=
  ∀ (rt : Slot) (s : State) (g : Gen), rt.toNat < s.params.ng → s.gen rt = some g →
    (∃ t u, exec (.genRestart rt) s = .next t ∧ exec (.genRestart rt) t = .next u ∧ t.res = g.coef ∧ u.res = s.params.startOut ∧
      SameObjects t u ∧ u.status = t.status) ∧
    (g.coef = s.params.startOut →
      (∃ t, exec (.genRestart rt) s = .next t ∧ t.res = s.params.startOut ∧ SameObjects s t) ∧
      ∀ m n : Nat, ∃ xs first seen s1 s2 again, nexts n rt s = some (xs, first) ∧ nexts m rt s = some (seen, s1) ∧
        exec (.genRestart rt) s1 = .next s2 ∧ nexts n rt s2 = some (xs, again))

/-- With an even number of keys and an odd increment, `coef` is back where it was exactly after a multiple of 2^64 seeds (R111). -/
def Obligations.StreamPeriod : Prop :=
  ∀ (p : Params) (g : Gen) (m : Nat), oddWord p.incOut = true → g.keys.length % 2 = 0 →
    ((genAfter p g m).coef = g.coef ↔ m % 2 ^ 64 = 0)
end

