-- ==== Sys2Proof/Laws/Encoding.lean ====
section
/-! SUPPORT. The fields of a control word and of a packet read back what was put there. -/

namespace Sys2Proof

theorem controlWord_toNat (op : BitVec 8) (rt rs : Slot) :
    (controlWord op rt rs).toNat = op.toNat + 2 ^ 8 * rt.toNat + 2 ^ 12 * rs.toNat := by
  have h1 := op.isLt
  have h2 := rt.isLt
  have h3 := rs.isLt
  simp only [controlWord, BitVec.toNat_append, BitVec.toNat_ofNat, Nat.zero_mod, Nat.zero_shiftLeft, Nat.zero_or]
  rw [← Nat.shiftLeft_add_eq_or_of_lt (by omega), ← Nat.shiftLeft_add_eq_or_of_lt (by omega)]
  simp only [Nat.shiftLeft_eq]
  omega

theorem controlWord_field (op : BitVec 8) (rt rs : Slot) (lo n : Nat) :
    ((controlWord op rt rs).extractLsb' lo n).toNat = (op.toNat + 2 ^ 8 * rt.toNat + 2 ^ 12 * rs.toNat) / 2 ^ lo % 2 ^ n := by
  rw [BitVec.extractLsb'_toNat, controlWord_toNat, Nat.shiftRight_eq_div_pow]

@[simp] theorem controlWord_op (op : BitVec 8) (rt rs : Slot) (p0 p1 : Word) : Packet.op ⟨controlWord op rt rs, p0, p1⟩ = op := by
  apply BitVec.eq_of_toNat_eq
  have h1 := op.isLt
  rw [Packet.op, controlWord_field]
  omega

@[simp] theorem controlWord_rt (op : BitVec 8) (rt rs : Slot) (p0 p1 : Word) : Packet.rt ⟨controlWord op rt rs, p0, p1⟩ = rt := by
  apply BitVec.eq_of_toNat_eq
  have h1 := op.isLt
  have h2 := rt.isLt
  rw [Packet.rt, controlWord_field]
  omega

@[simp] theorem controlWord_rs (op : BitVec 8) (rt rs : Slot) (p0 p1 : Word) : Packet.rs ⟨controlWord op rt rs, p0, p1⟩ = rs := by
  apply BitVec.eq_of_toNat_eq
  have h1 := op.isLt
  have h2 := rt.isLt
  have h3 := rs.isLt
  rw [Packet.rs, controlWord_field]
  omega

@[simp] theorem controlWord_reserved (op : BitVec 8) (rt rs : Slot) : (controlWord op rt rs).extractLsb' 16 16 = 0#16 := by
  apply BitVec.eq_of_toNat_eq
  have h1 := op.isLt
  have h2 := rt.isLt
  have h3 := rs.isLt
  rw [controlWord_field]
  simp
  omega

/-- The low half of a widened 32-bit operand is the operand (R49). -/
@[simp] theorem p0low_setWidth (cw : Half) (v : Half) (p1 : Word) : Packet.p0low ⟨cw, v.setWidth 64, p1⟩ = v := by
  apply BitVec.eq_of_toNat_eq
  have h := v.isLt
  simp only [Packet.p0low, BitVec.extractLsb'_toNat, BitVec.toNat_setWidth]
  omega

/-- A packet is its 160 bits (R45). -/
theorem Packet.ofBits_bits (p : Packet) : Packet.ofBits p.bits = p := by
  obtain ⟨cw, p0, p1⟩ := p
  have h1 := cw.isLt
  have h2 := p0.isLt
  have h3 := p1.isLt
  have hb : (Packet.bits ⟨cw, p0, p1⟩).toNat = cw.toNat + 2 ^ 32 * p0.toNat + 2 ^ 96 * p1.toNat := by
    simp only [Packet.bits, BitVec.toNat_append]
    rw [← Nat.shiftLeft_add_eq_or_of_lt (by omega), ← Nat.shiftLeft_add_eq_or_of_lt (by omega)]
    simp only [Nat.shiftLeft_eq]
    omega
  simp only [Packet.ofBits, Packet.mk.injEq]
  refine ⟨?_, ?_, ?_⟩ <;> apply BitVec.eq_of_toNat_eq <;>
    rw [BitVec.extractLsb'_toNat, hb, Nat.shiftRight_eq_div_pow] <;> omega

/-! ## Decoding, as what the control word is -/

theorem and_eq_iff_bits (x m y : BitVec 32) : x &&& m = y ↔ ∀ i, i < 32 → (x.getLsbD i && m.getLsbD i) = y.getLsbD i := by
  constructor
  · rintro rfl i _; simp
  · intro h; apply BitVec.eq_of_getLsbD_eq; intro i hi; simpa using h i hi

theorem eq_iff_bits {n : Nat} (x y : BitVec n) : x = y ↔ ∀ i, i < n → x.getLsbD i = y.getLsbD i :=
  ⟨by rintro rfl; simp, fun h => BitVec.eq_of_getLsbD_eq h⟩

/-- The bits the decoder checks are right exactly when the control word is the one its fields make (R48). -/
theorem mask_iff_controlWord (p : Packet) (f : Format) : p.cw &&& f.mask = p.op.setWidth 32 ↔
      p.cw = controlWord p.op (if f = .n then 0#4 else p.rt) (if f = .ds then p.rs else 0#4) := by
  rw [and_eq_iff_bits, eq_iff_bits]
  simp only [Nat.forall_lt_succ_right]
  have cw : ∀ r s : Slot, ∀ i, (controlWord p.op r s).getLsbD i =
      if i < 8 then p.op.getLsbD i else if i < 12 then r.getLsbD (i - 8) else if i < 16 then s.getLsbD (i-12) else false := by
    intro r s i
    simp only [controlWord, BitVec.getLsbD_append]
    split
    · rfl
    · by_cases h : i < 12
      · rw [if_pos h]; simp [show i - 8 < 4 by omega]
      · rw [if_neg h]
        by_cases h2 : i < 16
        · simp [h2, show ¬ i - 8 < 4 by omega, show i - 12 < 4 by omega, show i - 8 - 4 = i - 12 by omega]
        · simp [h2, show ¬ i - 8 < 4 by omega, show ¬ i - 8 - 4 < 4 by omega]
  simp only [cw]
  cases f <;> simp [Format.mask, Packet.op, Packet.rt, Packet.rs, BitVec.getLsbD_extractLsb', BitVec.getLsbD_setWidth, -BitVec.getLsbD_eq_getElem]

/-- All that the decoder can answer when it answers a command: the opcode's row, on a control word with nothing else in it (R51). -/
theorem decode_ok (p : Packet) (i : Instr) : decode p = .ok i ↔ ∃ f, p.row = some (f, i) ∧
    p.cw = controlWord p.op (if f = .n then 0#4 else p.rt) (if f = .ds then p.rs else 0#4) := by
  simp only [decode]
  cases hr : p.row with
  | none => simp
  | some fi =>
    obtain ⟨f, j⟩ := fi
    by_cases hc : p.cw = controlWord p.op (if f = .n then 0#4 else p.rt) (if f = .ds then p.rs else 0#4)
    · have hm := (mask_iff_controlWord p f).mpr hc
      dsimp only
      rw [if_pos hm]
      constructor
      · intro h; cases h; exact ⟨f, rfl, hc⟩
      · rintro ⟨f', h1, -⟩; cases h1; rfl
    · have hm := fun e => hc ((mask_iff_controlWord p f).mp e)
      dsimp only
      rw [if_neg hm]
      constructor
      · intro h; cases h
      · rintro ⟨f', h1, h2⟩; cases h1; exact absurd h2 hc

end Sys2Proof
end

