-- ==== Sys2Proof/Laws/State.lean ====
section
/-! SUPPORT. One lemma per field per update of the state, true by `rfl`, so that no proof unfolds a record update. -/

namespace Sys2Proof.Machine

/-! ## `State.complete` -/

@[simp] theorem State.complete_params (last : Last) (s : State) : (s.complete last).params = s.params := rfl
@[simp] theorem State.complete_res (last : Last) (s : State) : (s.complete last).res = s.res := rfl
@[simp] theorem State.complete_status (last : Last) (s : State) : (s.complete last).status = { s.status with last := last } := rfl
@[simp] theorem State.complete_cause (last : Last) (s : State) : (s.complete last).cause = s.cause := rfl
@[simp] theorem State.complete_info (last : Last) (s : State) : (s.complete last).info = s.info := rfl
@[simp] theorem State.complete_mem (last : Last) (s : State) : (s.complete last).mem = s.mem := rfl
@[simp] theorem State.complete_inputs (last : Last) (s : State) : (s.complete last).inputs = s.inputs := rfl
@[simp] theorem State.complete_observed (last : Last) (s : State) : (s.complete last).observed = s.observed := rfl
@[simp] theorem State.complete_freeCount (last : Last) (s : State) : (s.complete last).freeCount = s.freeCount := rfl
@[simp] theorem State.complete_acc (last : Last) (s : State) (a : Slot) : (s.complete last).acc a = s.acc a := rfl
@[simp] theorem State.complete_gen (last : Last) (s : State) (g : Slot) : (s.complete last).gen g = s.gen g := rfl

/-! ## `State.setRes` -/

@[simp] theorem State.setRes_params (v : Word) (s : State) : (s.setRes v).params = s.params := rfl
@[simp] theorem State.setRes_res (v : Word) (s : State) : (s.setRes v).res = v := rfl
@[simp] theorem State.setRes_status (v : Word) (s : State) : (s.setRes v).status = s.status := rfl
@[simp] theorem State.setRes_cause (v : Word) (s : State) : (s.setRes v).cause = s.cause := rfl
@[simp] theorem State.setRes_info (v : Word) (s : State) : (s.setRes v).info = s.info := rfl
@[simp] theorem State.setRes_mem (v : Word) (s : State) : (s.setRes v).mem = s.mem := rfl
@[simp] theorem State.setRes_inputs (v : Word) (s : State) : (s.setRes v).inputs = s.inputs := rfl
@[simp] theorem State.setRes_observed (v : Word) (s : State) : (s.setRes v).observed = s.observed := rfl
@[simp] theorem State.setRes_freeCount (v : Word) (s : State) : (s.setRes v).freeCount = s.freeCount := rfl
@[simp] theorem State.setRes_acc (v : Word) (s : State) (a : Slot) : (s.setRes v).acc a = s.acc a := rfl
@[simp] theorem State.setRes_gen (v : Word) (s : State) (g : Slot) : (s.setRes v).gen g = s.gen g := rfl

/-! ## `State.setAcc` -/

@[simp] theorem State.setAcc_params (rt : Slot) (x : Option Acc) (s : State) : (s.setAcc rt x).params = s.params := rfl
@[simp] theorem State.setAcc_res (rt : Slot) (x : Option Acc) (s : State) : (s.setAcc rt x).res = s.res := rfl
@[simp] theorem State.setAcc_status (rt : Slot) (x : Option Acc) (s : State) : (s.setAcc rt x).status = s.status := rfl
@[simp] theorem State.setAcc_cause (rt : Slot) (x : Option Acc) (s : State) : (s.setAcc rt x).cause = s.cause := rfl
@[simp] theorem State.setAcc_info (rt : Slot) (x : Option Acc) (s : State) : (s.setAcc rt x).info = s.info := rfl
@[simp] theorem State.setAcc_mem (rt : Slot) (x : Option Acc) (s : State) : (s.setAcc rt x).mem = s.mem := rfl
@[simp] theorem State.setAcc_inputs (rt : Slot) (x : Option Acc) (s : State) : (s.setAcc rt x).inputs = s.inputs := rfl
@[simp] theorem State.setAcc_observed (rt : Slot) (x : Option Acc) (s : State) : (s.setAcc rt x).observed = s.observed := rfl
@[simp] theorem State.setAcc_freeCount (rt : Slot) (x : Option Acc) (s : State) : (s.setAcc rt x).freeCount = s.freeCount := rfl
@[simp] theorem State.setAcc_gen (rt : Slot) (x : Option Acc) (s : State) (g : Slot) : (s.setAcc rt x).gen g = s.gen g := rfl

/-! ## `State.setGen` -/

@[simp] theorem State.setGen_params (rt : Slot) (x : Option Gen) (s : State) : (s.setGen rt x).params = s.params := rfl
@[simp] theorem State.setGen_res (rt : Slot) (x : Option Gen) (s : State) : (s.setGen rt x).res = s.res := rfl
@[simp] theorem State.setGen_status (rt : Slot) (x : Option Gen) (s : State) : (s.setGen rt x).status = s.status := rfl
@[simp] theorem State.setGen_cause (rt : Slot) (x : Option Gen) (s : State) : (s.setGen rt x).cause = s.cause := rfl
@[simp] theorem State.setGen_info (rt : Slot) (x : Option Gen) (s : State) : (s.setGen rt x).info = s.info := rfl
@[simp] theorem State.setGen_mem (rt : Slot) (x : Option Gen) (s : State) : (s.setGen rt x).mem = s.mem := rfl
@[simp] theorem State.setGen_inputs (rt : Slot) (x : Option Gen) (s : State) : (s.setGen rt x).inputs = s.inputs := rfl
@[simp] theorem State.setGen_observed (rt : Slot) (x : Option Gen) (s : State) : (s.setGen rt x).observed = s.observed := rfl
@[simp] theorem State.setGen_freeCount (rt : Slot) (x : Option Gen) (s : State) : (s.setGen rt x).freeCount = s.freeCount := rfl
@[simp] theorem State.setGen_acc (rt : Slot) (x : Option Gen) (s : State) (a : Slot) : (s.setGen rt x).acc a = s.acc a := rfl

/-! ## `State.setMem` -/

@[simp] theorem State.setMem_params (m : Memory) (s : State) : (s.setMem m).params = s.params := rfl
@[simp] theorem State.setMem_res (m : Memory) (s : State) : (s.setMem m).res = s.res := rfl
@[simp] theorem State.setMem_status (m : Memory) (s : State) : (s.setMem m).status = s.status := rfl
@[simp] theorem State.setMem_cause (m : Memory) (s : State) : (s.setMem m).cause = s.cause := rfl
@[simp] theorem State.setMem_info (m : Memory) (s : State) : (s.setMem m).info = s.info := rfl
@[simp] theorem State.setMem_mem (m : Memory) (s : State) : (s.setMem m).mem = m := rfl
@[simp] theorem State.setMem_inputs (m : Memory) (s : State) : (s.setMem m).inputs = s.inputs := rfl
@[simp] theorem State.setMem_observed (m : Memory) (s : State) : (s.setMem m).observed = s.observed := rfl
@[simp] theorem State.setMem_freeCount (m : Memory) (s : State) : (s.setMem m).freeCount = s.freeCount := rfl
@[simp] theorem State.setMem_acc (m : Memory) (s : State) (a : Slot) : (s.setMem m).acc a = s.acc a := rfl
@[simp] theorem State.setMem_gen (m : Memory) (s : State) (g : Slot) : (s.setMem m).gen g = s.gen g := rfl

/-! ## `State.raise` -/

@[simp] theorem State.raise_params (c : Cause) (w : Word) (s : State) : (s.raise c w).params = s.params := rfl
@[simp] theorem State.raise_res (c : Cause) (w : Word) (s : State) : (s.raise c w).res = s.res := rfl
@[simp] theorem State.raise_status (c : Cause) (w : Word) (s : State) : (s.raise c w).status = { s.status with fault := true } := rfl
@[simp] theorem State.raise_cause (c : Cause) (w : Word) (s : State) : (s.raise c w).cause = c.code := rfl
@[simp] theorem State.raise_info (c : Cause) (w : Word) (s : State) : (s.raise c w).info = w := rfl
@[simp] theorem State.raise_mem (c : Cause) (w : Word) (s : State) : (s.raise c w).mem = s.mem := rfl
@[simp] theorem State.raise_inputs (c : Cause) (w : Word) (s : State) : (s.raise c w).inputs = s.inputs := rfl
@[simp] theorem State.raise_observed (c : Cause) (w : Word) (s : State) : (s.raise c w).observed = s.observed := rfl
@[simp] theorem State.raise_freeCount (c : Cause) (w : Word) (s : State) : (s.raise c w).freeCount = s.freeCount := rfl
@[simp] theorem State.raise_acc (c : Cause) (w : Word) (s : State) (a : Slot) : (s.raise c w).acc a = s.acc a := rfl
@[simp] theorem State.raise_gen (c : Cause) (w : Word) (s : State) (g : Slot) : (s.raise c w).gen g = s.gen g := rfl

/-! ## `State.raiseBusAcc` -/

@[simp] theorem State.raiseBusAcc_params (rt : Slot) (w : Word) (s : State) : (s.raiseBusAcc rt w).params = s.params := rfl
@[simp] theorem State.raiseBusAcc_res (rt : Slot) (w : Word) (s : State) : (s.raiseBusAcc rt w).res = s.res := rfl
@[simp] theorem State.raiseBusAcc_status (rt : Slot) (w : Word) (s : State) : (s.raiseBusAcc rt w).status = { s.status with fault := true } := rfl
@[simp] theorem State.raiseBusAcc_cause (rt : Slot) (w : Word) (s : State) : (s.raiseBusAcc rt w).cause = 6#64 := rfl
@[simp] theorem State.raiseBusAcc_info (rt : Slot) (w : Word) (s : State) : (s.raiseBusAcc rt w).info = w := rfl
@[simp] theorem State.raiseBusAcc_mem (rt : Slot) (w : Word) (s : State) : (s.raiseBusAcc rt w).mem = s.mem := rfl
@[simp] theorem State.raiseBusAcc_inputs (rt : Slot) (w : Word) (s : State) : (s.raiseBusAcc rt w).inputs = s.inputs := rfl
@[simp] theorem State.raiseBusAcc_observed (rt : Slot) (w : Word) (s : State) : (s.raiseBusAcc rt w).observed = s.observed := rfl
@[simp] theorem State.raiseBusAcc_freeCount (rt : Slot) (w : Word) (s : State) : (s.raiseBusAcc rt w).freeCount = s.freeCount + 1 := rfl
@[simp] theorem State.raiseBusAcc_gen (rt : Slot) (w : Word) (s : State) (g : Slot) : (s.raiseBusAcc rt w).gen g = s.gen g := rfl

/-! ## `State.raiseBusGen` -/

@[simp] theorem State.raiseBusGen_params (rt : Slot) (w : Word) (s : State) : (s.raiseBusGen rt w).params = s.params := rfl
@[simp] theorem State.raiseBusGen_res (rt : Slot) (w : Word) (s : State) : (s.raiseBusGen rt w).res = s.res := rfl
@[simp] theorem State.raiseBusGen_status (rt : Slot) (w : Word) (s : State) : (s.raiseBusGen rt w).status = { s.status with fault := true } := rfl
@[simp] theorem State.raiseBusGen_cause (rt : Slot) (w : Word) (s : State) : (s.raiseBusGen rt w).cause = 6#64 := rfl
@[simp] theorem State.raiseBusGen_info (rt : Slot) (w : Word) (s : State) : (s.raiseBusGen rt w).info = w := rfl
@[simp] theorem State.raiseBusGen_mem (rt : Slot) (w : Word) (s : State) : (s.raiseBusGen rt w).mem = s.mem := rfl
@[simp] theorem State.raiseBusGen_inputs (rt : Slot) (w : Word) (s : State) : (s.raiseBusGen rt w).inputs = s.inputs := rfl
@[simp] theorem State.raiseBusGen_observed (rt : Slot) (w : Word) (s : State) : (s.raiseBusGen rt w).observed = s.observed := rfl
@[simp] theorem State.raiseBusGen_freeCount (rt : Slot) (w : Word) (s : State) : (s.raiseBusGen rt w).freeCount = s.freeCount + 1 := rfl
@[simp] theorem State.raiseBusGen_acc (rt : Slot) (w : Word) (s : State) (a : Slot) : (s.raiseBusGen rt w).acc a = s.acc a := rfl

/-! ## `State.resetEvent` -/

@[simp] theorem State.resetEvent_params (s : State) : (s.resetEvent).params = s.params := rfl
@[simp] theorem State.resetEvent_res (s : State) : (s.resetEvent).res = 0#64 := rfl
@[simp] theorem State.resetEvent_status (s : State) : (s.resetEvent).status = ⟨false, .ok⟩ := rfl
@[simp] theorem State.resetEvent_cause (s : State) : (s.resetEvent).cause = 0#64 := rfl
@[simp] theorem State.resetEvent_info (s : State) : (s.resetEvent).info = 0#64 := rfl
@[simp] theorem State.resetEvent_mem (s : State) : (s.resetEvent).mem = s.mem := rfl
@[simp] theorem State.resetEvent_inputs (s : State) : (s.resetEvent).inputs = s.inputs := rfl
@[simp] theorem State.resetEvent_observed (s : State) : (s.resetEvent).observed = s.observed := rfl
@[simp] theorem State.resetEvent_freeCount (s : State) : (s.resetEvent).freeCount = s.freeCount := rfl

/-! ## The contexts after the updates that write them -/

theorem State.setAcc_acc (rt : Slot) (x : Option Acc) (s : State) (a : Slot) :
    (s.setAcc rt x).acc a = if a = rt then x else s.acc a := by
  simp only [State.acc, State.setAcc, Vector.getElem_set]
  by_cases h : a = rt
  · simp [h]
  · have : ¬ rt.toNat = a.toNat := fun e => h (BitVec.eq_of_toNat_eq e.symm)
    simp [h, this]

theorem State.setGen_gen (rt : Slot) (x : Option Gen) (s : State) (g : Slot) :
    (s.setGen rt x).gen g = if g = rt then x else s.gen g := by
  simp only [State.gen, State.setGen, Vector.getElem_set]
  by_cases h : g = rt
  · simp [h]
  · have : ¬ rt.toNat = g.toNat := fun e => h (BitVec.eq_of_toNat_eq e.symm)
    simp [h, this]

@[simp] theorem State.setAcc_acc_same (rt : Slot) (x : Option Acc) (s : State) : (s.setAcc rt x).acc rt = x := by
  simp [State.setAcc_acc]

@[simp] theorem State.setGen_gen_same (rt : Slot) (x : Option Gen) (s : State) : (s.setGen rt x).gen rt = x := by
  simp [State.setGen_gen]

@[simp] theorem State.setAcc_acc_other (rt : Slot) (x : Option Acc) (s : State) (a : Slot) (h : a ≠ rt) :
    (s.setAcc rt x).acc a = s.acc a := by
  simp [State.setAcc_acc, h]

@[simp] theorem State.setGen_gen_other (rt : Slot) (x : Option Gen) (s : State) (g : Slot) (h : g ≠ rt) :
    (s.setGen rt x).gen g = s.gen g := by
  simp [State.setGen_gen, h]

theorem State.raiseBusAcc_acc (rt : Slot) (w : Word) (s : State) (a : Slot) :
    (s.raiseBusAcc rt w).acc a = if a = rt then freeAcc s.freeCount else s.acc a :=
  State.setAcc_acc rt (freeAcc s.freeCount) s a

theorem State.raiseBusGen_gen (rt : Slot) (w : Word) (s : State) (g : Slot) :
    (s.raiseBusGen rt w).gen g = if g = rt then freeGen s.freeCount else s.gen g :=
  State.setGen_gen rt (freeGen s.freeCount) s g

@[simp] theorem State.resetEvent_acc (s : State) (a : Slot) : s.resetEvent.acc a = none := by
  simp [State.acc, State.resetEvent]

@[simp] theorem State.resetEvent_gen (s : State) (g : Slot) : s.resetEvent.gen g = none := by
  simp [State.gen, State.resetEvent]

@[simp] theorem State.resetOf_acc (p : Params) (a : Slot) : (State.resetOf p).acc a = none := by
  simp [State.acc, State.resetOf]

@[simp] theorem State.resetOf_gen (p : Params) (g : Slot) : (State.resetOf p).gen g = none := by
  simp [State.gen, State.resetOf]

/-! ## The host's side taken off or added to a state leaves the block as it is -/

@[simp] theorem State.withInputs_acc (s : State) (l : List Input) (a : Slot) : ({ s with inputs := l } : State).acc a = s.acc a := rfl
@[simp] theorem State.withInputs_gen (s : State) (l : List Input) (g : Slot) : ({ s with inputs := l } : State).gen g = s.gen g := rfl
@[simp] theorem State.withObserved_acc (s : State) (v : Option Word) (a : Slot) : ({ s with observed := v } : State).acc a = s.acc a := rfl
@[simp] theorem State.withObserved_gen (s : State) (v : Option Word) (g : Slot) : ({ s with observed := v } : State).gen g = s.gen g := rfl

end Sys2Proof.Machine
end

