-- ==== Sys2Proof/Laws/Memory.lean ====
section
/-! SUPPORT. The memory: reading after writing, the canonical form, and what the shared accesses of the commands can do, said once each. -/

namespace Sys2Proof.Machine

/-! ## One byte -/

theorem Memory.read_write_other (m : Memory) (a : Nat) (b : Byte) (x : Nat) (h : x ≠ a) :
    Memory.read (Memory.write m a b) x = Memory.read m x := by
  induction m with
  | nil =>
    simp only [Memory.write]
    split <;> simp [Memory.read, Ne.symm h]
  | cons e m ih =>
    obtain ⟨k, v⟩ := e
    simp only [Memory.write]
    split
    · split
      · rfl
      · simp [Memory.read, Ne.symm h]
    · split
      · rename_i hk
        subst hk
        split <;> simp [Memory.read, Ne.symm h]
      · simp only [Memory.read, ih]

/-- Below the first address a canonical memory can list, every address is unlisted. -/
theorem Memory.read_below {lo : Nat} {m : Memory} (h : Memory.wfFrom lo m = true) {x : Nat} (hx : x < lo) :
    Memory.read m x = Config.unlistedByte := by
  induction m generalizing lo with
  | nil => rfl
  | cons e m ih =>
    obtain ⟨k, v⟩ := e
    simp only [Memory.wfFrom, Bool.and_eq_true, decide_eq_true_eq] at h
    have hk : k ≠ x := by omega
    simp only [Memory.read, hk, if_false]
    exact ih h.2 (by omega)

theorem Memory.wfFrom_weaken {lo lo' : Nat} {m : Memory} (hl : lo' ≤ lo) (h : Memory.wfFrom lo m = true) : Memory.wfFrom lo' m = true := by
  cases m with
  | nil => rfl
  | cons e m =>
    obtain ⟨k, v⟩ := e
    simp only [Memory.wfFrom, Bool.and_eq_true, decide_eq_true_eq] at h ⊢
    exact ⟨⟨⟨Nat.le_trans hl h.1.1.1, h.1.1.2⟩, h.1.2⟩, h.2⟩

theorem Memory.wfFrom_write {lo : Nat} {m : Memory} (a : Nat) (b : Byte) (h : Memory.wfFrom lo m = true) (hl : lo ≤ a) (ha : a < 2 ^ 64) :
    Memory.wfFrom lo (Memory.write m a b) = true := by
  induction m generalizing lo with
  | nil =>
    simp only [Memory.write]
    split
    · rfl
    · rename_i hb
      simp only [Memory.wfFrom, Bool.and_eq_true, decide_eq_true_eq]
      exact ⟨⟨⟨hl, ha⟩, hb⟩, trivial⟩
  | cons e m ih =>
    obtain ⟨k, v⟩ := e
    have h' := h
    simp only [Memory.wfFrom, Bool.and_eq_true, decide_eq_true_eq] at h'
    obtain ⟨⟨⟨h1, h2⟩, h3⟩, h4⟩ := h'
    simp only [Memory.write]
    split
    · rename_i hak
      split
      · exact h
      · rename_i hb
        simp only [Memory.wfFrom, Bool.and_eq_true, decide_eq_true_eq]
        exact ⟨⟨⟨hl, ha⟩, hb⟩, ⟨⟨⟨hak, h2⟩, h3⟩, h4⟩⟩
    · rename_i hak
      split
      · rename_i hk
        subst hk
        split
        · exact Memory.wfFrom_weaken (by omega) h4
        · rename_i hb
          simp only [Memory.wfFrom, Bool.and_eq_true, decide_eq_true_eq]
          exact ⟨⟨⟨hl, ha⟩, hb⟩, h4⟩
      · rename_i hk
        simp only [Memory.wfFrom, Bool.and_eq_true, decide_eq_true_eq]
        exact ⟨⟨⟨h1, h2⟩, h3⟩, ih h4 (by omega)⟩

/-- Every write keeps the canonical form. -/
theorem Memory.wf_write {m : Memory} (a : Nat) (b : Byte) (h : Memory.wf m = true) (ha : a < 2 ^ 64) : Memory.wf (Memory.write m a b) = true :=
  Memory.wfFrom_write a b h (Nat.zero_le a) ha

theorem Memory.read_write_same_from {lo : Nat} {m : Memory} (a : Nat) (b : Byte) (h : Memory.wfFrom lo m = true) :
    Memory.read (Memory.write m a b) a = b := by
  induction m generalizing lo with
  | nil =>
    simp only [Memory.write]
    split
    · rename_i hb
      simp [Memory.read, hb]
    · simp [Memory.read]
  | cons e m ih =>
    obtain ⟨k, v⟩ := e
    have h' := h
    simp only [Memory.wfFrom, Bool.and_eq_true, decide_eq_true_eq] at h'
    simp only [Memory.write]
    split
    · rename_i hak
      split
      · rename_i hb
        have hka : k ≠ a := by omega
        simp only [Memory.read, hka, if_false, hb]
        exact Memory.read_below h'.2 (by omega)
      · simp [Memory.read]
    · split
      · rename_i hk
        subst hk
        split
        · rename_i hb
          rw [hb]
          exact Memory.read_below h'.2 (by omega)
        · simp [Memory.read]
      · rename_i hk
        simp only [Memory.read, Ne.symm hk, if_false]
        exact ih h'.2

/-- Reading the address just written gives the byte written. -/
theorem Memory.read_write_same {m : Memory} (a : Nat) (b : Byte) (h : Memory.wf m = true) : Memory.read (Memory.write m a b) a = b :=
  Memory.read_write_same_from a b h

theorem Memory.eq_of_read_from {lo : Nat} {m m' : Memory} (h : Memory.wfFrom lo m = true) (h' : Memory.wfFrom lo m' = true)
    (hr : ∀ x, Memory.read m x = Memory.read m' x) : m = m' := by
  induction m generalizing lo m' with
  | nil =>
    cases m' with
    | nil => rfl
    | cons e' m' =>
      obtain ⟨k', v'⟩ := e'
      simp only [Memory.wfFrom, Bool.and_eq_true, decide_eq_true_eq] at h'
      have hx := hr k'
      simp only [Memory.read, if_true] at hx
      exact absurd hx.symm h'.1.2
  | cons e m ih =>
    obtain ⟨k, v⟩ := e
    simp only [Memory.wfFrom, Bool.and_eq_true, decide_eq_true_eq] at h
    cases m' with
    | nil =>
      have hx := hr k
      simp only [Memory.read, if_true] at hx
      exact absurd hx h.1.2
    | cons e' m' =>
      obtain ⟨k', v'⟩ := e'
      simp only [Memory.wfFrom, Bool.and_eq_true, decide_eq_true_eq] at h'
      have hkk : k = k' := by
        rcases Nat.lt_trichotomy k k' with hlt | heq | hgt
        · have hx := hr k
          have hne : k' ≠ k := by omega
          simp only [Memory.read, if_true, hne, if_false] at hx
          rw [Memory.read_below h'.2 (by omega)] at hx
          exact absurd hx h.1.2
        · exact heq
        · have hx := hr k'
          have hne : k ≠ k' := by omega
          simp only [Memory.read, if_true, hne, if_false] at hx
          rw [Memory.read_below h.2 (by omega)] at hx
          exact absurd hx.symm h'.1.2
      subst hkk
      have hv := hr k
      simp only [Memory.read, if_true] at hv
      subst hv
      congr 1
      refine ih h.2 h'.2 fun x => ?_
      by_cases hx : x ≤ k
      · rw [Memory.read_below h.2 (by omega), Memory.read_below h'.2 (by omega)]
      · have hy := hr x
        have hne : k ≠ x := by omega
        simpa only [Memory.read, hne, if_false] using hy

/-- Canonical memories that read alike are equal data. -/
theorem Memory.eq_of_read {m m' : Memory} (h : Memory.wf m = true) (h' : Memory.wf m' = true) (hr : ∀ x, Memory.read m x = Memory.read m' x) :
    m = m' :=
  Memory.eq_of_read_from h h' hr

/-! ## One access -/

theorem checkAccess_none {p : Params} {a : Word} {kind : AccessKind} :
    checkAccess p a kind = none ↔ memOk p a kind = true ∧ isDevice p a = false := by
  simp only [checkAccess]
  cases memOk p a kind <;> cases isDevice p a <;> simp

theorem checkAccess_bus {p : Params} {a x : Word} {kind : AccessKind} :
    checkAccess p a kind = some (.bus x) ↔ x = a ∧ memOk p a kind = false := by
  simp only [checkAccess]
  cases memOk p a kind <;> cases isDevice p a <;> simp [eq_comm]

theorem checkAccess_device {p : Params} {a x : Word} {kind : AccessKind} :
    checkAccess p a kind = some (.device x) ↔ x = a ∧ memOk p a kind = true ∧ isDevice p a = true := by
  simp only [checkAccess]
  cases memOk p a kind <;> cases isDevice p a <;> simp [eq_comm]

theorem readByte_ok {p : Params} {m : Memory} {a : Word} {b : Byte} :
    readByte p m a = .ok b ↔ checkAccess p a .read = none ∧ b = Memory.read m a.toNat := by
  simp only [readByte]
  cases h : checkAccess p a .read <;> simp [eq_comm]

theorem readByte_error {p : Params} {m : Memory} {a : Word} {stop : Stop} :
    readByte p m a = .error stop ↔ checkAccess p a .read = some stop := by
  simp only [readByte]
  cases h : checkAccess p a .read <;> simp

/-! ## Addresses of a range -/

theorem addr_succ (a : Word) (k : Nat) : a + 1#64 + BitVec.ofNat 64 k = a + BitVec.ofNat 64 (k + 1) := by
  apply BitVec.eq_of_toNat_eq
  simp only [BitVec.toNat_add, BitVec.toNat_ofNat]
  omega

/-! ## Reading a range -/

/-- All that `readBytes` can answer when it answers bytes: every byte was readable, and they are the memory's. -/
theorem readBytes_ok {p : Params} {m : Memory} {n : Nat} {a : Word} {bs : List Byte} (h : readBytes p m a n = .ok bs) :
    bs = (List.range n).map (fun k => Memory.read m (a + BitVec.ofNat 64 k).toNat) ∧
      ∀ k, k < n → checkAccess p (a + BitVec.ofNat 64 k) .read = none := by
  induction n generalizing a bs with
  | zero =>
    simp only [readBytes, Except.ok.injEq] at h
    subst h
    simp
  | succ n ih =>
    simp only [readBytes] at h
    split at h
    · cases h
    · rename_i b hb
      split at h
      · cases h
      · rename_i bs' hbs
        cases h
        obtain ⟨hc, rfl⟩ := readByte_ok.mp hb
        obtain ⟨hbs', hk⟩ := ih hbs
        constructor
        · rw [List.range_succ_eq_map, List.map_cons, List.map_map, hbs']
          simp only [BitVec.add_zero, List.cons.injEq]
          refine ⟨by simp, List.map_congr_left fun k _ => ?_⟩
          simp [addr_succ]
        · intro k hlt
          cases k with
          | zero => simpa using hc
          | succ k =>
            rw [← addr_succ]
            exact hk k (by omega)

/-- When every byte is readable, `readBytes` answers them. -/
theorem readBytes_of_accessible {p : Params} {m : Memory} {n : Nat} {a : Word} (h : Accessible p a n .read) :
    readBytes p m a n = .ok ((List.range n).map fun k => Memory.read m (a + BitVec.ofNat 64 k).toNat) := by
  match hr : readBytes p m a n with
  | .ok bs => rw [(readBytes_ok hr).1]
  | .error stop =>
    exfalso
    induction n generalizing a stop with
    | zero => simp [readBytes] at hr
    | succ n ih =>
      simp only [readBytes] at hr
      split at hr
      · rename_i st hb
        have hc := readByte_error.mp hb
        have h0 := checkAccess_none.mpr (h 0 (by omega))
        simp at h0
        rw [h0] at hc
        cases hc
      · split at hr
        · rename_i st hbs
          exact ih (fun k hk => by rw [addr_succ]; exact h (k + 1) (by omega)) st hbs
        · cases hr

/-- All that `readBytes` can answer when it is stopped: the first byte that is not readable stopped it. -/
theorem readBytes_error {p : Params} {m : Memory} {n : Nat} {a : Word} {stop : Stop} (h : readBytes p m a n = .error stop) :
    ∃ k, k < n ∧ checkAccess p (a + BitVec.ofNat 64 k) .read = some stop ∧
      ∀ j, j < k → checkAccess p (a + BitVec.ofNat 64 j) .read = none := by
  induction n generalizing a stop with
  | zero => simp [readBytes] at h
  | succ n ih =>
    simp only [readBytes] at h
    split at h
    · rename_i st hb
      cases h
      exact ⟨0, by omega, by simpa using readByte_error.mp hb, by omega⟩
    · rename_i b hb
      split at h
      · rename_i st hbs
        cases h
        obtain ⟨k, hk, hs, hj⟩ := ih hbs
        refine ⟨k + 1, by omega, by rw [← addr_succ]; exact hs, fun j hlt => ?_⟩
        cases j with
        | zero => simpa using (readByte_ok.mp hb).1
        | succ j =>
          rw [← addr_succ]
          exact hj j (by omega)
      · cases h

/-! ## Writing a range -/

/-- The memory after a list of byte writes, none of them refused. -/
def writeAll (m : Memory) (ws : List (Word × Byte)) : Memory := ws.foldl (fun m w => Memory.write m w.1.toNat w.2) m

/-- All that `storeBytes` can do: it makes the writes up to the first that is stopped, in order, and no other. -/
theorem storeBytes_split (p : Params) (m : Memory) (ws : List (Word × Byte)) :
    ∃ pre post, ws = pre ++ post ∧ (storeBytes p m ws).1 = writeAll m pre ∧
      (∀ w, w ∈ pre → checkAccess p w.1 .write = none) ∧
      (((storeBytes p m ws).2 = none ∧ post = []) ∨
        ∃ stop w rest, (storeBytes p m ws).2 = some stop ∧ post = w :: rest ∧ checkAccess p w.1 .write = some stop) := by
  induction ws generalizing m with
  | nil => exact ⟨[], [], by simp [storeBytes, writeAll]⟩
  | cons w ws ih =>
    obtain ⟨a, b⟩ := w
    cases hc : checkAccess p a .write with
    | some stop =>
      exact ⟨[], (a, b) :: ws, by simp, by simp [storeBytes, hc, writeAll], by simp,
        Or.inr ⟨stop, (a, b), ws, by simp [storeBytes, hc], rfl, hc⟩⟩
    | none =>
      obtain ⟨pre, post, h1, h2, h3, h4⟩ := ih (Memory.write m a.toNat b)
      refine ⟨(a, b) :: pre, post, by simp [h1], by simpa [storeBytes, hc, writeAll] using h2, ?_, by simpa [storeBytes, hc] using h4⟩
      intro w hw
      rcases List.mem_cons.mp hw with rfl | hw
      · exact hc
      · exact h3 w hw

/-- When every write is accepted, `storeBytes` makes them all. -/
theorem storeBytes_of_accepted {p : Params} {m : Memory} {ws : List (Word × Byte)} (h : ∀ w, w ∈ ws → checkAccess p w.1 .write = none) :
    storeBytes p m ws = (writeAll m ws, none) := by
  induction ws generalizing m with
  | nil => rfl
  | cons w ws ih =>
    obtain ⟨a, b⟩ := w
    have hc : checkAccess p a .write = none := h (a, b) (by simp)
    simp only [storeBytes, hc, writeAll, List.foldl_cons]
    exact ih fun w hw => h w (by simp [hw])

theorem writeAll_read_other (m : Memory) (ws : List (Word × Byte)) (x : Nat) (h : ∀ w, w ∈ ws → x ≠ w.1.toNat) :
    Memory.read (writeAll m ws) x = Memory.read m x := by
  induction ws generalizing m with
  | nil => rfl
  | cons w ws ih =>
    simp only [writeAll, List.foldl_cons]
    rw [← Memory.read_write_other m w.1.toNat w.2 x (h w (by simp))]
    exact ih _ fun w hw => h w (by simp [hw])

theorem writeAll_wf {m : Memory} (ws : List (Word × Byte)) (h : Memory.wf m = true) : Memory.wf (writeAll m ws) = true := by
  induction ws generalizing m with
  | nil => exact h
  | cons w ws ih =>
    simp only [writeAll, List.foldl_cons]
    exact ih (Memory.wf_write _ _ h w.1.isLt)

/-- Every store of a command keeps the canonical form. -/
theorem storeBytes_wf {p : Params} {m : Memory} (ws : List (Word × Byte)) (h : Memory.wf m = true) :
    Memory.wf (storeBytes p m ws).1 = true := by
  obtain ⟨pre, _, _, h2, _⟩ := storeBytes_split p m ws
  rw [h2]
  exact writeAll_wf pre h

/-- A store leaves every address it does not write alone. -/
theorem storeBytes_read_other (p : Params) (m : Memory) (ws : List (Word × Byte)) (x : Nat) (h : ∀ w, w ∈ ws → x ≠ w.1.toNat) :
    Memory.read (storeBytes p m ws).1 x = Memory.read m x := by
  obtain ⟨pre, post, h1, h2, _⟩ := storeBytes_split p m ws
  rw [h2]
  exact writeAll_read_other m pre x fun w hw => h w (by rw [h1]; simp [hw])

theorem writeAll_append (m : Memory) (xs ys : List (Word × Byte)) : writeAll m (xs ++ ys) = writeAll (writeAll m xs) ys := by
  simp [writeAll, List.foldl_append]

/-- An address reads as the last byte written to it. -/
theorem writeAll_read_last (m : Memory) (hm : Memory.wf m = true) (ws : List (Word × Byte)) (j : Nat) (a : Word) (b : Byte) (h : ws[j]? = some (a, b))
   (hl : ∀ j', j < j' → ∀ w, ws[j']? = some w → w.1 ≠ a) : Memory.read (writeAll m ws) a.toNat = b := by
  have hj : j < ws.length := by
    by_contra hc; rw [List.getElem?_eq_none (by omega)] at h; cases h
  have e : ws = ws.take j ++ (a, b) :: ws.drop (j + 1) := by
    have := List.getElem?_eq_getElem hj
    rw [this] at h
    have h := Option.some.inj h
    rw [← h, ← List.drop_eq_getElem_cons hj, List.take_append_drop]
  rw [e, writeAll_append]
  have : writeAll (writeAll m (ws.take j)) ((a, b) :: ws.drop (j+1)) = writeAll (Memory.write (writeAll m (ws.take j)) a.toNat b) (ws.drop (j+1)) := rfl
  rw [this, writeAll_read_other, Memory.read_write_same _ _ (writeAll_wf _ hm)]
  intro w hw e
  obtain ⟨i, hi⟩ := List.getElem?_of_mem hw
  rw [List.getElem?_drop] at hi
  exact hl _ (by omega) w hi (BitVec.eq_of_toNat_eq e.symm)

/-- When write number `k` is the first that is stopped, `storeBytes` makes the `k` writes before it. -/
theorem storeBytes_stopped {p : Params} {m : Memory} {ws : List (Word × Byte)} {k : Nat} {a : Word} {b : Byte} {st : Stop}
   (h1 : ∀ j, j < k → ∀ w, ws[j]? = some w → checkAccess p w.1 .write = none) (h2 : ws[k]? = some (a, b)) (h3 : checkAccess p a .write = some st) :
   storeBytes p m ws = (writeAll m (ws.take k), some st) := by
  induction ws generalizing m k with
  | nil => simp at h2
  | cons w ws ih =>
    cases k with
    | zero => simp at h2; subst h2; simp [storeBytes, h3, writeAll]
    | succ k =>
      obtain ⟨x, y⟩ := w
      have : checkAccess p x .write = none := h1 0 (by omega) (x, y) rfl
      simp only [storeBytes, this, List.take_succ_cons]
      rw [ih (k := k) (fun j hj w hw => h1 (j+1) (by omega) w (by simpa using hw)) (by simpa using h2)]
      rfl

/-! ## The scan of `UPD.STR` -/

/-- All that the scan can answer: stopped at the first unreadable byte, or found the first zero byte, or found none in `fuel` bytes. -/
theorem scanText_cases (p : Params) (m : Memory) (addr : Word) (fuel n : Nat) :
    (∃ k stop, k < fuel ∧ scanText p m addr fuel n = .error stop ∧ checkAccess p (addr + BitVec.ofNat 64 (n + k)) .read = some stop ∧
        ∀ j, j < k → checkAccess p (addr + BitVec.ofNat 64 (n + j)) .read = none ∧
          Memory.read m (addr + BitVec.ofNat 64 (n + j)).toNat ≠ 0#8) ∨
    (∃ k, k < fuel ∧ scanText p m addr fuel n = .ok (some (n + k)) ∧ checkAccess p (addr + BitVec.ofNat 64 (n + k)) .read = none ∧
        Memory.read m (addr + BitVec.ofNat 64 (n + k)).toNat = 0#8 ∧
        ∀ j, j < k → checkAccess p (addr + BitVec.ofNat 64 (n + j)) .read = none ∧
          Memory.read m (addr + BitVec.ofNat 64 (n + j)).toNat ≠ 0#8) ∨
    (scanText p m addr fuel n = .ok none ∧
        ∀ j, j < fuel → checkAccess p (addr + BitVec.ofNat 64 (n + j)) .read = none ∧
          Memory.read m (addr + BitVec.ofNat 64 (n + j)).toNat ≠ 0#8) := by
  induction fuel generalizing n with
  | zero => exact Or.inr (Or.inr ⟨rfl, by omega⟩)
  | succ fuel ih =>
    cases hc : checkAccess p (addr + BitVec.ofNat 64 n) .read with
    | some stop =>
      exact Or.inl ⟨0, stop, by omega, by simp [scanText, readByte, hc], by simpa using hc, by omega⟩
    | none =>
      by_cases hz : Memory.read m (addr + BitVec.ofNat 64 n).toNat = 0#8
      · exact Or.inr (Or.inl ⟨0, by omega, by simp only [scanText, readByte, hc, hz, if_true, Nat.add_zero], by simpa using hc, by simpa using hz, by omega⟩)
      · have hstep : scanText p m addr (fuel + 1) n = scanText p m addr fuel (n + 1) := by
          simp only [scanText, readByte, hc, hz, if_false]
        have hj : ∀ k, (∀ j, j < k → checkAccess p (addr + BitVec.ofNat 64 (n + 1 + j)) .read = none ∧
              Memory.read m (addr + BitVec.ofNat 64 (n + 1 + j)).toNat ≠ 0#8) →
            ∀ j, j < k + 1 → checkAccess p (addr + BitVec.ofNat 64 (n + j)) .read = none ∧
              Memory.read m (addr + BitVec.ofNat 64 (n + j)).toNat ≠ 0#8 := by
          intro k hk j hlt
          cases j with
          | zero => exact ⟨by simpa using hc, by simpa using hz⟩
          | succ j =>
            have := hk j (by omega)
            rwa [show n + 1 + j = n + (j + 1) by omega] at this
        rw [hstep]
        rcases ih (n + 1) with ⟨k, stop, h1, h2, h3, h4⟩ | ⟨k, h1, h2, h3, h4, h5⟩ | ⟨h1, h2⟩
        · exact Or.inl ⟨k + 1, stop, by omega, h2, by rwa [show n + (k + 1) = n + 1 + k by omega], hj k h4⟩
        · exact Or.inr (Or.inl ⟨k + 1, by omega, by rw [h2, show n + 1 + k = n + (k + 1) by omega],
            by rwa [show n + (k + 1) = n + 1 + k by omega], by rwa [show n + (k + 1) = n + 1 + k by omega], hj k h5⟩)
        · exact Or.inr (Or.inr ⟨h1, hj fuel h2⟩)

end Sys2Proof.Machine
end

