-- ==== Sys2Proof/Laws/Units.lean ====
section
/-! SUPPORT. What the four units and the procedures built from them compute, said once each in closed form. -/

namespace Sys2Proof.Machine

/-! ## Weyl sequences -/

@[simp] theorem weylAt_zero (start inc : Word) : weylAt start inc 0 = start := by simp [weylAt]

theorem weylAt_succ (start inc : Word) (k : Nat) : weylAt start inc (k + 1) = weylAt start inc k + inc := by
  simp only [weylAt]
  have h : BitVec.ofNat 64 (k + 1) = BitVec.ofNat 64 k + 1#64 := by simp [BitVec.ofNat_add]
  rw [h, BitVec.add_mul, BitVec.one_mul, BitVec.add_assoc]

theorem weylAt_add (start inc : Word) (j k : Nat) : weylAt (weylAt start inc j) inc k = weylAt start inc (j + k) := by
  induction k with
  | zero => simp
  | succ k ih => rw [weylAt_succ, ih, ← weylAt_succ, Nat.add_assoc]

theorem weylAt_one (start inc : Word) : weylAt start inc 1 = start + inc := by
  rw [weylAt_succ, weylAt_zero]

theorem drawIn_eq (p : Params) (c : Word) : drawIn p c = weylAt c p.incIn 1 := (weylAt_one c p.incIn).symm

theorem drawOut_eq (p : Params) (c : Word) : drawOut p c = weylAt c p.incOut 1 := (weylAt_one c p.incOut).symm

/-! ## Creation -/

theorem createLanes_last (p : Params) (c : Word) (n : Nat) : (createLanes p c n).2 = weylAt c p.incIn n := by
  induction n generalizing c with
  | zero => simp [createLanes]
  | succ n ih => rw [createLanes, ih, drawIn_eq, weylAt_add, Nat.add_comm 1 n]

@[simp] theorem createLanes_length (p : Params) (c : Word) (n : Nat) : (createLanes p c n).1.length = n := by
  induction n generalizing c with
  | zero => rfl
  | succ n ih => simp [createLanes, ih]

theorem createLanes_lane (p : Params) (c : Word) (n i : Nat) (h : i < n) :
    (createLanes p c n).1[i]? = some (weylAt c p.incIn (i + 1)) := by
  induction n generalizing c i with
  | zero => omega
  | succ n ih =>
    cases i with
    | zero => simp [createLanes, drawIn_eq]
    | succ i =>
      simp only [createLanes, List.getElem?_cons_succ]
      rw [ih _ i (by omega), drawIn_eq, weylAt_add, Nat.add_comm 1 (i + 1)]

@[simp] theorem freshAcc_length (p : Params) (n : Nat) : (freshAcc p n).lanes.length = n := createLanes_length p p.startIn n

theorem freshAcc_coef (p : Params) (n : Nat) : (freshAcc p n).coef = weylAt p.startIn p.incIn n := createLanes_last p p.startIn n

/-- A fresh accumulator stands at no update. -/
theorem freshAcc_at (p : Params) (n : Nat) : (freshAcc p n).at p 0 := by simp [Acc.at, freshAcc_coef]

/-! ## The primitive update -/

theorem macLanes_last (p : Params) (v : Half) (c : Word) (ls : List Word) : (macLanes p v c ls).2 = weylAt c p.incIn ls.length := by
  induction ls generalizing c with
  | nil => simp [macLanes]
  | cons l ls ih => rw [macLanes, ih, drawIn_eq, weylAt_add, List.length_cons, Nat.add_comm 1 ls.length]

@[simp] theorem macLanes_length (p : Params) (v : Half) (c : Word) (ls : List Word) : (macLanes p v c ls).1.length = ls.length := by
  induction ls generalizing c with
  | nil => rfl
  | cons l ls ih => simp [macLanes, ih]

theorem macLanes_lane (p : Params) (v : Half) (c : Word) (ls : List Word) (i : Nat) (l : Word) (h : ls[i]? = some l) :
    (macLanes p v c ls).1[i]? = some (macStep l (weylAt c p.incIn (i + 1)) v) := by
  induction ls generalizing c i with
  | nil => simp at h
  | cons x ls ih =>
    cases i with
    | zero =>
      simp only [List.getElem?_cons_zero, Option.some.injEq] at h
      simp [macLanes, h, drawIn_eq]
    | succ i =>
      simp only [List.getElem?_cons_succ] at h
      simp only [macLanes, List.getElem?_cons_succ]
      rw [ih _ i h, drawIn_eq, weylAt_add, Nat.add_comm 1 (i + 1)]

@[simp] theorem update32_length (p : Params) (v : Half) (a : Acc) : (update32 p v a).lanes.length = a.lanes.length :=
  macLanes_length p v a.coef a.lanes

theorem update32_coef (p : Params) (v : Half) (a : Acc) : (update32 p v a).coef = weylAt a.coef p.incIn a.lanes.length :=
  macLanes_last p v a.coef a.lanes

theorem update32_lane (p : Params) (v : Half) (a : Acc) (i : Nat) (l : Word) (h : a.lanes[i]? = some l) :
    (update32 p v a).lanes[i]? = some (macStep l (weylAt a.coef p.incIn (i + 1)) v) :=
  macLanes_lane p v a.coef a.lanes i l h

@[simp] theorem update64_length (p : Params) (v : Word) (a : Acc) : (update64 p v a).lanes.length = a.lanes.length := by
  simp [update64]

@[simp] theorem foldLength_length (p : Params) (v : Word) (a : Acc) : (foldLength p v a).lanes.length = a.lanes.length := by
  simp only [foldLength]
  split <;> simp

@[simp] theorem foldWords_length (p : Params) (ws : List Half) (a : Acc) : (foldWords p ws a).lanes.length = a.lanes.length := by
  induction ws generalizing a with
  | nil => rfl
  | cons w ws ih =>
    have : foldWords p (w :: ws) a = foldWords p ws (update32 p w a) := rfl
    rw [this, ih, update32_length]

/-- A primitive update advances the position by one update (R81). -/
theorem update32_at {p : Params} (v : Half) {a : Acc} {n : Nat} (h : a.at p n) : (update32 p v a).at p (n + 1) := by
  rw [Acc.at, update32_coef, h, weylAt_add, update32_length, ← Nat.mul_succ]

theorem update64_at {p : Params} (v : Word) {a : Acc} {n : Nat} (h : a.at p n) : (update64 p v a).at p (n + 2) :=
  update32_at _ (update32_at _ h)

theorem foldLength_at {p : Params} (v : Word) {a : Acc} {n : Nat} (h : a.at p n) : (foldLength p v a).at p (n + lengthFolds p) := by
  cases hl : p.lenW with
  | w32 =>
    rw [foldLength, lengthFolds, hl]
    exact update32_at _ h
  | w64 =>
    rw [foldLength, lengthFolds, hl]
    exact update64_at _ h

theorem foldWords_at {p : Params} (ws : List Half) {a : Acc} {n : Nat} (h : a.at p n) : (foldWords p ws a).at p (n + ws.length) := by
  induction ws generalizing a n with
  | nil => exact h
  | cons w ws ih =>
    rw [List.length_cons, Nat.add_comm ws.length 1, ← Nat.add_assoc]
    exact ih (update32_at w h)

/-! ## Finalization -/

@[simp] theorem finalizeKeys_length (p : Params) (c : Word) (ls : List Word) : (finalizeKeys p c ls).length = ls.length := by
  induction ls generalizing c with
  | nil => rfl
  | cons l ls ih => simp [finalizeKeys, ih]

theorem finalizeKeys_key (p : Params) (c : Word) (ls : List Word) (i : Nat) (l : Word) (h : ls[i]? = some l) :
    (finalizeKeys p c ls)[i]? = some (finalmix p (l + weylAt c p.incOut (i + 1))) := by
  induction ls generalizing c i with
  | nil => simp at h
  | cons x ls ih =>
    cases i with
    | zero =>
      simp only [List.getElem?_cons_zero, Option.some.injEq] at h
      simp [finalizeKeys, h, drawOut_eq]
    | succ i =>
      simp only [List.getElem?_cons_succ] at h
      simp only [finalizeKeys, List.getElem?_cons_succ]
      rw [ih _ i h, drawOut_eq, weylAt_add, Nat.add_comm 1 (i + 1)]

@[simp] theorem finalize_length (p : Params) (a : Acc) : (finalize p a).keys.length = a.lanes.length :=
  finalizeKeys_length p p.startOut a.lanes

@[simp] theorem finalize_coef (p : Params) (a : Acc) : (finalize p a).coef = p.startOut := rfl

/-! ## Seeds -/

theorem polyLoop_coef (p : Params) (c v : Word) (ks : List Half) : (polyLoop p c v ks).1 = weylAt c p.incOut ks.length := by
  induction ks generalizing c v with
  | nil => simp [polyLoop]
  | cons k ks ih => rw [polyLoop, ih, drawOut_eq, weylAt_add, List.length_cons, Nat.add_comm 1 ks.length]

theorem polyEval_coef (p : Params) (c : Word) (ks : List Half) : (polyEval p c ks).1 = weylAt c p.incOut (1 + ks.length) := by
  rw [polyEval, polyLoop_coef, drawOut_eq, weylAt_add]

@[simp] theorem nextSeed_keys (p : Params) (g : Gen) : (nextSeed p g).2.keys = g.keys := rfl

theorem nextSeed_coef (p : Params) (g : Gen) : (nextSeed p g).2.coef = weylAt g.coef p.incOut (1 + g.keys.length) :=
  polyEval_coef p g.coef g.keys

@[simp] theorem seeds_length (p : Params) (n : Nat) (g : Gen) : (seeds p n g).1.length = n := by
  induction n generalizing g with
  | zero => rfl
  | succ n ih => simp [seeds, ih]

@[simp] theorem seeds_keys (p : Params) (n : Nat) (g : Gen) : (seeds p n g).2.keys = g.keys := by
  induction n generalizing g with
  | zero => rfl
  | succ n ih => simp [seeds, ih]

theorem seeds_coef (p : Params) (n : Nat) (g : Gen) : (seeds p n g).2.coef = weylAt g.coef p.incOut (n * (1 + g.keys.length)) := by
  induction n generalizing g with
  | zero => simp [seeds]
  | succ n ih =>
    rw [seeds, ih, nextSeed_keys, nextSeed_coef, weylAt_add]
    congr 1
    rw [Nat.succ_mul, Nat.add_comm]

/-- A seed advances the position by one seed (R105). -/
theorem nextSeed_at {p : Params} {g : Gen} {m : Nat} (h : g.at p m) : (nextSeed p g).2.at p (m + 1) := by
  rw [Gen.at, nextSeed_coef, h, weylAt_add, nextSeed_keys, Nat.succ_mul]

theorem seeds_at {p : Params} (n : Nat) {g : Gen} {m : Nat} (h : g.at p m) : (seeds p n g).2.at p (m + n) := by
  rw [Gen.at, seeds_coef, h, weylAt_add, seeds_keys, Nat.add_mul]

/-- A generator at `START_OUT` stands at no seed (R108). -/
theorem startOut_at (p : Params) (ks : List Half) : (⟨p.startOut, ks⟩ : Gen).at p 0 := by simp [Gen.at]

/-! ## Words and bytes -/

/-- How many words a buffer makes: `ceil(len / 4)` (R31). -/
theorem leWords_length (bs : List Byte) : (leWords bs).length = (bs.length + 3) / 4 := by
  fun_induction leWords bs <;> simp_all <;> omega

theorem leWords_length_of_four (bs : List Byte) (n : Nat) (h : bs.length = 4 * n) : (leWords bs).length = n := by
  rw [leWords_length]
  omega

theorem padEven_length (ws : List Half) : (padEven ws).length = ws.length + ws.length % 2 := by
  simp only [padEven]
  split <;> simp <;> omega

/-- Every byte `writesAt` stores lies in the `4n` bytes from the address on. -/
theorem writesAt_mem {a : Word} {ws : List Half} {w : Word × Byte} (h : w ∈ writesAt a ws) :
    ∃ k, k < 4 * ws.length ∧ w.1 = a + BitVec.ofNat 64 k := by
  induction ws generalizing a with
  | nil => simp [writesAt] at h
  | cons v ws ih =>
    simp only [writesAt, List.mem_cons] at h
    rcases h with rfl | rfl | rfl | rfl | h
    · exact ⟨0, by simp, by simp⟩
    · exact ⟨1, by simp; omega, rfl⟩
    · exact ⟨2, by simp; omega, rfl⟩
    · exact ⟨3, by simp; omega, rfl⟩
    · obtain ⟨k, hk, hw⟩ := ih h
      refine ⟨k + 4, by simp; omega, ?_⟩
      rw [hw, BitVec.add_assoc]
      congr 1
      apply BitVec.eq_of_toNat_eq
      simp only [BitVec.toNat_add, BitVec.toNat_ofNat]
      omega

/-- A little-endian word, as a number (R31). -/
theorem leWord_eq (b0 b1 b2 b3 : Byte) : (leWord b0 b1 b2 b3) = BitVec.ofNat 32 (b0.toNat + b1.toNat * 2^8 + b2.toNat * 2^16 + b3.toNat * 2^24) := by
  apply BitVec.eq_of_toNat_eq
  have h0 := b0.isLt; have h1 := b1.isLt; have h2 := b2.isLt; have h3 := b3.isLt
  simp only [leWord, BitVec.toNat_append, BitVec.toNat_ofNat]
  rw [← Nat.shiftLeft_add_eq_or_of_lt (by omega), ← Nat.shiftLeft_add_eq_or_of_lt (by omega), ← Nat.shiftLeft_add_eq_or_of_lt (by omega)]
  simp only [Nat.shiftLeft_eq]; omega

/-- Word `w` of the words of a buffer: its four bytes, those past the end zero (R31). -/
theorem leWords_get (bs : List Byte) (w : Nat) (h : w < (leWords bs).length) :
  (leWords bs)[w]? = some (leWord (bs.getD (4*w) 0) (bs.getD (4*w+1) 0) (bs.getD (4*w+2) 0) (bs.getD (4*w+3) 0)) := by
  fun_induction leWords bs generalizing w with
  | case1 => simp at h
  | case2 b0 => simp at h; subst h; simp
  | case3 b0 b1 => simp at h; subst h; simp
  | case4 b0 b1 b2 => simp at h; subst h; simp
  | case5 b0 b1 b2 b3 rest ih =>
    cases w with
    | zero => simp
    | succ w =>
      simp at h
      have e1 : 4 * (w+1) = 4*w+1+1+1+1 := by ring
      have e2 : 4 * (w+1) + 1 = 4*w+1+1+1+1+1 := by ring
      have e3 : 4 * (w+1) + 2 = 4*w+2+1+1+1+1 := by ring
      have e4 : 4 * (w+1) + 3 = 4*w+3+1+1+1+1 := by ring
      rw [e4, e3, e2, e1]
      simp only [List.getElem?_cons_succ, List.getD_cons_succ]
      exact ih w h

/-- Write number `j` of a little-endian store of words: byte `j` modulo 4 of word `j / 4`, at the address plus `j` (R32, R34). -/
theorem writesAt_get (a : Word) (ws : List Half) (j : Nat) (hj : j < 4 * ws.length) :
   (writesAt a ws)[j]? = some (a + BitVec.ofNat 64 j, byteOf (ws.getD (j / 4) 0) (j % 4)) := by
  induction ws generalizing a j with
  | nil => simp at hj
  | cons w ws ih =>
    match j with
    | 0 => simp [writesAt]
    | 1 => simp [writesAt]
    | 2 => simp [writesAt]
    | 3 => simp [writesAt]
    | j + 4 =>
      simp only [writesAt, List.getElem?_cons_succ]
      rw [ih _ _ (by simp at hj; omega)]
      rw [show (j + 4) / 4 = j / 4 + 1 by omega, show (j + 4) % 4 = j % 4 by omega, List.getD_cons_succ]
      congr 2
      apply BitVec.eq_of_toNat_eq
      simp only [BitVec.toNat_add, BitVec.toNat_ofNat]; omega

@[simp] theorem writesAt_length (a : Word) (ws : List Half) : (writesAt a ws).length = 4 * ws.length := by
  induction ws generalizing a with
  | nil => rfl
  | cons w ws ih => simp [writesAt, ih]; ring

/-- Byte `k` of a word, as a number (R34). -/
theorem byteOf_eq (v : Half) (k : Nat) : byteOf v k = BitVec.ofNat 8 (v.toNat / 2 ^ (8 * k)) := by
  apply BitVec.eq_of_toNat_eq
  simp [byteOf, BitVec.extractLsb'_toNat, Nat.shiftRight_eq_div_pow]

@[simp] theorem fillWords_length (rt : Slot) (count : Word) (s : State) : (fillWords rt count s).length = count.toNat := by
  simp only [fillWords]; split <;> simp

end Sys2Proof.Machine
end

