-- ==== Sys2Proof/Laws/Exec.lean ====
section
/-! SUPPORT. What the shared operations of the commands can answer, and what a command can do to the state, said once. -/

namespace Sys2Proof.Machine

/-! ## Shared operations -/

/-- All that a checked accumulator index can lead to. -/
theorem withAcc_next {a : Slot} {s t : State} {go : Result} (h : withAcc a s go = .next t) :
    (a.toNat < s.params.na ∧ go = .next t) ∨ (¬ a.toNat < s.params.na ∧ t = s.raise .badSlot (a.setWidth 64)) := by
  simp only [withAcc] at h
  split at h
  · exact Or.inl ⟨‹_›, h⟩
  · cases h
    exact Or.inr ⟨‹_›, rfl⟩

/-- All that a checked generator index can lead to. -/
theorem withGen_next {g : Slot} {s t : State} {go : Result} (h : withGen g s go = .next t) :
    (g.toNat < s.params.ng ∧ go = .next t) ∨ (¬ g.toNat < s.params.ng ∧ t = s.raise .badSlot (g.setWidth 64)) := by
  simp only [withGen] at h
  split at h
  · exact Or.inl ⟨‹_›, h⟩
  · cases h
    exact Or.inr ⟨‹_›, rfl⟩

theorem withAcc_ok {a : Slot} {s : State} (go : Result) (h : a.toNat < s.params.na) : withAcc a s go = go := if_pos h
theorem withAcc_bad {a : Slot} {s : State} (go : Result) (h : ¬ a.toNat < s.params.na) :
    withAcc a s go = .next (s.raise .badSlot (a.setWidth 64)) := if_neg h
theorem withGen_ok {g : Slot} {s : State} (go : Result) (h : g.toNat < s.params.ng) : withGen g s go = go := if_pos h
theorem withGen_bad {g : Slot} {s : State} (go : Result) (h : ¬ g.toNat < s.params.ng) :
    withGen g s go = .next (s.raise .badSlot (g.setWidth 64)) := if_neg h

/-- A stopped access answers a next state only by a `BusFault`. -/
theorem stopAcc_next {rt : Slot} {stop : Stop} {s t : State} (h : stopAcc rt stop s = .next t) :
    ∃ a, stop = .bus a ∧ t = s.raiseBusAcc rt a := by
  cases stop with
  | bus a => cases h; exact ⟨a, rfl, rfl⟩
  | device a => cases h

/-- A stopped access answers a next state only by a `BusFault`. -/
theorem stopGen_next {rt : Slot} {stop : Stop} {s t : State} (h : stopGen rt stop s = .next t) :
    ∃ a, stop = .bus a ∧ t = s.raiseBusGen rt a := by
  cases stop with
  | bus a => cases h; exact ⟨a, rfl, rfl⟩
  | device a => cases h

/-! ## `L` and `K` -/

theorem ceilDiv64_eq (x : Word) : ceilDiv64 x = (x.toNat + 63) / 64 := by
  have hx := x.isLt
  simp only [ceilDiv64, BitVec.toNat_ushiftRight, Nat.shiftRight_eq_div_pow]
  have hz : (x.extractLsb' 0 6 = 0#6) ↔ x.toNat % 64 = 0 := by
    rw [← BitVec.toNat_inj]
    simp [BitVec.extractLsb'_toNat]
  by_cases h : x.toNat % 64 = 0
  · rw [if_pos (hz.mpr h)]
    omega
  · rw [if_neg (fun e => h (hz.mp e))]
    omega

theorem lanesWanted_eq (bits : Word) : lanesWanted bits = 2 * ((bits.toNat + 63) / 64) := by
  rw [lanesWanted, ceilDiv64_eq]

theorem lanesWanted_even (bits : Word) : lanesWanted bits % 2 = 0 := by
  rw [lanesWanted]
  omega

theorem lanesWanted_pos (bits : Word) (h : bits ≠ 0#64) : 2 ≤ lanesWanted bits := by
  have : bits.toNat ≠ 0 := fun e => h (BitVec.eq_of_toNat_eq e)
  rw [lanesWanted_eq]
  omega

theorem keysWanted_even (size : Word) : keysWanted size % 2 = 0 := by
  rw [keysWanted]
  omega

theorem keysWanted_pos (size : Word) (h : size ≠ 0#64) : 2 ≤ keysWanted size := by
  have : size.toNat ≠ 0 := fun e => h (BitVec.eq_of_toNat_eq e)
  rw [keysWanted]
  omega

/-! ## What a command can do -/

/-- Where the value a command writes into an accumulator context can come from. -/
inductive AccSource (s : State) : Option Acc → Prop where
  /-- "No object". -/
  | noObject : AccSource s none
  /-- A creation of a legal size. -/
  | created (n : Nat) : n % 2 = 0 → 2 ≤ n → n ≤ s.params.lmax → AccSource s (some (freshAcc s.params n))
  /-- An accumulator the state holds, with the same number of lanes. -/
  | derived (rs : Slot) (a b : Acc) : s.acc rs = some a → b.lanes.length = a.lanes.length → AccSource s (some b)

/-- Where the value a command writes into a generator context can come from. -/
inductive GenSource (s : State) : Option Gen → Prop where
  /-- "No object". -/
  | noObject : GenSource s none
  /-- Raw keys of a legal number, at the start of the stream. -/
  | created (ks : List Half) : ks.length % 2 = 0 → 2 ≤ ks.length → ks.length ≤ s.params.lmax →
      GenSource s (some ⟨s.params.startOut, ks⟩)
  /-- The finalization of an accumulator the state holds. -/
  | finalized (rs : Slot) (a : Acc) : s.acc rs = some a → GenSource s (some (finalize s.params a))
  /-- A generator the state holds, with the same keys. -/
  | derived (rs : Slot) (g h : Gen) : s.gen rs = some g → h.keys = g.keys → GenSource s (some h)

/-- What a command can do to the state when it answers a next state. -/
inductive Effect (i : Instr) (s : State) : State → Prop where
  /-- A fault raised before anything changed (R122). -/
  | raised (c : Cause) (w : Word) : c ≠ .busFault → Effect i s (s.raise c w)
  /-- A `BusFault` of a command that names an accumulator. -/
  | busAcc (rt : Slot) (w : Word) : (Bank.acc, rt) ∈ i.slots → Effect i s (s.raiseBusAcc rt w)
  /-- A `BusFault` of a command that names a generator; the bytes stored before it stay. -/
  | busGen (rt : Slot) (w : Word) (ws : List (Word × Byte)) : (Bank.gen, rt) ∈ i.slots →
      (ws = [] ∨ ∃ addr count, i = .genFill rt addr count ∧ ws = writesAt addr (fillWords rt count s)) →
      Effect i s ((s.setMem (storeBytes s.params s.mem ws).1).raiseBusGen rt w)
  /-- Only `LAST`. -/
  | completed (last : Last) : Effect i s (s.complete last)
  /-- A value in `RES`. -/
  | valued (last : Last) (v : Word) : Effect i s ((s.setRes v).complete last)
  /-- An accumulator context. -/
  | wroteAcc (last : Last) (rt : Slot) (x : Option Acc) : (Bank.acc, rt) ∈ i.slots → rt.toNat < s.params.na → AccSource s x →
      Effect i s ((s.setAcc rt x).complete last)
  /-- A generator context. -/
  | wroteGen (last : Last) (rt : Slot) (x : Option Gen) : (Bank.gen, rt) ∈ i.slots → rt.toNat < s.params.ng → GenSource s x →
      Effect i s ((s.setGen rt x).complete last)
  /-- A generator context and a value in `RES`. -/
  | wroteGenValued (last : Last) (rt : Slot) (x : Option Gen) (v : Word) : (Bank.gen, rt) ∈ i.slots → rt.toNat < s.params.ng → GenSource s x →
      Effect i s (((s.setGen rt x).setRes v).complete last)
  /-- A generator context and the bytes of `GEN.FILL`. -/
  | filled (last : Last) (rt : Slot) (x : Option Gen) (addr count : Word) : i = .genFill rt addr count → rt.toNat < s.params.ng →
      GenSource s x →
      Effect i s (((s.setGen rt x).setMem (storeBytes s.params s.mem (writesAt addr (fillWords rt count s))).1).complete last)

theorem digest_effect {i : Instr} {rt : Slot} {s t : State} {f : Acc → Acc} (hi : (Bank.acc, rt) ∈ i.slots)
    (hl : ∀ a, (f a).lanes.length = a.lanes.length) (h : digest rt s f = .next t) : Effect i s t := by
  rcases withAcc_next h with ⟨hn, h⟩ | ⟨_, rfl⟩
  · split at h
    · cases h; exact .completed _
    · rename_i a ha
      cases h
      exact .wroteAcc _ rt _ hi hn (.derived rt a (f a) ha (hl a))
  · exact .raised _ _ (by simp)

theorem digestBytes_effect {i : Instr} {rt : Slot} {addr : Word} {n : Nat} {a b : Acc} {s t : State} (hi : (Bank.acc, rt) ∈ i.slots)
    (hn : rt.toNat < s.params.na) (ha : s.acc rt = some a) (hl : b.lanes.length = a.lanes.length)
    (h : digestBytes rt addr n b s = .next t) : Effect i s t := by
  simp only [digestBytes] at h
  split at h
  · obtain ⟨w, _, rfl⟩ := stopAcc_next h
    exact .busAcc rt w hi
  · cases h
    exact .wroteAcc _ rt _ hi hn (.derived rt a _ ha (by rw [foldWords_length, hl]))

/-- Every next state of a command is one of the effects above. -/
theorem exec_effect {i : Instr} {s t : State} (h : exec i s = .next t) : Effect i s t := by
  cases i with
  | nop => cases h; exact .completed _
  | accCreate rt bits =>
    rcases withAcc_next h with ⟨hn, h⟩ | ⟨_, rfl⟩
    · split at h
      · cases h; exact .wroteAcc _ rt _ (by simp [Instr.slots]) hn .noObject
      · split at h
        · cases h; exact .raised _ _ (by simp)
        · rename_i hb hc
          cases h
          exact .wroteAcc _ rt _ (by simp [Instr.slots]) hn
            (.created _ (lanesWanted_even bits) (lanesWanted_pos bits hb) (Nat.le_of_not_lt hc))
    · exact .raised _ _ (by simp)
  | accClone rd rs =>
    rcases withAcc_next h with ⟨hn, h⟩ | ⟨_, rfl⟩
    · rcases withAcc_next h with ⟨_, h⟩ | ⟨_, rfl⟩
      · split at h
        · cases h; exact .wroteAcc _ rd _ (by simp [Instr.slots]) hn .noObject
        · rename_i a ha
          cases h; exact .wroteAcc _ rd _ (by simp [Instr.slots]) hn (.derived rs a a ha rfl)
      · exact .raised _ _ (by simp)
    · exact .raised _ _ (by simp)
  | accFree rt =>
    rcases withAcc_next h with ⟨hn, h⟩ | ⟨_, rfl⟩
    · split at h
      · cases h; exact .completed _
      · cases h; exact .wroteAcc _ rt _ (by simp [Instr.slots]) hn .noObject
    · exact .raised _ _ (by simp)
  | accLen rt =>
    rcases withAcc_next h with ⟨hn, h⟩ | ⟨_, rfl⟩
    · split at h <;> cases h <;> exact .valued _ _
    · exact .raised _ _ (by simp)
  | accLane rt lane =>
    rcases withAcc_next h with ⟨hn, h⟩ | ⟨_, rfl⟩
    · split at h
      · cases h; exact .valued _ _
      · split at h
        · cases h; exact .raised _ _ (by simp)
        · cases h; exact .valued _ _
    · exact .raised _ _ (by simp)
  | updU32 rt value => exact digest_effect (by simp [Instr.slots]) (by simp) h
  | updU64 rt value => exact digest_effect (by simp [Instr.slots]) (by simp) h
  | updF32 rt pattern => exact digest_effect (by simp [Instr.slots]) (by simp) h
  | updF64 rt pattern => exact digest_effect (by simp [Instr.slots]) (by simp) h
  | updPtr rt value => exact digest_effect (by simp [Instr.slots]) (by simp) h
  | updBuf rt addr len =>
    rcases withAcc_next h with ⟨hn, h⟩ | ⟨_, rfl⟩
    · split at h
      · cases h; exact .completed _
      · rename_i a ha
        split at h
        · cases h; exact .raised _ _ (by simp)
        · exact digestBytes_effect (by simp [Instr.slots]) hn ha (by simp) h
    · exact .raised _ _ (by simp)
  | updStr rt addr =>
    rcases withAcc_next h with ⟨hn, h⟩ | ⟨_, rfl⟩
    · split at h
      · cases h; exact .completed _
      · rename_i a ha
        split at h
        · obtain ⟨w, _, rfl⟩ := stopAcc_next h
          exact .busAcc rt w (by simp [Instr.slots])
        · simp only [unterminated] at h
          split at h <;> cases h
          exact .raised _ _ (by simp)
        · exact digestBytes_effect (by simp [Instr.slots]) hn ha (by simp) h
    · exact .raised _ _ (by simp)
  | updObj rt addr len =>
    rcases withAcc_next h with ⟨hn, h⟩ | ⟨_, rfl⟩
    · split at h
      · cases h; exact .completed _
      · rename_i a ha
        exact digestBytes_effect (by simp [Instr.slots]) hn ha rfl h
    · exact .raised _ _ (by simp)
  | genFromAcc rd rs =>
    rcases withGen_next h with ⟨hn, h⟩ | ⟨_, rfl⟩
    · rcases withAcc_next h with ⟨_, h⟩ | ⟨_, rfl⟩
      · split at h
        · cases h; exact .wroteGen _ rd _ (by simp [Instr.slots]) hn .noObject
        · rename_i a ha
          cases h; exact .wroteGen _ rd _ (by simp [Instr.slots]) hn (.finalized rs a ha)
      · exact .raised _ _ (by simp)
    · exact .raised _ _ (by simp)
  | genCreate rt addr size =>
    rcases withGen_next h with ⟨hn, h⟩ | ⟨_, rfl⟩
    · split at h
      · cases h; exact .wroteGen _ rt _ (by simp [Instr.slots]) hn .noObject
      · rename_i hz
        split at h
        · cases h; exact .raised _ _ (by simp)
        · rename_i hc
          split at h
          · obtain ⟨w, _, rfl⟩ := stopGen_next h
            exact .busGen rt w [] (by simp [Instr.slots]) (Or.inl rfl)
          · rename_i bs hbs
            cases h
            have hlen : (padEven (leWords bs)).length = keysWanted size := by
              rw [padEven_length, leWords_length_of_four bs size.toNat (by rw [(readBytes_ok hbs).1]; simp), keysWanted]
            refine .wroteGen _ rt _ (by simp [Instr.slots]) hn (.created _ ?_ ?_ ?_) <;> rw [hlen]
            · exact keysWanted_even size
            · exact keysWanted_pos size hz
            · exact Nat.le_of_not_lt hc
    · exact .raised _ _ (by simp)
  | genClone rd rs =>
    rcases withGen_next h with ⟨hn, h⟩ | ⟨_, rfl⟩
    · rcases withGen_next h with ⟨_, h⟩ | ⟨_, rfl⟩
      · split at h
        · cases h; exact .wroteGen _ rd _ (by simp [Instr.slots]) hn .noObject
        · rename_i g hg
          cases h; exact .wroteGen _ rd _ (by simp [Instr.slots]) hn (.derived rs g g hg rfl)
      · exact .raised _ _ (by simp)
    · exact .raised _ _ (by simp)
  | genFree rt =>
    rcases withGen_next h with ⟨hn, h⟩ | ⟨_, rfl⟩
    · split at h
      · cases h; exact .completed _
      · cases h; exact .wroteGen _ rt _ (by simp [Instr.slots]) hn .noObject
    · exact .raised _ _ (by simp)
  | genLen rt =>
    rcases withGen_next h with ⟨hn, h⟩ | ⟨_, rfl⟩
    · split at h <;> cases h <;> exact .valued _ _
    · exact .raised _ _ (by simp)
  | genKey rt j =>
    rcases withGen_next h with ⟨hn, h⟩ | ⟨_, rfl⟩
    · split at h
      · cases h; exact .valued _ _
      · split at h
        · cases h; exact .raised _ _ (by simp)
        · cases h; exact .valued _ _
    · exact .raised _ _ (by simp)
  | genNext rt =>
    rcases withGen_next h with ⟨hn, h⟩ | ⟨_, rfl⟩
    · split at h
      · cases h; exact .valued _ _
      · rename_i g hg
        cases h
        exact .wroteGenValued _ rt _ _ (by simp [Instr.slots]) hn (.derived rt g _ hg rfl)
    · exact .raised _ _ (by simp)
  | genFill rt addr count =>
    rcases withGen_next h with ⟨hn, h⟩ | ⟨_, rfl⟩
    · split at h
      · obtain ⟨w, _, rfl⟩ := stopGen_next h
        exact .busGen rt w _ (by simp [Instr.slots]) (Or.inr ⟨addr, count, rfl, rfl⟩)
      · cases h
        refine .filled _ rt _ addr count rfl hn ?_
        simp only [filledGen]
        cases hg : s.gen rt with
        | none => exact .noObject
        | some g => exact .derived rt g _ hg (seeds_keys _ _ g)
    · exact .raised _ _ (by simp)
  | genRestart rt =>
    rcases withGen_next h with ⟨hn, h⟩ | ⟨_, rfl⟩
    · split at h
      · cases h; exact .valued _ _
      · rename_i g hg
        cases h
        exact .wroteGenValued _ rt _ _ (by simp [Instr.slots]) hn (.derived rt g _ hg rfl)
    · exact .raised _ _ (by simp)

end Sys2Proof.Machine
end

