-- ==== Sys2Proof/Laws/PerInstr.lean ====
section
/-! SUPPORT. Statements about every command as syntax, one lemma per constructor. -/

namespace Sys2Proof.Laws

/-- The encoder puts every context field of the command into its place of the control word, in the order R51 step 3 checks them, and leaves
the reserved bits 31:16 zero (R47, R48). -/
def EncodeFields.Statement (i : Instr) : Prop :=
  i.slots.map Prod.snd = [(encode i).rt, (encode i).rs].take i.slots.length ∧ (encode i).cw.extractLsb' 16 16 = 0#16

theorem EncodeFields.nop : EncodeFields.Statement .nop := by
  simp [EncodeFields.Statement, encode, Instr.slots]

theorem EncodeFields.accCreate (rt : Slot) (bits : Word) : EncodeFields.Statement (.accCreate rt bits) := by
  simp [EncodeFields.Statement, encode, Instr.slots]

theorem EncodeFields.accClone (rd rs : Slot) : EncodeFields.Statement (.accClone rd rs) := by
  simp [EncodeFields.Statement, encode, Instr.slots]

theorem EncodeFields.accFree (rt : Slot) : EncodeFields.Statement (.accFree rt) := by
  simp [EncodeFields.Statement, encode, Instr.slots]

theorem EncodeFields.accLen (rt : Slot) : EncodeFields.Statement (.accLen rt) := by
  simp [EncodeFields.Statement, encode, Instr.slots]

theorem EncodeFields.accLane (rt : Slot) (i : Word) : EncodeFields.Statement (.accLane rt i) := by
  simp [EncodeFields.Statement, encode, Instr.slots]

theorem EncodeFields.updU32 (rt : Slot) (value : Half) : EncodeFields.Statement (.updU32 rt value) := by
  simp [EncodeFields.Statement, encode, Instr.slots]

theorem EncodeFields.updU64 (rt : Slot) (value : Word) : EncodeFields.Statement (.updU64 rt value) := by
  simp [EncodeFields.Statement, encode, Instr.slots]

theorem EncodeFields.updF32 (rt : Slot) (pattern : Half) : EncodeFields.Statement (.updF32 rt pattern) := by
  simp [EncodeFields.Statement, encode, Instr.slots]

theorem EncodeFields.updF64 (rt : Slot) (pattern : Word) : EncodeFields.Statement (.updF64 rt pattern) := by
  simp [EncodeFields.Statement, encode, Instr.slots]

theorem EncodeFields.updPtr (rt : Slot) (value : Word) : EncodeFields.Statement (.updPtr rt value) := by
  simp [EncodeFields.Statement, encode, Instr.slots]

theorem EncodeFields.updBuf (rt : Slot) (addr len : Word) : EncodeFields.Statement (.updBuf rt addr len) := by
  simp [EncodeFields.Statement, encode, Instr.slots]

theorem EncodeFields.updStr (rt : Slot) (addr : Word) : EncodeFields.Statement (.updStr rt addr) := by
  simp [EncodeFields.Statement, encode, Instr.slots]

theorem EncodeFields.updObj (rt : Slot) (addr len : Word) : EncodeFields.Statement (.updObj rt addr len) := by
  simp [EncodeFields.Statement, encode, Instr.slots]

theorem EncodeFields.genFromAcc (rd rs : Slot) : EncodeFields.Statement (.genFromAcc rd rs) := by
  simp [EncodeFields.Statement, encode, Instr.slots]

theorem EncodeFields.genCreate (rt : Slot) (addr size : Word) : EncodeFields.Statement (.genCreate rt addr size) := by
  simp [EncodeFields.Statement, encode, Instr.slots]

theorem EncodeFields.genClone (rd rs : Slot) : EncodeFields.Statement (.genClone rd rs) := by
  simp [EncodeFields.Statement, encode, Instr.slots]

theorem EncodeFields.genFree (rt : Slot) : EncodeFields.Statement (.genFree rt) := by
  simp [EncodeFields.Statement, encode, Instr.slots]

theorem EncodeFields.genLen (rt : Slot) : EncodeFields.Statement (.genLen rt) := by
  simp [EncodeFields.Statement, encode, Instr.slots]

theorem EncodeFields.genKey (rt : Slot) (j : Word) : EncodeFields.Statement (.genKey rt j) := by
  simp [EncodeFields.Statement, encode, Instr.slots]

theorem EncodeFields.genNext (rt : Slot) : EncodeFields.Statement (.genNext rt) := by
  simp [EncodeFields.Statement, encode, Instr.slots]

theorem EncodeFields.genFill (rt : Slot) (addr count : Word) : EncodeFields.Statement (.genFill rt addr count) := by
  simp [EncodeFields.Statement, encode, Instr.slots]

theorem EncodeFields.genRestart (rt : Slot) : EncodeFields.Statement (.genRestart rt) := by
  simp [EncodeFields.Statement, encode, Instr.slots]

end Sys2Proof.Laws
end

