-- ==== Sys2Proof/Laws/Step.lean ====
section
/-! SUPPORT. What a step and an act of the host can do, said once. -/

namespace Sys2Proof.Machine

/-- All that a step can do: nothing when the host has no act pending, else the next act. -/
theorem step_next {s t : State} (h : step s = .next t) :
    t = s ∨ ∃ i rest s', s' = { s with inputs := rest } ∧ s.inputs = i :: rest ∧ act i s' = .next t := by
  simp only [step] at h
  split at h
  · cases h; exact Or.inl rfl
  · exact Or.inr ⟨_, _, _, rfl, by assumption, h⟩

/-- All that an act of the host can do when it answers a next state. -/
theorem act_next {i : Input} {s t : State} (h : act i s = .next t) :
    t = s ∨ (s.status.fault = false ∧ ∃ p j, i = .submit p ∧ decode p = .ok j ∧ exec j s = .next t) ∨
    (s.status.fault = false ∧ ∃ w, t = s.raise .illegalCommand w) ∨ (∃ v, t = { s with observed := v }) ∨
    (∃ ws, t = (s.setMem (storeBytes s.params s.mem ws).1).resetEvent) ∨ (∃ a b, t = hostWrite a b s) := by
  cases i with
  | submit p =>
    simp only [act, submit] at h
    split at h
    · cases h; exact Or.inl rfl
    · rename_i hf
      have hf : s.status.fault = false := by simpa using hf
      split at h
      · cases h; exact Or.inr (Or.inr (Or.inl ⟨hf, _, rfl⟩))
      · exact Or.inr (Or.inl ⟨hf, p, _, rfl, by assumption, h⟩)
  | observe n =>
    simp only [act, observe] at h
    split at h <;> cases h
    exact Or.inr (Or.inr (Or.inr (Or.inl ⟨_, rfl⟩)))
  | reset =>
    cases h
    exact Or.inr (Or.inr (Or.inr (Or.inr (Or.inl ⟨[], rfl⟩))))
  | resetDuring p k =>
    have hr : s.resetEvent = (s.setMem (storeBytes s.params s.mem []).1).resetEvent := rfl
    simp only [act, submitThenReset] at h
    split at h
    · cases h; exact Or.inr (Or.inr (Or.inr (Or.inr (Or.inl ⟨[], rfl⟩))))
    · split at h
      · cases h; exact Or.inr (Or.inr (Or.inr (Or.inr (Or.inl ⟨[], rfl⟩))))
      · split at h
        · cases h
        · cases h; exact Or.inr (Or.inr (Or.inr (Or.inr (Or.inl ⟨_, rfl⟩))))
  | hostWrite a b => cases h; exact Or.inr (Or.inr (Or.inr (Or.inr (Or.inr ⟨a, b, rfl⟩))))
  | hostRead a => cases h; exact Or.inr (Or.inr (Or.inr (Or.inl ⟨_, rfl⟩)))

end Sys2Proof.Machine
end

