-- ==== Sys2Proof/Tests/Slice0.lean ====
section
/-! SUPPORT. The smoke tests of WellFormed, the decoding of words written out from the spec's encoding, the spec's own vectors, one step each,
and a witness for the hypotheses of every statement that has some. -/

namespace Sys2Proof.Tests

open Sys2Proof.Machine Sys2Proof.Claims

/-! ## The instances and the states the tests use -/

/-- TP0 with the framing parameters of the vectors (95_test_vectors.md section 1). -/
def tp0 : Params := ⟨1, 3, 5, 7, 0x100000001, 0x100000001, 4, 4, 16, .w32, []⟩

/-- TP1 with the same framing parameters. -/
def tp1 : Params :=
  ⟨0x0123456789ABCDEF, 0x9E3779B97F4A7C15, 0xFEDCBA9876543211, 0xD1B54A32D192ED03, 0x62A9D9ED799705F5, 0xCB24D0A5C88C35B3, 4, 4, 16, .w32, []⟩

/-- TP0 with `LENW = 64`. -/
def tp064 : Params := { tp0 with lenW := .w64 }

/-- TP0 where no access succeeds from `0x1004` on (vectors X16, X17). -/
def tpBus : Params := { tp0 with regions := [⟨0x1004, 0xFFFFFFFFFFFFFFFF, .noRead⟩, ⟨0x1004, 0xFFFFFFFFFFFFFFFF, .noWrite⟩] }

/-- TP0 with a device from `0x1004` on. -/
def tpDev : Params := { tp0 with regions := [⟨0x1004, 0xFFFFFFFFFFFFFFFF, .device⟩] }

/-- Bytes from an address on. -/
def load (a : Nat) : List Byte → Memory → Memory
  | [], m => m
  | b :: bs, m => load (a + 1) bs (Memory.write m a b)

/-- The state the update vectors start from, after `ACC.CREATE a0, 64` (97_test_vectors_commands.md section 2), with bytes in memory. -/
def accState (p : Params) (a : Nat) (bs : List Byte) : State :=
  ((State.resetOf p).setAcc 0#4 (some (freshAcc p 2))).setMem (load a bs [])

/-- The state after vector G4: `g0` holds the keys 1, 2, 3, 0. -/
def genState (p : Params) : State := (State.resetOf p).setGen 0#4 (some ⟨p.startOut, [1, 2, 3, 0]⟩)

/-- A state with a context of each kind in the last place the instance has. -/
def full (p : Params) : State := ((State.resetOf p).setAcc 3#4 (some (freshAcc p 2))).setGen 3#4 (some ⟨p.startOut, [1, 2]⟩)

/-- `RES`, `LAST` and `FAULT` after a command. -/
def resOf : Result → Option (Word × Last × Bool)
  | .next t => some (t.res, t.status.last, t.status.fault)
  | _ => none

/-- An accumulator context and `LAST` after a command. -/
def accOf (a : Slot) : Result → Option (Option Acc × Last)
  | .next t => some (t.acc a, t.status.last)
  | _ => none

/-- A generator context and `LAST` after a command. -/
def genOf (g : Slot) : Result → Option (Option Gen × Last)
  | .next t => some (t.gen g, t.status.last)
  | _ => none

/-- `FAULT`, `CAUSE` and `INFO` after a command. -/
def faultOf : Result → Option (Bool × Word × Word)
  | .next t => some (t.status.fault, t.cause, t.info)
  | _ => none

/-- Bytes of memory after a command. -/
def bytesOf (a n : Nat) : Result → Option (List Byte)
  | .next t => some ((List.range n).map fun k => Memory.read t.mem (a + k))
  | _ => none

/-! ## WellFormed refuses what is ill-formed -/

theorem test_wf_tp0 : tp0.wf = true := by decide
theorem test_wf_tp1 : tp1.wf = true := by decide
theorem test_wf_even_constant : ({ tp0 with incIn := 2 } : Params).constantsOdd = false := by decide
theorem test_wf_even_constant_refused : ({ tp0 with mixM2 := 4 } : Params).wf = false := by decide
theorem test_wf_same_pairs : ({ tp0 with startOut := 1, incOut := 3 } : Params).pairsSeparate = false := by decide
theorem test_wf_same_pairs_refused : ({ tp0 with startOut := 1, incOut := 3 } : Params).wf = false := by decide
theorem test_wf_no_contexts : ({ tp0 with na := 0 } : Params).countsInRange = false := by decide
theorem test_wf_too_many_contexts_refused : ({ tp0 with ng := 17 } : Params).wf = false := by decide
theorem test_wf_odd_lmax : ({ tp0 with lmax := 15 } : Params).lmaxInRange = false := by decide
theorem test_wf_lmax_too_large_refused : ({ tp0 with lmax := 65538 } : Params).wf = false := by decide
theorem test_wf_bad_target : Instr.wf tp0 (.accCreate 4#4 64#64) = false := by decide
theorem test_wf_bad_source : Instr.wf tp0 (.genFromAcc 3#4 4#4) = false := by decide
theorem test_wf_last_slots : Instr.wf tp0 (.genFromAcc 3#4 3#4) = true := by decide
theorem test_wf_bad_slot_order : Instr.firstBadSlot tp0 (.genFromAcc 5#4 7#4) = some 5#4 := by decide

/-! ## Decoding: a word for every command, written out from R47 to R50; they are the vectors K1 to K27 of 96_test_vectors.md section 3 -/

theorem test_decode_nop : decode ⟨0x00000000#32, 0#64, 0#64⟩ = .ok .nop := by decide
theorem test_decode_accCreate : decode ⟨0x00000010#32, 0x100#64, 0#64⟩ = .ok (.accCreate 0#4 0x100#64) := by decide
theorem test_decode_accClone : decode ⟨0x00002311#32, 0#64, 0#64⟩ = .ok (.accClone 3#4 2#4) := by decide
theorem test_decode_accFree : decode ⟨0x00000312#32, 0#64, 0#64⟩ = .ok (.accFree 3#4) := by decide
theorem test_decode_accLen : decode ⟨0x00000213#32, 0#64, 0#64⟩ = .ok (.accLen 2#4) := by decide
theorem test_decode_accLane : decode ⟨0x00000114#32, 7#64, 0#64⟩ = .ok (.accLane 1#4 7#64) := by decide
theorem test_decode_updU32 : decode ⟨0x00000020#32, 0xFFFFFFFF#64, 0#64⟩ = .ok (.updU32 0#4 0xFFFFFFFF#32) := by decide
theorem test_decode_updU64 : decode ⟨0x00000121#32, 0x1122334455667788#64, 0#64⟩ = .ok (.updU64 1#4 0x1122334455667788#64) := by decide
theorem test_decode_updF32 : decode ⟨0x00000222#32, 0x3F800000#64, 0#64⟩ = .ok (.updF32 2#4 0x3F800000#32) := by decide
theorem test_decode_updF64 : decode ⟨0x00000323#32, 0x3FF0000000000000#64, 0#64⟩ = .ok (.updF64 3#4 0x3FF0000000000000#64) := by decide
theorem test_decode_updPtr : decode ⟨0x00000024#32, 0x00007FFF12345678#64, 0#64⟩ = .ok (.updPtr 0#4 0x00007FFF12345678#64) := by decide
theorem test_decode_updBuf : decode ⟨0x00000225#32, 0x1000#64, 5#64⟩ = .ok (.updBuf 2#4 0x1000#64 5#64) := by decide
theorem test_decode_updStr : decode ⟨0x00000126#32, 0x2000#64, 0#64⟩ = .ok (.updStr 1#4 0x2000#64) := by decide
theorem test_decode_updObj : decode ⟨0x00000327#32, 0x1000#64, 5#64⟩ = .ok (.updObj 3#4 0x1000#64 5#64) := by decide
theorem test_decode_genFromAcc : decode ⟨0x00003230#32, 0#64, 0#64⟩ = .ok (.genFromAcc 2#4 3#4) := by decide
theorem test_decode_genCreate : decode ⟨0x00000131#32, 0x4000#64, 3#64⟩ = .ok (.genCreate 1#4 0x4000#64 3#64) := by decide
theorem test_decode_genClone : decode ⟨0x0000EF32#32, 0#64, 0#64⟩ = .ok (.genClone 15#4 14#4) := by decide
theorem test_decode_genFree : decode ⟨0x00000333#32, 0#64, 0#64⟩ = .ok (.genFree 3#4) := by decide
theorem test_decode_genLen : decode ⟨0x00000034#32, 0#64, 0#64⟩ = .ok (.genLen 0#4) := by decide
theorem test_decode_genKey : decode ⟨0x00000035#32, 3#64, 0#64⟩ = .ok (.genKey 0#4 3#64) := by decide
theorem test_decode_genNext : decode ⟨0x00000236#32, 0#64, 0#64⟩ = .ok (.genNext 2#4) := by decide
theorem test_decode_genFill : decode ⟨0x00000037#32, 0x3000#64, 2#64⟩ = .ok (.genFill 0#4 0x3000#64 2#64) := by decide
theorem test_decode_genRestart : decode ⟨0x00000138#32, 0#64, 0#64⟩ = .ok (.genRestart 1#4) := by decide

/-- Ignored operand halves and words can be anything (R49; vector U4). -/
theorem test_decode_ignores : decode ⟨0x00000020#32, 0xABCDEF0100000001#64, 9#64⟩ = .ok (.updU32 0#4 1#32) := by decide
/-- KD4, KD5 and KD6. -/
theorem test_decode_unknown : [0x01#32, 0x39#32, 0xFF#32].map (fun w => decode ⟨w, 0#64, 0#64⟩) =
    [.error (.unknownOpcode 0x01#8), .error (.unknownOpcode 0x39#8), .error (.unknownOpcode 0xFF#8)] := by decide
/-- KD7 to KD11. -/
theorem test_decode_reserved :
    [0x00010000#32, 0x80000036#32, 0x00000100#32, 0x00001012#32, 0x00001020#32].map (fun w => decode ⟨w, 0#64, 0#64⟩) =
    [.error (.reservedBits 0x00010000#32), .error (.reservedBits 0x80000036#32), .error (.reservedBits 0x00000100#32),
     .error (.reservedBits 0x00001012#32), .error (.reservedBits 0x00001020#32)] := by decide
/-- The table's words through the host's entry point: `GEN.FILL` with every operand bit above `CW` zero. -/
theorem test_decodeTableWord : decodeTableWord 32 0x0237 = some (.genFill 2#4 0#64 0#64) := by decide
/-- The packet of K13 encodes as the vector says. -/
theorem test_encode_updBuf : encode (.updBuf 2#4 0x1000#64 5#64) = ⟨0x00000225#32, 0x1000#64, 5#64⟩ := by decide

/-! ## The units: vectors M5, M8, F8, F16, E5 -/

theorem test_mac_wraps : macStep 0#64 0xFFFFFFFFFFFFFFFF#64 0xFFFFFFFF#32 = 0xFFFFFFFF00000001#64 := by decide
theorem test_mac : macStep 0x0123456789ABCDEF#64 0x9E3779B97F4A7C15#64 0xDEADBEEF#32 = 0x020332FEB87E3B8A#64 := by decide
theorem test_finalmix_tp0 : finalmix tp0 0xDEADBEEFCAFEF00D#64 = 0x654CB841#32 := by decide
theorem test_finalmix_tp1 : finalmix tp1 0xDEADBEEFCAFEF00D#64 = 0x52600614#32 := by decide
theorem test_polyEval : polyEval tp1 0xFEDCBA9876543211#64 [1, 2, 3, 0] = (0x17672D968E32D320#64, 0x2BE830566D5ACFB6#64) := by decide

/-! ## The commands: vectors of 96_test_vectors.md and 97_test_vectors_commands.md, one step each -/

/-- Y2: `NOP` after a command that left `ZSIZE`. -/
theorem test_nop : resOf (exec .nop { State.resetOf tp0 with status := ⟨false, .zSize⟩ }) = some (0#64, .ok, false) := by decide
/-- A8. -/
theorem test_accCreate : accOf 0#4 (exec (.accCreate 0#4 65#64) (State.resetOf tp1)) =
    some (some ⟨0x7A012C4D86D5BE43, [0x9F5ABF2108F64A04, 0x3D9238DA8840C619, 0xDBC9B294078B422E, 0x7A012C4D86D5BE43]⟩, .ok) := by decide
/-- X10: `L = 2^59`, computed without overflow. -/
theorem test_accCreate_capacity : faultOf (exec (.accCreate 0#4 0xFFFFFFFFFFFFFFFF#64) (State.resetOf tp0)) =
    some (true, 3#64, 0x0800000000000000#64) := by decide
/-- A13, the clone. -/
theorem test_accClone : accOf 1#4 (exec (.accClone 1#4 0#4) (accState tp0 0 [])) = some (some ⟨7, [4, 7]⟩, .ok) := by decide
/-- X6: both out of range, `rd` is reported. -/
theorem test_accClone_badSlot : faultOf (exec (.accClone 9#4 10#4) (State.resetOf tp0)) = some (true, 2#64, 9#64) := by decide
/-- A17. -/
theorem test_accFree : accOf 0#4 (exec (.accFree 0#4) (accState tp0 0 [])) = some (none, .ok) := by decide
/-- A17, the second free. -/
theorem test_accFree_again : accOf 3#4 (exec (.accFree 3#4) (State.resetOf tp0)) = some (none, .noObj) := by decide
/-- X13, the second command. -/
theorem test_accLen : resOf (exec (.accLen 0#4) (accState tp0 0 [])) = some (2#64, .ok, false) := by decide
/-- A6: lane 1. -/
theorem test_accLane : resOf (exec (.accLane 0#4 1#64) (accState tp1 0 [])) = some (0x3D9238DA8840C619#64, .ok, false) := by decide
/-- X13, the third command. -/
theorem test_accLane_range : faultOf (exec (.accLane 0#4 2#64) (accState tp0 0 [])) = some (true, 4#64, 2#64) := by decide
/-- U3 under TP1. -/
theorem test_updU32 : accOf 0#4 (exec (.updU32 0#4 0xFFFFFFFF#32) (accState tp1 0 [])) =
    some (some ⟨0x7A012C4D86D5BE43, [0xCB1C4EBB016B07D6, 0x4A66CAD0016B07D6]⟩, .ok) := by decide
/-- U9 under TP1. -/
theorem test_updU64 : accOf 0#4 (exec (.updU64 0#4 0x1122334455667788#64) (accState tp1 0 [])) =
    some (some ⟨0xB6701FC0856AB66D, [0xAE771FFA0EE7DBD4, 0xCAFC150EBD1B2AA5]⟩, .ok) := by decide
/-- U16 under TP1: a NaN's pattern, kept as it is. -/
theorem test_updF32 : accOf 0#4 (exec (.updF32 0#4 0x7FC00001#32) (accState tp1 0 [])) =
    some (some ⟨0x7A012C4D86D5BE43, [0xD9E82FFB85018C32, 0x679C8ED9FE56845C]⟩, .ok) := by decide
/-- U17 under TP0. -/
theorem test_updF64 : accOf 0#4 (exec (.updF64 0#4 0x3FF0000000000000#64) (accState tp0 0 [])) =
    some (some ⟨0x13, [0x00000003FF000004, 0x00000004BED00007]⟩, .ok) := by decide
/-- U20 under TP1. -/
theorem test_updPtr : accOf 0#4 (exec (.updPtr 0#4 0x00007FFF12345678#64) (accState tp1 0 [])) =
    some (some ⟨0xB6701FC0856AB66D, [0x51485F071EDC893C, 0x9FAB963DBBC44114]⟩, .ok) := by decide
/-- B6 under TP1: a partial last word. -/
theorem test_updBuf : accOf 0#4 (exec (.updBuf 0#4 0x1000#64 5#64) (accState tp1 0x1000 [0x61, 0x62, 0x63, 0x64, 0x65])) =
    some (some ⟨0xF2DF133383FFAE97, [0x208C576BA2BF4D8C, 0xF9CFAC3DC5B93848]⟩, .ok) := by decide +kernel
/-- B17: the length folded at 64 bits. -/
theorem test_updBuf_len64 : accOf 0#4 (exec (.updBuf 0#4 0x1000#64 2#64) (accState tp064 0x1000 [0x61, 0x62])) =
    some (some ⟨0x19, [0x000000000008746E, 0x0000000000099B9A]⟩, .ok) := by decide +kernel
/-- B10 under TP1. -/
theorem test_updStr : accOf 0#4 (exec (.updStr 0#4 0x2000#64) (accState tp1 0x2000 [0x61, 0x62])) =
    some (some ⟨0xB6701FC0856AB66D, [0x33F3BD4AC09899B8, 0x3E384C7AFD311BEC]⟩, .ok) := by decide +kernel
/-- X17: the scan stops at the first refused byte. -/
theorem test_updStr_bus : faultOf (exec (.updStr 0#4 0x1000#64) (accState tpBus 0x1000 [1, 2, 3, 4])) = some (true, 6#64, 0x1004#64) := by
  decide +kernel
/-- B16: an unaligned address. -/
theorem test_updObj : accOf 0#4 (exec (.updObj 0#4 0x1001#64 4#64) (accState tp0 0x1000 [0x61, 0x62, 0x63, 0x64, 0x65])) =
    some (some ⟨0xD, [0x00000003F5EBE1D8, 0x0000000526190C01]⟩, .ok) := by decide +kernel
/-- G2 under TP1. -/
theorem test_genFromAcc : genOf 0#4 (exec (.genFromAcc 0#4 0#4) (accState tp1 0 [])) =
    some (some ⟨0xFEDCBA9876543211, [0x2734A247, 0x4E69448F]⟩, .ok) := by decide
/-- X7: the `GEN[]` index is checked before the `ACC[]` index. -/
theorem test_genFromAcc_badSlot : faultOf (exec (.genFromAcc 5#4 7#4) (State.resetOf tp0)) = some (true, 2#64, 5#64) := by decide
/-- G4: an odd size adds a zero key. -/
theorem test_genCreate : genOf 0#4 (exec (.genCreate 0#4 0x4000#64 3#64) (accState tp0 0x4000 [1, 0, 0, 0, 2, 0, 0, 0, 3, 0, 0, 0])) =
    some (some ⟨5, [1, 2, 3, 0]⟩, .ok) := by decide +kernel
/-- X12: `K = 2^64`, its detail word 0. -/
theorem test_genCreate_capacity : faultOf (exec (.genCreate 0#4 0x4000#64 0xFFFFFFFFFFFFFFFF#64) (State.resetOf tp0)) =
    some (true, 3#64, 0#64) := by decide
/-- G14: the clone copies the position. -/
theorem test_genClone : genOf 1#4 (exec (.genClone 1#4 0#4) ((State.resetOf tp0).setGen 0#4 (some ⟨0x28, [1, 2, 3, 0]⟩))) =
    some (some ⟨0x28, [1, 2, 3, 0]⟩, .ok) := by decide
/-- G19. -/
theorem test_genFree : genOf 0#4 (exec (.genFree 0#4) (genState tp0)) = some (none, .ok) := by decide
/-- G15. -/
theorem test_genLen : resOf (exec (.genLen 0#4) (genState tp0)) = some (4#64, .ok, false) := by decide
/-- G15. -/
theorem test_genKey : resOf (exec (.genKey 0#4 2#64) (genState tp0)) = some (3#64, .ok, false) := by decide
/-- X14. -/
theorem test_genKey_range : faultOf (exec (.genKey 0#4 4#64) (genState tp0)) = some (true, 4#64, 4#64) := by decide
/-- G7 under TP1, the first seed. -/
theorem test_genNext : resOf (exec (.genNext 0#4) (genState tp1)) = some (0xCED60C81#64, .ok, false) := by decide
/-- G7 under TP1, the position after it. -/
theorem test_genNext_coef : genOf 0#4 (exec (.genNext 0#4) (genState tp1)) = some (some ⟨0x17672D968E32D320, [1, 2, 3, 0]⟩, .ok) := by
  decide
/-- G11 under TP1. -/
theorem test_genFill : bytesOf 0x3000 12 (exec (.genFill 0#4 0x3000#64 3#64) (genState tp1)) =
    some [0x81, 0x0C, 0xD6, 0xCE, 0x3F, 0x7F, 0x1C, 0x0D, 0x61, 0xB5, 0x0B, 0xA4] := by decide +kernel
/-- X18, with the bound at `0x1004`: the low bytes of the seed that crosses it stay stored. -/
theorem test_genFill_bus : bytesOf 0x0FFE 8 (exec (.genFill 0#4 0x0FFE#64 3#64) (genState tpBus)) =
    some [0x8C, 0x0C, 0x00, 0x00, 0xC6, 0x1C, 0, 0] := by decide +kernel
/-- G13: the token is the old position. -/
theorem test_genRestart : resOf (exec (.genRestart 0#4) ((State.resetOf tp0).setGen 0#4 (some ⟨0x6E, [1, 2, 3, 0]⟩))) =
    some (0x6E#64, .ok, false) := by decide
/-- G16: on "no object". -/
theorem test_genRestart_noObject : resOf (exec (.genRestart 0#4) { State.resetOf tp0 with res := 9 }) = some (0#64, .noObj, false) := by decide

/-! ## The port: vectors X1, X23, Z1, Z2 -/

/-- X1. -/
theorem test_submit_illegal : faultOf (submit ⟨0x00000001#32, 0#64, 0#64⟩ (State.resetOf tp0)) = some (true, 1#64, 1#64) := by decide
/-- X23: discarded while the fault is pending. -/
theorem test_submit_discarded : submit ⟨0#32, 0#64, 0#64⟩ ((State.resetOf tp0).raise .indexRange 2#64) =
    .next ((State.resetOf tp0).raise .indexRange 2#64) := rfl
/-- Z1. -/
theorem test_registers : ((List.range 15).map (State.register (State.resetOf tp0))) =
    [some 0x49524F4E53454544, some 0x0000000000100404, some 0, some 0, some 0, some 0, none, none, some 1, some 3, some 5, some 7,
     some 0x100000001, some 0x100000001, none] := by decide
/-- `CFG` with `LENW = 64` (95_test_vectors.md section 1). -/
theorem test_cfg_len64 : cfgWord tp064 = 0x0000010000100404#64 := by decide
/-- Y3: `LAST = ZSIZE` in bits 2:1. -/
theorem test_status_word : Status.word ⟨false, .zSize⟩ = 4#64 ∧ Status.word ⟨true, .noObj⟩ = 3#64 := by decide
/-- Z2: reset ends the fault. -/
theorem test_reset_ends_fault : ((full tp0).raise .indexRange 2#64).resetEvent = State.resetOf tp0 := by decide
/-- Z3, during the command: the first five bytes stay. -/
theorem test_reset_during_fill : bytesOf 0x3000 6 (submitThenReset ⟨0x37#32, 0x3000#64, 3#64⟩ 5 (genState tp0)) =
    some [0x8C, 0x0C, 0x00, 0x00, 0xC6, 0x00] := by decide +kernel
/-- A device in a command's range: refused. -/
theorem test_device_refused : exec (.updObj 0#4 0x1000#64 5#64) (accState tpDev 0 []) = .refused (.deviceMemory 0x1004#64) := rfl
/-- The host's entry point: the very next step runs the word's command. -/
theorem test_withFetchWord : step (State.reset.withFetchWord 32 0x10) = exec (.accCreate 0#4 0#64) State.reset := rfl

/-! ## Witnesses: a concrete state and operands that meet all the hypotheses of a statement together -/

/-- Under the default `mem_ok` every byte is accessible. -/
theorem accessible_tp0 (addr : Word) (n : Nat) (kind : AccessKind) : Accessible tp0 addr n kind := fun _ _ => ⟨rfl, rfl⟩

/-- Under `LENW = 64` too. -/
theorem accessible_tp064 (addr : Word) (n : Nat) (kind : AccessKind) : Accessible tp064 addr n kind := fun _ _ => ⟨rfl, rfl⟩

/-- `n` bytes of 1 from address 0 on. -/
def ones (n : Nat) : Memory := (List.range' 0 n).map fun k => (k, 1#8)

theorem read_ones_from (lo n x : Nat) :
    Memory.read ((List.range' lo n).map fun k => (k, 1#8)) x = if lo ≤ x ∧ x < lo + n then 1#8 else 0#8 := by
  induction n generalizing lo with
  | zero =>
    rw [if_neg (by omega)]
    rfl
  | succ n ih =>
    simp only [List.range'_succ, List.map_cons, Memory.read, ih]
    by_cases h : lo = x
    · rw [if_pos h, if_pos (by omega)]
    · rw [if_neg h]
      by_cases h2 : lo + 1 ≤ x ∧ x < lo + 1 + n
      · rw [if_pos h2, if_pos (by omega)]
      · rw [if_neg h2, if_neg (by omega)]

theorem read_ones (n x : Nat) : Memory.read (ones n) x = if x < n then 1#8 else 0#8 := by
  simp [ones, read_ones_from]

theorem addr_toNat (k : Nat) (h : k < 2 ^ 64) : (0#64 + BitVec.ofNat 64 k).toNat = k := by
  simp
  omega

theorem noZero_ones (p : Params) (n : Nat) (hn : n ≤ 2 ^ 64) (h : Accessible p 0#64 n .read) : NoZeroFor p (ones n) 0#64 n :=
  ⟨h, fun k hk => by
    rw [addr_toNat k (by omega), read_ones, if_pos hk]
    decide⟩

theorem text_ones (n : Nat) (hn : n < 2 ^ 32) : TextAt tp0 (ones n) 0#64 n :=
  ⟨hn, accessible_tp0 _ _ _, (noZero_ones tp0 n (by omega) (accessible_tp0 _ _ _)).2, by
    rw [addr_toNat n (by omega), read_ones, if_neg (by omega)]⟩

/-- A state with an empty text buffer of ones, an accumulator in the last place and `n` bytes of text. -/
def textState (p : Params) (n : Nat) : State := (full p).setMem (ones n)

theorem witness_DecodeReadsExactlyTheFields : FieldsOf ⟨0x00003F30#32, 9#64, 9#64⟩ (.genFromAcc 15#4 3#4) := rfl

theorem witness_RowSelectsItsCommand :
    ("GEN.CLONE", 0x32#32, 0xFFFF00FF#32) ∈ table ∧ (0x0000FF32#32 : Half) &&& 0xFFFF00FF#32 = 0x32#32 := by decide

theorem witness_StepRunsTheDecodedCommand : ∃ (s : State) (p : Packet) (rest : List Input) (i : Instr),
    s.inputs = .submit p :: rest ∧ s.status.fault = false ∧ decode p = .ok i :=
  ⟨{ full tp0 with inputs := [.submit ⟨0x336#32, 0, 0⟩] }, ⟨0x336#32, 0, 0⟩, [], .genNext 3#4, rfl, rfl, by decide⟩

theorem witness_UnselectedWordRaisesIllegalCommand : ∃ (s : State) (p : Packet) (rest : List Input),
    s.inputs = .submit p :: rest ∧ s.status.fault = false ∧ ∀ row, row ∈ table → p.cw &&& row.2.2 ≠ row.2.1 :=
  ⟨{ full tp0 with inputs := [.submit ⟨0x1020#32, 0, 0⟩] }, ⟨0x1020#32, 0, 0⟩, [], rfl, rfl, by decide⟩

/-- The state of X13 after its fault, with an act of the host pending. -/
def faulted (i : Input) : State := { (full tp0).raise .indexRange 2#64 with inputs := [i] }

theorem witness_FaultStopsTheBlockUntilReset_submit :
    (faulted (.submit ⟨0, 0, 0⟩)).status.fault = true ∧ (faulted (.submit ⟨0, 0, 0⟩)).inputs = [.submit ⟨0, 0, 0⟩] := ⟨rfl, rfl⟩

theorem witness_FaultStopsTheBlockUntilReset_observe :
    (faulted (.observe 5)).status.fault = true ∧ registerValue (faulted (.observe 5)) 5 = some 0 := ⟨rfl, rfl⟩

theorem witness_FaultStopsTheBlockUntilReset_step :
    (faulted (.observe 3)).status.fault = true ∧ ∃ t, step (faulted (.observe 3)) = .next t := ⟨rfl, _, rfl⟩

theorem witness_FaultStopsTheBlockUntilReset_reset :
    (faulted .reset).status.fault = true ∧ ∃ t, step (faulted .reset) = .next t := ⟨rfl, _, rfl⟩

theorem witness_ObserveReturnsTheRegister_named : ∃ (s : State) (n : Nat) (rest : List Input) (v : Nat),
    s.inputs = .observe n :: rest ∧ registerValue s n = some v := ⟨{ full tp0 with inputs := [.observe 13] }, 13, [], _, rfl, rfl⟩

theorem witness_ObserveReturnsTheRegister_unnamed : ∃ (s : State) (n : Nat) (rest : List Input),
    s.inputs = .observe n :: rest ∧ registerValue s n = none := ⟨{ full tp0 with inputs := [.observe 14] }, 14, [], rfl, rfl⟩

theorem witness_ObserveReturnsTheRegister_idle : (full tp0).inputs = [] := rfl

theorem witness_HostMemoryAccess_write : ∃ (s : State) (rest : List Input) (a : Word) (b : Byte),
    s.inputs = .hostWrite a b :: rest ∧ Memory.wf s.mem = true :=
  ⟨{ accState tp0 7 [1] with inputs := [.hostWrite 0xFFFFFFFFFFFFFFFF 5] }, [], _, _, rfl, by decide⟩

theorem witness_HostMemoryAccess_read : ∃ (s : State) (rest : List Input) (a : Word), s.inputs = .hostRead a :: rest :=
  ⟨{ accState tp0 7 [1] with inputs := [.hostRead 7] }, [], _, rfl⟩

theorem witness_ResetEffect : ∃ (s : State) (rest : List Input), s.inputs = .reset :: rest := ⟨faulted .reset, [], rfl⟩

theorem witness_ResetEffect_commands : ∃ (i : Instr) (s t : State), s.status.fault = true ∧ exec i s = .next t :=
  ⟨.nop, faulted .reset, _, rfl, rfl⟩

/-- A command that ends in a next state is not refused. -/
def ends : Result → Bool
  | .next _ => true
  | _ => false

theorem next_of_ends {r : Result} (h : ends r = true) : ∃ t, r = .next t := by
  cases r with
  | next t => exact ⟨t, rfl⟩
  | fault f => cases h
  | refused r => cases h

theorem not_refused_of_ends {r : Result} (h : ends r = true) (q : Refusal) : r ≠ .refused q := by
  rintro rfl
  cases h

theorem scan_of_noZero {p : Params} {m : Memory} {addr : Word} (h : NoZeroFor p m addr (scanBound p)) :
    scanText p m addr (scanBound p) 0 = .ok none := by
  rcases scanText_cases p m addr (scanBound p) 0 with ⟨k, _, h1, _, h3, _⟩ | ⟨k, h1, _, _, h4, _⟩ | ⟨h1, _⟩
  · rw [Nat.zero_add, checkAccess_none.mpr (h.1 k h1)] at h3
    cases h3
  · rw [Nat.zero_add] at h4
    exact absurd h4 (h.2 k h1)
  · exact h1

theorem updStr_of_scan {rt : Slot} {addr : Word} {s : State} {a : Acc} (hn : rt.toNat < s.params.na) (ha : s.acc rt = some a)
    (hs : scanText s.params s.mem addr (scanBound s.params) 0 = .ok none) : exec (.updStr rt addr) s = unterminated s := by
  rw [exec, execUpdStr, withAcc_ok _ hn, ha, hs]

/-- A text of 2^64 non-zero bytes under `LENW = 64`. -/
theorem endless : exec (.updStr 3#4 0#64) (textState tp064 (2 ^ 64)) = .fault .neverCompletes :=
  updStr_of_scan (a := freshAcc tp064 2) (by decide) rfl (scan_of_noZero (noZero_ones _ _ (by omega) (accessible_tp064 _ _ _)))

theorem witness_ResetDuringACommand_pending : ∃ (s : State) (p : Packet) (k : Nat) (rest : List Input),
    s.inputs = .resetDuring p k :: rest ∧ s.status.fault = true := ⟨faulted (.resetDuring ⟨0, 0, 0⟩ 0), _, _, _, rfl, rfl⟩

theorem witness_ResetDuringACommand_illegal : ∃ (s : State) (p : Packet) (k : Nat) (rest : List Input),
    s.inputs = .resetDuring p k :: rest ∧ s.status.fault = false ∧ ∀ i, decode p ≠ .ok i :=
  ⟨{ full tp0 with inputs := [.resetDuring ⟨0x1020#32, 0, 0⟩ 0] }, _, _, _, rfl, rfl, fun _ h => by cases h⟩

theorem witness_ResetDuringACommand_refused : ∃ (s : State) (p : Packet) (k : Nat) (rest : List Input) (i : Instr) (r : Refusal),
    s.inputs = .resetDuring p k :: rest ∧ s.status.fault = false ∧ decode p = .ok i ∧ exec i { s with inputs := rest } = .refused r :=
  ⟨{ full tpDev with inputs := [.resetDuring ⟨0x337#32, 0x1002, 1⟩ 1] }, _, _, [], .genFill 3#4 0x1002 1, _, rfl, rfl, by decide, rfl⟩

/-- The command that never completes, and a `GEN.FILL` of the first generator the instance has not. -/
theorem witness_ResetDuringACommand_other :
    (∃ (s : State) (p : Packet) (k : Nat) (rest : List Input), s.inputs = .resetDuring p k :: rest ∧ s.status.fault = false ∧
      decode p = .ok (.updStr 3#4 0) ∧ ∀ r, exec (.updStr 3#4 0) { s with inputs := rest } ≠ .refused r) ∧
    ∃ (s : State) (p : Packet) (k : Nat) (rest : List Input), s.inputs = .resetDuring p k :: rest ∧ s.status.fault = false ∧
      decode p = .ok (.genFill 4#4 0 1) ∧ s.params.ng ≤ (4#4 : Slot).toNat ∧ ∀ r, exec (.genFill 4#4 0 1) { s with inputs := rest } ≠ .refused r :=
  ⟨⟨{ textState tp064 (2 ^ 64) with inputs := [.resetDuring ⟨0x326#32, 0, 0⟩ 0] }, _, _, [], rfl, rfl, by decide,
      fun r h => by cases endless.symm.trans h⟩,
    ⟨{ full tp0 with inputs := [.resetDuring ⟨0x437#32, 0, 1⟩ 1] }, _, _, [], rfl, rfl, by decide, by decide, not_refused_of_ends rfl⟩⟩

/-- A store across the wrap of the address space. -/
theorem witness_ResetDuringACommand_fill : ∃ (s : State) (p : Packet) (k : Nat) (rest : List Input) (rt : Slot) (addr count : Word),
    s.inputs = .resetDuring p k :: rest ∧ s.status.fault = false ∧ decode p = .ok (.genFill rt addr count) ∧
      (∀ r, exec (.genFill rt addr count) { s with inputs := rest } ≠ .refused r) ∧ rt.toNat < s.params.ng ∧ Memory.wf s.mem = true ∧
      Accessible s.params addr (4 * count.toNat) .write :=
  ⟨{ full tp0 with inputs := [.resetDuring ⟨0x337#32, 0xFFFFFFFFFFFFFFFD, 3⟩ 5] }, _, _, [], 3#4, 0xFFFFFFFFFFFFFFFD, 3, rfl, rfl, by decide,
    not_refused_of_ends (by decide +kernel), by decide, by decide, accessible_tp0 _ _ _⟩

/-- The invariant holds in a state with a context of each kind. -/
theorem full_inv : (full tp0).Inv where
  params := by decide
  mem := by decide
  quiet := fun _ => ⟨rfl, rfl⟩
  caused := fun h => by cases h
  accs := fun _ a x h => by
    simp only [full, State.setGen_acc, State.setAcc_acc, State.resetOf_acc] at h
    split at h
    · rename_i e
      cases h
      subst e
      exact ⟨by decide, by decide, by decide, by decide⟩
    · cases h
  gens := fun _ g x h => by
    simp only [full, State.setGen_gen, State.setAcc_gen, State.resetOf_gen] at h
    split at h
    · rename_i e
      cases h
      subst e
      exact ⟨by decide, by decide, by decide, by decide⟩
    · cases h

theorem full_positioned : (full tp0).PositionedAt Counts.zero := fun _ => by
  refine ⟨fun a x h => ?_, fun g x h => ?_⟩
  · simp only [full, State.setGen_acc, State.setAcc_acc, State.resetOf_acc] at h
    split at h
    · cases h
      exact freshAcc_at _ _
    · cases h
  · simp only [full, State.setGen_gen, State.setAcc_gen, State.resetOf_gen] at h
    split at h
    · cases h
      exact startOut_at _ _
    · cases h

/-- `full` with the submission of `GEN.NEXT g3` pending. -/
def fullNext : State := { full tp0 with inputs := [.submit ⟨0x336#32, 0, 0⟩] }

theorem witness_StepKeepsTheInvariant : ∃ s t : State, s.Inv ∧ step s = .next t :=
  ⟨fullNext, _, ⟨full_inv.params, full_inv.mem, full_inv.quiet, full_inv.caused, full_inv.accs, full_inv.gens⟩, rfl⟩

/-- One seed more. -/
theorem witness_StepKeepsThePositions : ∃ (s t : State) (c c' : Counts), s.PositionedAt c ∧ step s = .next t ∧ CountsAfterStep s c c' ∧
    t.status.fault = false ∧ c'.gen 3#4 = c.gen 3#4 + 1 := ⟨fullNext, _, Counts.zero, _, full_positioned, rfl, rfl, rfl, rfl⟩

/-- The text "ab" makes one update for its length and one for its word. -/
theorem witness_StepKeepsThePositions_text : ∃ (s t : State) (c c' : Counts), s.PositionedAt c ∧ step s = .next t ∧ CountsAfterStep s c c' ∧
    c'.acc 3#4 = c.acc 3#4 + 2 := by
  let s : State := { full tp0 with mem := [(0x2000, 0x61), (0x2001, 0x62)], inputs := [.submit ⟨0x326#32, 0x2000, 0⟩] }
  obtain ⟨t, ht⟩ := next_of_ends (r := step s) (by decide +kernel)
  refine ⟨s, t, Counts.zero, Counts.zero.setAcc 3#4 2, full_positioned, ht, ⟨2, rfl, fun len h => ?_⟩, rfl⟩
  obtain ⟨_, _, hn, hz⟩ := h
  have h0 : len ≠ 0 := by
    rintro rfl
    exact absurd hz (by decide)
  have h1 : len ≠ 1 := by
    rintro rfl
    exact absurd hz (by decide)
  have h2 : ¬ 2 < len := fun h => hn 2 h (by decide)
  obtain rfl : len = 2 := by omega
  rfl

theorem witness_StepKeepsTheInstance : ∃ t, step { full tp0 with inputs := [.reset] } = .next t := ⟨_, rfl⟩

theorem witness_BadSlotComesFirst_target : Instr.firstBadSlot (full tp0).params (.genFromAcc 4#4 4#4) = some 4#4 := by decide
theorem witness_BadSlotComesFirst_source : Instr.firstBadSlot (full tp0).params (.accClone 3#4 15#4) = some 15#4 := by decide

theorem witness_FaultsPerCommand_badSlot : ∃ (i : Instr) (s t : State),
    s.status.fault = false ∧ exec i s = .next t ∧ t.status.fault = true ∧ t.cause = 2#64 :=
  ⟨.genNext 4#4, full tp0, _, rfl, rfl, rfl, rfl⟩

theorem witness_FaultsPerCommand_length : ∃ (i : Instr) (s t : State),
    s.status.fault = false ∧ exec i s = .next t ∧ t.status.fault = true ∧ t.cause = 5#64 :=
  ⟨.updBuf 3#4 0 0x100000000, full tp0, _, rfl, rfl, rfl, rfl⟩

theorem witness_FaultsPerCommand_default : ∃ (i : Instr) (s t : State), s.status.fault = false ∧ exec i s = .next t ∧
    t.status.fault = true ∧ ∀ a kind, memOk s.params a kind = true :=
  ⟨.accCreate 3#4 513, full tp0, _, rfl, rfl, rfl, fun _ _ => rfl⟩

/-- The states and the command of X16. -/
theorem witness_FaultWritesItsRow : ∃ (i : Instr) (s t : State), s.status.fault = false ∧ exec i s = .next t ∧ t.status.fault = true :=
  ⟨.updBuf 3#4 0x1000 5, full tpBus, _, rfl, rfl, rfl⟩

theorem witness_FaultsButBusFaultArePrecise : ∃ (i : Instr) (s t : State),
    s.status.fault = false ∧ exec i s = .next t ∧ t.status.fault = true ∧ t.cause ≠ 6#64 :=
  ⟨.genKey 3#4 2, full tp0, _, rfl, rfl, rfl, by decide⟩

theorem witness_OnlyNamedContextsAreWritten_bus : ∃ (i : Instr) (s t : State),
    exec i s = .next t ∧ (Bank.acc, 2#4) ∉ i.slots ∧ (Bank.gen, 3#4) ∉ i.slots :=
  ⟨.updObj 3#4 0x1004 1, full tpBus, _, rfl, by decide, by decide⟩

theorem witness_OnlyNamedContextsAreWritten_acc : ∃ (i : Instr) (s t : State), exec i s = .next t ∧ sourceOf i = some (.acc, 3#4) :=
  ⟨.genFromAcc 0#4 3#4, full tp0, _, rfl, rfl⟩

theorem witness_OnlyNamedContextsAreWritten_gen : ∃ (i : Instr) (s t : State), exec i s = .next t ∧ sourceOf i = some (.gen, 3#4) :=
  ⟨.genClone 0#4 3#4, full tp0, _, rfl, rfl⟩

theorem witness_OnlyFillWritesMemory : ∃ t, exec (.genFill 3#4 0xFFFFFFFFFFFFFFFF 1) (full tp0) = .next t := ⟨_, rfl⟩

theorem witness_ResIsWrittenByValueCommandsOnly_other : ∃ (i : Instr) (s t : State), valueFrom i = none ∧ exec i s = .next t :=
  ⟨.genFill 3#4 0 1, full tp0, _, rfl, rfl⟩

theorem witness_ResIsWrittenByValueCommandsOnly_empty : ∃ (i : Instr) (s : State) (c : Bank × Slot),
    valueFrom i = some c ∧ s.params.hasSlot c = true ∧ NoObjectAt s c := ⟨.genRestart 2#4, full tp0, _, rfl, by decide, rfl⟩

/-- Two states that differ in an accumulator, in `RES`, `STATUS`, `CAUSE` and `INFO`. -/
theorem witness_EffectDependsOnNamedContextsOnly_next : ∃ (i : Instr) (s s' t : State), Agree i s s' ∧ s'.status.last ≠ s.status.last ∧
    s'.status.fault ≠ s.status.fault ∧ exec i s = .next t :=
  ⟨.genNext 3#4, full tp0, ((((full tp0).setAcc 3#4 none).setRes 9).complete .zSize).raise .capacity 18, _,
    ⟨rfl, rfl, rfl, fun a h => by simp [Instr.slots] at h, fun g _ => rfl⟩, by decide, by decide, rfl⟩

theorem witness_EffectDependsOnNamedContextsOnly_fault : ∃ (i : Instr) (s s' : State) (f : Fault), Agree i s s' ∧ exec i s = .fault f :=
  ⟨.updStr 3#4 0, textState tp064 (2 ^ 64), (textState tp064 (2 ^ 64)).complete .zSize, _, ⟨rfl, rfl, rfl, fun _ _ => rfl, fun _ _ => rfl⟩, endless⟩

theorem witness_EffectDependsOnNamedContextsOnly_refused : ∃ (i : Instr) (s s' : State) (r : Refusal), Agree i s s' ∧ exec i s = .refused r :=
  ⟨.updObj 3#4 0x1004 1, full tpDev, (full tpDev).complete .zSize, _, ⟨rfl, rfl, rfl, fun _ _ => rfl, fun _ _ => rfl⟩, rfl⟩

theorem witness_EveryCommandEnds : ∀ a, isDevice (full tpBus).params a = false := fun a => by
  simp [full, State.resetOf, isDevice, tpBus]

theorem witness_WeylSequence : ∃ inc : Word, inc.toNat % 2 = 1 := ⟨tp1.incIn, by decide⟩

theorem witness_MixIsBijective : oddWord tp1.mixM1 = true ∧ oddWord tp1.mixM2 = true := by decide

theorem witness_FinalmixPreimages : oddWord tp0.mixM1 = true ∧ oddWord tp0.mixM2 = true := by decide

theorem witness_BufferIsReadLittleEndian : Accessible tp0 0xFFFFFFFFFFFFFFFF 5 .read := accessible_tp0 _ _ _

theorem witness_StoredWordsReadBack : ∃ (p : Params) (m : Memory) (addr : Word) (ws : List Half),
    Memory.wf m = true ∧ 4 * ws.length ≤ 2 ^ 64 ∧ Accessible p addr (4 * ws.length) .write :=
  ⟨tp0, [(0, 1)], 0xFFFFFFFFFFFFFFFE, [1, 2], by decide, by decide, accessible_tp0 _ _ _⟩

theorem witness_DigestClosedForm : (1 : Nat) < 2 := by decide

theorem witness_AccCreateCompletes_zero : (3#4 : Slot).toNat < (full tp0).params.na ∧ (0#64 : Word) = 0#64 := by decide

/-- `L = LMAX`. -/
theorem witness_AccCreateCompletes_size : (3#4 : Slot).toNat < (full tp0).params.na ∧ (512#64 : Word) ≠ 0#64 ∧
    2 * (((512#64 : Word).toNat + 63) / 64) ≤ (full tp0).params.lmax := by decide

/-- The first sizes that are too large. -/
theorem witness_CreateOverCapacityFaults : (3#4 : Slot).toNat < (full tp0).params.na ∧ (3#4 : Slot).toNat < (full tp0).params.ng ∧
    (full tp0).params.lmax < 2 * (((513#64 : Word).toNat + 63) / 64) ∧
    (full tp0).params.lmax < (17#64 : Word).toNat + (17#64 : Word).toNat % 2 := by decide

theorem witness_ClonesCopyTheSource : ∃ (rd rs : Slot) (s : State), rd.toNat < s.params.na ∧ rs.toNat < s.params.na ∧
    rd.toNat < s.params.ng ∧ rs.toNat < s.params.ng ∧ s.acc rs ≠ none ∧ s.gen rs ≠ none :=
  ⟨0#4, 3#4, full tp0, by decide, by decide, by decide, by decide, by decide, by decide⟩

theorem witness_FreesLeaveNoObject : ∃ (rt : Slot) (s : State),
    rt.toNat < s.params.na ∧ rt.toNat < s.params.ng ∧ s.acc rt ≠ none ∧ s.gen rt ≠ none :=
  ⟨3#4, full tp0, by decide, by decide, by decide, by decide⟩

theorem witness_LengthsAreRead : ∃ (rt : Slot) (s : State) (a : Acc) (g : Gen),
    rt.toNat < s.params.na ∧ s.acc rt = some a ∧ rt.toNat < s.params.ng ∧ s.gen rt = some g :=
  ⟨3#4, full tp0, _, _, by decide, rfl, by decide, rfl⟩

/-- The last lane and the last key. -/
theorem witness_LanesAndKeysAreRead_last : ∃ (rt : Slot) (i : Word) (s : State) (a : Acc) (l : Word) (g : Gen) (k : Half),
    rt.toNat < s.params.na ∧ s.acc rt = some a ∧ a.lanes[i.toNat]? = some l ∧
      rt.toNat < s.params.ng ∧ s.gen rt = some g ∧ g.keys[i.toNat]? = some k :=
  ⟨3#4, 1, full tp0, _, _, _, _, by decide, rfl, rfl, by decide, rfl, rfl⟩

/-- The first index past the end. -/
theorem witness_LanesAndKeysAreRead_past : ∃ (rt : Slot) (i : Word) (s : State) (a : Acc) (g : Gen),
    rt.toNat < s.params.na ∧ s.acc rt = some a ∧ a.lanes.length ≤ i.toNat ∧
      rt.toNat < s.params.ng ∧ s.gen rt = some g ∧ g.keys.length ≤ i.toNat :=
  ⟨3#4, 2, full tp0, _, _, by decide, rfl, by decide, by decide, rfl, by decide⟩

/-- For `ThirtyTwoBitUpdatesFold` and `SixtyFourBitUpdatesFold`. -/
theorem witness_ScalarUpdatesFold : ∃ (rt : Slot) (s : State) (a : Acc), rt.toNat < s.params.na ∧ s.acc rt = some a :=
  ⟨3#4, full tp1, _, by decide, rfl⟩

theorem witness_UpdatesOnNoObjectDoNothing : ∃ (i : Instr) (rt : Slot) (s : State),
    updateOf i = some rt ∧ rt.toNat < s.params.na ∧ s.acc rt = none :=
  ⟨.updBuf 2#4 0x1000 0x100000000, 2#4, full tpBus, rfl, by decide, rfl⟩

theorem witness_UpdObjFolds : ∃ (rt : Slot) (addr len : Word) (s : State) (a : Acc),
    rt.toNat < s.params.na ∧ s.acc rt = some a ∧ Accessible s.params addr len.toNat .read :=
  ⟨3#4, 0xFFFFFFFFFFFFFFFF, 5, full tp0, _, by decide, rfl, accessible_tp0 _ _ _⟩

/-- The longest buffer under `LENW = 32`. -/
theorem witness_UpdBufFolds : ∃ (rt : Slot) (addr len : Word) (s : State) (a : Acc), rt.toNat < s.params.na ∧ s.acc rt = some a ∧
    (s.params.lenW = .w32 → len.toNat < 2 ^ 32) ∧ Accessible s.params addr len.toNat .read :=
  ⟨3#4, 0x1000, 0xFFFFFFFF, full tp0, _, by decide, rfl, fun _ => by decide, accessible_tp0 _ _ _⟩

/-- A longer one under `LENW = 64`. -/
theorem witness_UpdBufFolds_len64 : ∃ (rt : Slot) (addr len : Word) (s : State) (a : Acc), rt.toNat < s.params.na ∧ s.acc rt = some a ∧
    (s.params.lenW = .w32 → len.toNat < 2 ^ 32) ∧ Accessible s.params addr len.toNat .read :=
  ⟨3#4, 0x1000, 0x100000000, full tp064, _, by decide, rfl, nofun, accessible_tp064 _ _ _⟩

/-- The shortest buffer that is too long. -/
theorem witness_LongBufferFaults : ∃ (rt : Slot) (len : Word) (s : State) (a : Acc), rt.toNat < s.params.na ∧ s.acc rt = some a ∧
    s.params.lenW = .w32 ∧ 2 ^ 32 ≤ len.toNat := ⟨3#4, 0x100000000, full tp0, _, by decide, rfl, rfl, by decide⟩

/-- The longest text under `LENW = 32`; for `TypedUpdatesEqualTheirSequences` too. -/
theorem witness_UpdStrFolds : ∃ (rt : Slot) (addr : Word) (n : Nat) (s : State) (a : Acc), rt.toNat < s.params.na ∧ s.acc rt = some a ∧
    TextAt s.params s.mem addr n := ⟨3#4, 0, 2 ^ 32 - 1, textState tp0 (2 ^ 32 - 1), _, by decide, rfl, text_ones _ (by omega)⟩

/-- The empty text and the longest buffer. -/
theorem witness_TypedUpdatesEqualTheirSequences : ∃ (rt : Slot) (s : State) (addr len : Word), rt.toNat < s.params.na ∧
    Accessible s.params addr len.toNat .read ∧ (s.params.lenW = .w32 → len.toNat < 2 ^ 32) ∧ len ≠ 0#64 ∧ TextAt s.params s.mem 0#64 0 :=
  ⟨3#4, full tp0, 0xFFFFFFFFFFFFFFFF, 0xFFFFFFFF, by decide, accessible_tp0 _ _ _, fun _ => by decide, by decide, text_ones 0 (by omega)⟩

theorem witness_UnterminatedText_len32 : ∃ (rt : Slot) (addr : Word) (s : State) (a : Acc), rt.toNat < s.params.na ∧ s.acc rt = some a ∧
    s.params.lenW = .w32 ∧ NoZeroFor s.params s.mem addr (2 ^ 32) :=
  ⟨3#4, 0, textState tp0 (2 ^ 32), _, by decide, rfl, rfl, noZero_ones _ _ (by omega) (accessible_tp0 _ _ _)⟩

theorem witness_UnterminatedText_len64 : ∃ (rt : Slot) (addr : Word) (s : State) (a : Acc), rt.toNat < s.params.na ∧ s.acc rt = some a ∧
    s.params.lenW = .w64 ∧ NoZeroFor s.params s.mem addr (2 ^ 64) :=
  ⟨3#4, 0, textState tp064 (2 ^ 64), _, by decide, rfl, rfl, noZero_ones _ _ (by omega) (accessible_tp064 _ _ _)⟩

theorem refused_at_bound (kind : AccessKind) : RefusedAt tpBus 0x1002#64 2 kind :=
  ⟨fun k hk => by
    obtain rfl | rfl : k = 0 ∨ k = 1 := by omega
    all_goals cases kind <;> decide, by cases kind <;> decide⟩

theorem device_at_bound (kind : AccessKind) : DeviceAt tpDev 0x1002#64 2 kind :=
  ⟨fun k hk => by
    obtain rfl | rfl : k = 0 ∨ k = 1 := by omega
    all_goals cases kind <;> decide, by cases kind <;> decide, by decide⟩

/-- A `GEN.FILL` whose third byte is refused, and the reset after one byte or after all. -/
theorem witness_ResetDuringACommand_fillRefused : ∃ (s : State) (p : Packet) (k k0 : Nat) (rest : List Input) (rt : Slot) (addr count : Word),
    s.inputs = .resetDuring p k :: rest ∧ s.status.fault = false ∧ decode p = .ok (.genFill rt addr count) ∧
      (∀ r, exec (.genFill rt addr count) { s with inputs := rest } ≠ .refused r) ∧ rt.toNat < s.params.ng ∧ Memory.wf s.mem = true ∧
      k0 < 4 * count.toNat ∧ RefusedAt s.params addr k0 .write :=
  ⟨{ full tpBus with inputs := [.resetDuring ⟨0x337#32, 0x1002, 1⟩ 3] }, _, _, 2, [], 3#4, 0x1002, 1, rfl, rfl, by decide,
    not_refused_of_ends (by decide +kernel), by decide, by decide, by decide, refused_at_bound _⟩

/-- TP0 with `LENW = 64` and a region from `2^32` on. -/
def tpFar (kind : RegionKind) : Params := { tp064 with regions := [⟨0x100000000, 0xFFFFFFFFFFFFFFFF, kind⟩] }

theorem far_covers (kind : RegionKind) (k : Nat) (h : k < 2 ^ 32) :
    regionCovers ⟨0x100000000, 0xFFFFFFFFFFFFFFFF, kind⟩ (0#64 + BitVec.ofNat 64 k) = false := by
  simp only [regionCovers, addr_toNat k (by omega), Bool.and_eq_false_iff, decide_eq_false_iff_not]
  exact Or.inl (by simp; omega)

theorem far_accessible (kind : RegionKind) : Accessible (tpFar kind) 0#64 (2 ^ 32) .read := fun k h => by
  simp only [memOk, isDevice, tpFar, List.all_cons, List.any_cons, far_covers kind k h]
  exact ⟨rfl, rfl⟩

/-- A scan that is stopped at offset 2^32, which only `LENW = 64` can reach. -/
theorem witness_RefusedReadRaisesBusFault_far : ∃ (rt : Slot) (addr : Word) (k : Nat) (s : State) (a : Acc),
    RefusedAt s.params addr k .read ∧ rt.toNat < s.params.na ∧ s.acc rt = some a ∧ NoZeroFor s.params s.mem addr k ∧
      (s.params.lenW = .w32 → k < 2 ^ 32) ∧ 2 ^ 32 ≤ k :=
  ⟨3#4, 0, 2 ^ 32, textState (tpFar .noRead) (2 ^ 32), _, ⟨far_accessible _, by decide⟩, by decide, rfl,
    noZero_ones _ _ (by omega) (far_accessible _), nofun, by omega⟩

theorem witness_DeviceMemoryIsRefused_far : ∃ (rt : Slot) (addr : Word) (k : Nat) (s : State) (a : Acc),
    DeviceAt s.params addr k .read ∧ rt.toNat < s.params.na ∧ s.acc rt = some a ∧ NoZeroFor s.params s.mem addr k ∧
      (s.params.lenW = .w32 → k < 2 ^ 32) ∧ 2 ^ 32 ≤ k :=
  ⟨3#4, 0, 2 ^ 32, textState (tpFar .device) (2 ^ 32), _, ⟨far_accessible _, by decide, by decide⟩, by decide, rfl,
    noZero_ones _ _ (by omega) (far_accessible _), nofun, by omega⟩

/-- Two non-zero bytes before the bound. -/
def boundState (p : Params) : State := (full p).setMem [(0x1002, 1), (0x1003, 2)]

/-- The byte that is refused is the last of the range in each clause. -/
theorem witness_RefusedReadRaisesBusFault : ∃ (rt : Slot) (addr : Word) (k : Nat) (s : State) (a : Acc) (len size : Word),
    RefusedAt s.params addr k .read ∧ rt.toNat < s.params.na ∧ s.acc rt = some a ∧ k < len.toNat ∧
      (s.params.lenW = .w32 → len.toNat < 2 ^ 32) ∧ NoZeroFor s.params s.mem addr k ∧ (s.params.lenW = .w32 → k < 2 ^ 32) ∧
      rt.toNat < s.params.ng ∧ k < 4 * size.toNat ∧ size.toNat + size.toNat % 2 ≤ s.params.lmax :=
  ⟨3#4, 0x1002, 2, boundState tpBus, _, 3, 1, refused_at_bound _, by decide, rfl, by decide, fun _ => by decide,
    ⟨(refused_at_bound .read).1, fun k hk => by
      obtain rfl | rfl : k = 0 ∨ k = 1 := by omega
      all_goals decide⟩, fun _ => by omega, by decide, by decide, by decide⟩

theorem witness_DeviceMemoryIsRefused_read : ∃ (rt : Slot) (addr : Word) (k : Nat) (s : State) (a : Acc) (len size : Word),
    DeviceAt s.params addr k .read ∧ rt.toNat < s.params.na ∧ s.acc rt = some a ∧ k < len.toNat ∧
      (s.params.lenW = .w32 → len.toNat < 2 ^ 32) ∧ NoZeroFor s.params s.mem addr k ∧ (s.params.lenW = .w32 → k < 2 ^ 32) ∧
      rt.toNat < s.params.ng ∧ k < 4 * size.toNat ∧ size.toNat + size.toNat % 2 ≤ s.params.lmax :=
  ⟨3#4, 0x1002, 2, boundState tpDev, _, 3, 1, device_at_bound _, by decide, rfl, by decide, fun _ => by decide,
    ⟨(device_at_bound .read).1, fun k hk => by
      obtain rfl | rfl : k = 0 ∨ k = 1 := by omega
      all_goals decide⟩, fun _ => by omega, by decide, by decide, by decide⟩

theorem witness_DeviceMemoryIsRefused_write : ∃ (rt : Slot) (addr count : Word) (k : Nat) (s : State),
    DeviceAt s.params addr k .write ∧ rt.toNat < s.params.ng ∧ k < 4 * count.toNat :=
  ⟨3#4, 0x1002, 1, 2, boundState tpDev, device_at_bound _, by decide, by decide⟩

theorem witness_ZeroLengthTouchesNoMemory : ∃ (rt : Slot) (addr : Word) (s : State) (a : Acc), rt.toNat < s.params.na ∧
    s.acc rt = some a ∧ memOk s.params addr .read = false ∧ rt.toNat < s.params.ng :=
  ⟨3#4, 0x1004, full tpBus, _, by decide, rfl, by decide, by decide⟩

theorem witness_FromAccFinalizes_noObject : ∃ (rd rs : Slot) (s : State), rd.toNat < s.params.ng ∧ rs.toNat < s.params.na ∧ s.acc rs = none :=
  ⟨3#4, 2#4, full tp0, by decide, by decide, rfl⟩

theorem witness_FromAccFinalizes : ∃ (rd rs : Slot) (s : State) (a : Acc),
    rd.toNat < s.params.ng ∧ rs.toNat < s.params.na ∧ s.acc rs = some a := ⟨3#4, 3#4, full tp0, _, by decide, by decide, rfl⟩

/-- The largest odd size: `K = LMAX`. -/
theorem witness_GenCreateReadsTheKeys : ∃ (rt : Slot) (addr size : Word) (s : State), rt.toNat < s.params.ng ∧ size ≠ 0#64 ∧
    size.toNat + size.toNat % 2 ≤ s.params.lmax ∧ Accessible s.params addr (4 * size.toNat) .read :=
  ⟨3#4, 0x1001, 15, full tp0, by decide, by decide, by decide, accessible_tp0 _ _ _⟩

/-- For `GenNextProducesTheSeed` and `GenRestartRewinds`. -/
theorem witness_GenNextProducesTheSeed : ∃ (rt : Slot) (s : State) (g : Gen), rt.toNat < s.params.ng ∧ s.gen rt = some g :=
  ⟨3#4, full tp1, _, by decide, rfl⟩

/-- A store across the wrap of the address space. -/
theorem witness_GenFillStoresTheSeeds : ∃ (rt : Slot) (addr count : Word) (s : State), rt.toNat < s.params.ng ∧
    Accessible s.params addr (4 * count.toNat) .write ∧ Memory.wf s.mem = true :=
  ⟨3#4, 0xFFFFFFFFFFFFFFFD, 2, full tp0, by decide, accessible_tp0 _ _ _, by decide⟩

theorem witness_RefusedWriteRaisesBusFault : ∃ (rt : Slot) (addr count : Word) (k : Nat) (s : State), rt.toNat < s.params.ng ∧
    k < 4 * count.toNat ∧ RefusedAt s.params addr k .write ∧ Memory.wf s.mem = true :=
  ⟨3#4, 0x1002, 1, 2, boundState tpBus, by decide, by decide, refused_at_bound _, by decide⟩

theorem witness_RestartLaws : ∃ (rt : Slot) (s : State) (g : Gen),
    rt.toNat < s.params.ng ∧ s.gen rt = some g ∧ g.coef = s.params.startOut := ⟨3#4, full tp1, _, by decide, rfl, rfl⟩

theorem witness_StreamPeriod : oddWord tp1.incOut = true ∧ (⟨5, [1, 2]⟩ : Gen).keys.length % 2 = 0 := by decide

end Sys2Proof.Tests
end

section
/-! PROOFS. What every command does, said once: `Run` lists the next states of the commands, one constructor per outcome of a rule,
and `exec_run` ties it to `exec`. The statements on single commands are read off it. -/

namespace Sys2Proof.Machine

open Sys2Proof.Claims

/-! ## Where an access of a range is stopped -/

theorem accessible_of_checkAccess {p : Params} {addr : Word} {n : Nat} {kind : AccessKind}
    (h : ∀ j, j < n → checkAccess p (addr + BitVec.ofNat 64 j) kind = none) : Accessible p addr n kind :=
  fun j hj => checkAccess_none.mp (h j hj)

/-- A range with a first byte that raises `BusFault`, as `checkAccess` says it. -/
theorem refusedAt_of_checkAccess {p : Params} {addr w : Word} {k : Nat} {kind : AccessKind}
    (hk : checkAccess p (addr + BitVec.ofNat 64 k) kind = some (.bus w))
    (h : ∀ j, j < k → checkAccess p (addr + BitVec.ofNat 64 j) kind = none) :
    w = addr + BitVec.ofNat 64 k ∧ RefusedAt p addr k kind := by
  obtain ⟨hw, hm⟩ := checkAccess_bus.mp hk
  exact ⟨hw, accessible_of_checkAccess h, hm⟩

theorem readBytes_bus {p : Params} {m : Memory} {addr w : Word} {n : Nat} (h : readBytes p m addr n = .error (.bus w)) :
    ∃ k, k < n ∧ w = addr + BitVec.ofNat 64 k ∧ RefusedAt p addr k .read := by
  obtain ⟨k, hk, hstop, hbefore⟩ := readBytes_error h
  exact ⟨k, hk, refusedAt_of_checkAccess hstop hbefore⟩

theorem readBytes_length {p : Params} {m : Memory} {addr : Word} {n : Nat} {bs : List Byte} (h : readBytes p m addr n = .ok bs) :
    bs.length = n := by
  simp [(readBytes_ok h).1]

/-- A store of words that ends in a `BusFault` is refused at one of its bytes, the ones before it being accessible (R34, R38). -/
theorem storeBytes_writesAt_bus {p : Params} {m : Memory} {addr w : Word} {ws : List Half}
    (h : (storeBytes p m (writesAt addr ws)).2 = some (.bus w)) :
    ∃ k, k < 4 * ws.length ∧ w = addr + BitVec.ofNat 64 k ∧ RefusedAt p addr k .write := by
  obtain ⟨pre, post, hsplit, -, hpre, hnone | ⟨stop, x, rest, hstop, rfl, hx⟩⟩ := storeBytes_split p m (writesAt addr ws)
  · rw [hnone.1] at h
    cases h
  rw [hstop, Option.some.injEq] at h
  subst h
  have hlen : pre.length + (x :: rest).length = 4 * ws.length := by rw [← List.length_append, ← hsplit, writesAt_length]
  have haddr : ∀ j y, j < 4 * ws.length → (pre ++ x :: rest)[j]? = some y → y.1 = addr + BitVec.ofNat 64 j := by
    intro j y hj hy
    rw [← hsplit, writesAt_get addr ws j hj] at hy
    exact congrArg Prod.fst (Option.some.inj hy).symm
  have hk : pre.length < 4 * ws.length := by simp at hlen; omega
  refine ⟨pre.length, hk, refusedAt_of_checkAccess ?_ fun j hj => ?_⟩
  · rwa [← haddr pre.length x hk (by simp)]
  · have hy : (pre ++ x :: rest)[j]? = some pre[j] := by rw [List.getElem?_append_left hj, List.getElem?_eq_getElem hj]
    rw [← haddr j _ (by omega) hy]
    exact hpre _ (List.getElem_mem hj)

/-! ## What the scan of `UPD.STR` found -/

theorem scanText_bus {p : Params} {m : Memory} {addr w : Word} (h : scanText p m addr (scanBound p) 0 = .error (.bus w)) :
    ∃ k, w = addr + BitVec.ofNat 64 k ∧ RefusedAt p addr k .read ∧ NoZeroFor p m addr k := by
  rcases scanText_cases p m addr (scanBound p) 0 with ⟨k, stop, -, he, hstop, hbefore⟩ | ⟨k, -, he, -⟩ | ⟨he, -⟩
  · rw [he, Except.error.injEq] at h
    subst h
    simp only [Nat.zero_add] at hstop hbefore
    obtain ⟨hw, hr⟩ := refusedAt_of_checkAccess hstop fun j hj => (hbefore j hj).1
    exact ⟨k, hw, hr, hr.1, fun j hj => (hbefore j hj).2⟩
  all_goals rw [he] at h; cases h

theorem scanText_none {p : Params} {m : Memory} {addr : Word} (h : scanText p m addr (scanBound p) 0 = .ok none) :
    NoZeroFor p m addr (scanBound p) := by
  rcases scanText_cases p m addr (scanBound p) 0 with ⟨k, stop, -, he, -⟩ | ⟨k, -, he, -⟩ | ⟨-, hall⟩
  · rw [he] at h; cases h
  · rw [he] at h; cases h
  · simp only [Nat.zero_add] at hall
    exact ⟨accessible_of_checkAccess fun j hj => (hall j hj).1, fun j hj => (hall j hj).2⟩

theorem scanText_found {p : Params} {m : Memory} {addr : Word} {n : Nat} (h : scanText p m addr (scanBound p) 0 = .ok (some n)) :
    TextAt p m addr n := by
  rcases scanText_cases p m addr (scanBound p) 0 with ⟨k, stop, -, he, -⟩ | ⟨k, hk, he, hread, hzero, hbefore⟩ | ⟨he, -⟩
  · rw [he] at h; cases h
  · rw [he, Except.ok.injEq, Option.some.injEq, Nat.zero_add] at h
    subst h
    simp only [Nat.zero_add] at hread hzero hbefore
    refine ⟨?_, accessible_of_checkAccess fun j hj => ?_, fun j hj => (hbefore j hj).2, hzero⟩
    · cases hl : p.lenW <;> simpa only [scanBound, hl] using hk
    · rcases Nat.lt_succ_iff_lt_or_eq.mp hj with hj | rfl
      · exact (hbefore j hj).1
      · exact hread
  · rw [he] at h; cases h

/-! ## The next states of the commands -/

/-- Command `i` takes `s` to the given state. A constructor per outcome of a command's rule; what no statement here turns on (the value read into
`RES`, the `LAST` of a clone, the bytes a refused fill had stored) is left free. -/
inductive Run (s : State) : Instr → State → Prop where
  /-- A context field is out of range (R51 step 3). -/
  | badSlot {i : Instr} {k : Slot} : i.firstBadSlot s.params = some k → Run s i (s.raise .badSlot (k.setWidth 64))
  | nop : Run s .nop (s.complete .ok)
  /-- A value-returning command of an accumulator on "no object" (R16). -/
  | accValueNoObject {i : Instr} {rt : Slot} : valueFrom i = some (.acc, rt) → s.acc rt = none → Run s i ((s.setRes 0#64).complete .noObj)
  /-- A value-returning command of a generator on "no object" (R16). -/
  | genValueNoObject {i : Instr} {rt : Slot} : valueFrom i = some (.gen, rt) → s.gen rt = none → Run s i ((s.setRes 0#64).complete .noObj)
  /-- An update on "no object" (R91). -/
  | updNoObject {i : Instr} {rt : Slot} : updateOf i = some rt → s.acc rt = none → Run s i (s.complete .noObj)
  | accCreateZero {rt : Slot} : Run s (.accCreate rt 0#64) ((s.setAcc rt none).complete .zSize)
  | accCreateOver {rt : Slot} {bits : Word} : s.params.lmax < lanesWanted bits →
      Run s (.accCreate rt bits) (s.raise .capacity (BitVec.ofNat 64 (lanesWanted bits)))
  | accCreate {rt : Slot} {bits : Word} :
      Run s (.accCreate rt bits) ((s.setAcc rt (some (freshAcc s.params (lanesWanted bits)))).complete .ok)
  | accClone {rd rs : Slot} {last : Last} : Run s (.accClone rd rs) ((s.setAcc rd (s.acc rs)).complete last)
  | accFreeNoObject {rt : Slot} : Run s (.accFree rt) (s.complete .noObj)
  | accFree {rt : Slot} : Run s (.accFree rt) ((s.setAcc rt none).complete .ok)
  | accLen {rt : Slot} {v : Word} : Run s (.accLen rt) ((s.setRes v).complete .ok)
  | accLaneRange {rt : Slot} {i : Word} {a : Acc} : s.acc rt = some a → a.lanes.length ≤ i.toNat → Run s (.accLane rt i) (s.raise .indexRange i)
  | accLane {rt : Slot} {i v : Word} : Run s (.accLane rt i) ((s.setRes v).complete .ok)
  | updU32 {rt : Slot} {v : Half} {a : Acc} : s.acc rt = some a → Run s (.updU32 rt v) ((s.setAcc rt (some (update32 s.params v a))).complete .ok)
  | updU64 {rt : Slot} {v : Word} {a : Acc} : s.acc rt = some a → Run s (.updU64 rt v) ((s.setAcc rt (some (update64 s.params v a))).complete .ok)
  | updF32 {rt : Slot} {v : Half} {a : Acc} : s.acc rt = some a → Run s (.updF32 rt v) ((s.setAcc rt (some (update32 s.params v a))).complete .ok)
  | updF64 {rt : Slot} {v : Word} {a : Acc} : s.acc rt = some a → Run s (.updF64 rt v) ((s.setAcc rt (some (update64 s.params v a))).complete .ok)
  | updPtr {rt : Slot} {v : Word} {a : Acc} : s.acc rt = some a → Run s (.updPtr rt v) ((s.setAcc rt (some (update64 s.params v a))).complete .ok)
  | updBufLong {rt : Slot} {addr len : Word} : s.params.lenW = .w32 → 2 ^ 32 ≤ len.toNat → Run s (.updBuf rt addr len) (s.raise .lengthRange len)
  | updBufBus {rt : Slot} {addr len : Word} {k : Nat} : k < len.toNat → RefusedAt s.params addr k .read →
      Run s (.updBuf rt addr len) (s.raiseBusAcc rt (addr + BitVec.ofNat 64 k))
  | updBuf {rt : Slot} {addr len : Word} {a : Acc} {bs : List Byte} : s.acc rt = some a → bs.length = len.toNat →
      Run s (.updBuf rt addr len) ((s.setAcc rt (some (foldWords s.params (leWords bs) (foldLength s.params len a)))).complete .ok)
  | updStrLong {rt : Slot} {addr : Word} : s.params.lenW = .w32 → NoZeroFor s.params s.mem addr (2 ^ 32) →
      Run s (.updStr rt addr) (s.raise .lengthRange (BitVec.ofNat 64 (2 ^ 32)))
  | updStrBus {rt : Slot} {addr : Word} {k : Nat} : RefusedAt s.params addr k .read → NoZeroFor s.params s.mem addr k →
      Run s (.updStr rt addr) (s.raiseBusAcc rt (addr + BitVec.ofNat 64 k))
  | updStr {rt : Slot} {addr : Word} {a : Acc} {bs : List Byte} : s.acc rt = some a → TextAt s.params s.mem addr bs.length →
      Run s (.updStr rt addr)
        ((s.setAcc rt (some (foldWords s.params (leWords bs) (foldLength s.params (BitVec.ofNat 64 bs.length) a)))).complete .ok)
  | updObjBus {rt : Slot} {addr len : Word} {k : Nat} : k < len.toNat → RefusedAt s.params addr k .read →
      Run s (.updObj rt addr len) (s.raiseBusAcc rt (addr + BitVec.ofNat 64 k))
  | updObj {rt : Slot} {addr len : Word} {a : Acc} {bs : List Byte} : s.acc rt = some a → bs.length = len.toNat →
      Run s (.updObj rt addr len) ((s.setAcc rt (some (foldWords s.params (leWords bs) a))).complete .ok)
  | genFromAcc {rd rs : Slot} {last : Last} :
      Run s (.genFromAcc rd rs) ((s.setGen rd ((s.acc rs).map (finalize s.params))).complete last)
  | genCreateZero {rt : Slot} {addr : Word} : Run s (.genCreate rt addr 0#64) ((s.setGen rt none).complete .zSize)
  | genCreateOver {rt : Slot} {addr size : Word} : s.params.lmax < keysWanted size →
      Run s (.genCreate rt addr size) (s.raise .capacity (BitVec.ofNat 64 (keysWanted size)))
  | genCreateBus {rt : Slot} {addr size : Word} {k : Nat} : k < 4 * size.toNat → RefusedAt s.params addr k .read →
      Run s (.genCreate rt addr size) (s.raiseBusGen rt (addr + BitVec.ofNat 64 k))
  | genCreate {rt : Slot} {addr size : Word} {keys : List Half} :
      Run s (.genCreate rt addr size) ((s.setGen rt (some ⟨s.params.startOut, keys⟩)).complete .ok)
  | genClone {rd rs : Slot} {last : Last} : Run s (.genClone rd rs) ((s.setGen rd (s.gen rs)).complete last)
  | genFreeNoObject {rt : Slot} : Run s (.genFree rt) (s.complete .noObj)
  | genFree {rt : Slot} : Run s (.genFree rt) ((s.setGen rt none).complete .ok)
  | genLen {rt : Slot} {v : Word} : Run s (.genLen rt) ((s.setRes v).complete .ok)
  | genKeyRange {rt : Slot} {j : Word} {g : Gen} : s.gen rt = some g → g.keys.length ≤ j.toNat → Run s (.genKey rt j) (s.raise .indexRange j)
  | genKey {rt : Slot} {j v : Word} : Run s (.genKey rt j) ((s.setRes v).complete .ok)
  | genNext {rt : Slot} {v : Word} {g : Gen} : s.gen rt = some g →
      Run s (.genNext rt) (((s.setGen rt (some (nextSeed s.params g).2)).setRes v).complete .ok)
  | genFillBus {rt : Slot} {addr count : Word} {m : Memory} {k : Nat} : k < 4 * count.toNat → RefusedAt s.params addr k .write →
      Run s (.genFill rt addr count) ((s.setMem m).raiseBusGen rt (addr + BitVec.ofNat 64 k))
  | genFill {rt : Slot} {addr count : Word} {m : Memory} {last : Last} :
      Run s (.genFill rt addr count) (((s.setGen rt (filledGen rt count s)).setMem m).complete last)
  | genRestart {rt : Slot} {v : Word} {g : Gen} : s.gen rt = some g →
      Run s (.genRestart rt) (((s.setGen rt (some ⟨s.params.startOut, g.keys⟩)).setRes v).complete .ok)

/-! ## The context fields -/

@[simp] theorem hasSlot_acc (p : Params) (a : Slot) : p.hasSlot (.acc, a) = decide (a.toNat < p.na) := rfl
@[simp] theorem hasSlot_gen (p : Params) (g : Slot) : p.hasSlot (.gen, g) = decide (g.toNat < p.ng) := rfl

/-- A checked target of an accumulator command: it is in range, or it is the first bad field. -/
theorem withAcc_run {i : Instr} {rt : Slot} {rest : List (Bank × Slot)} {s t : State} {go : Result} (hi : i.slots = (.acc, rt) :: rest)
    (h : withAcc rt s go = .next t) (hgo : rt.toNat < s.params.na → go = .next t → Run s i t) : Run s i t := by
  rcases withAcc_next h with ⟨hlt, h⟩ | ⟨hbad, rfl⟩
  · exact hgo hlt h
  · exact .badSlot (by simp [Instr.firstBadSlot, hi, hbad])

/-- A checked target of a generator command: it is in range, or it is the first bad field. -/
theorem withGen_run {i : Instr} {rt : Slot} {rest : List (Bank × Slot)} {s t : State} {go : Result} (hi : i.slots = (.gen, rt) :: rest)
    (h : withGen rt s go = .next t) (hgo : rt.toNat < s.params.ng → go = .next t → Run s i t) : Run s i t := by
  rcases withGen_next h with ⟨hlt, h⟩ | ⟨hbad, rfl⟩
  · exact hgo hlt h
  · exact .badSlot (by simp [Instr.firstBadSlot, hi, hbad])

/-! ## Every next state of a command is a run -/

theorem digest_run {i : Instr} {rt : Slot} {s t : State} {f : Acc → Acc} (hi : i.slots = [(.acc, rt)]) (hu : updateOf i = some rt)
    (hf : ∀ a, s.acc rt = some a → Run s i ((s.setAcc rt (some (f a))).complete .ok)) (h : digest rt s f = .next t) : Run s i t := by
  refine withAcc_run hi h fun _ h => ?_
  split at h <;> cases h
  · exact .updNoObject hu ‹_›
  · exact hf _ ‹_›

theorem digestBytes_next {rt : Slot} {addr : Word} {n : Nat} {a : Acc} {s t : State} (h : digestBytes rt addr n a s = .next t) :
    (∃ k, k < n ∧ RefusedAt s.params addr k .read ∧ t = s.raiseBusAcc rt (addr + BitVec.ofNat 64 k)) ∨
      ∃ bs, bs.length = n ∧ t = (s.setAcc rt (some (foldWords s.params (leWords bs) a))).complete .ok := by
  simp only [digestBytes] at h
  split at h
  · obtain ⟨w, rfl, rfl⟩ := stopAcc_next h
    obtain ⟨k, hk, rfl, hr⟩ := readBytes_bus ‹_›
    exact .inl ⟨k, hk, hr, rfl⟩
  · cases h
    exact .inr ⟨_, readBytes_length ‹_›, rfl⟩

theorem execAccCreate_run {rt : Slot} {bits : Word} {s t : State} (h : execAccCreate rt bits s = .next t) : Run s (.accCreate rt bits) t := by
  refine withAcc_run rfl h fun _ h => ?_
  split at h
  · rename_i hz
    cases h; rw [hz]; exact .accCreateZero
  · split at h <;> cases h
    · exact .accCreateOver ‹_›
    · exact .accCreate

theorem execAccClone_run {rd rs : Slot} {s t : State} (h : execAccClone rd rs s = .next t) : Run s (.accClone rd rs) t := by
  refine withAcc_run rfl h fun hd h => ?_
  rcases withAcc_next h with ⟨-, h⟩ | ⟨hs, rfl⟩
  · have hrun {last} : Run s (.accClone rd rs) ((s.setAcc rd (s.acc rs)).complete last) := .accClone
    cases hrs : s.acc rs <;> simp only [hrs] at h hrun <;> cases h <;> exact hrun
  · exact .badSlot (by simp [Instr.firstBadSlot, Instr.slots, hd, hs])

theorem execAccFree_run {rt : Slot} {s t : State} (h : execAccFree rt s = .next t) : Run s (.accFree rt) t := by
  refine withAcc_run rfl h fun _ h => ?_
  split at h <;> cases h
  · exact .accFreeNoObject
  · exact .accFree

theorem execAccLen_run {rt : Slot} {s t : State} (h : execAccLen rt s = .next t) : Run s (.accLen rt) t := by
  refine withAcc_run rfl h fun _ h => ?_
  split at h <;> cases h
  · exact .accValueNoObject rfl ‹_›
  · exact .accLen

theorem execAccLane_run {rt : Slot} {i : Word} {s t : State} (h : execAccLane rt i s = .next t) : Run s (.accLane rt i) t := by
  refine withAcc_run rfl h fun _ h => ?_
  split at h
  · cases h; exact .accValueNoObject rfl ‹_›
  · rename_i a ha
    split at h <;> cases h
    · exact .accLaneRange ha (List.getElem?_eq_none_iff.mp ‹_›)
    · exact .accLane

theorem execUpdBuf_run {rt : Slot} {addr len : Word} {s t : State} (h : execUpdBuf rt addr len s = .next t) : Run s (.updBuf rt addr len) t := by
  refine withAcc_run rfl h fun _ h => ?_
  split at h
  · cases h; exact .updNoObject rfl ‹_›
  · split at h
    · rename_i hlong
      cases h; exact .updBufLong hlong.1 hlong.2
    · obtain ⟨k, hk, hr, rfl⟩ | ⟨bs, hbs, rfl⟩ := digestBytes_next h
      · exact .updBufBus hk hr
      · exact .updBuf ‹_› hbs

theorem execUpdStr_run {rt : Slot} {addr : Word} {s t : State} (h : execUpdStr rt addr s = .next t) : Run s (.updStr rt addr) t := by
  refine withAcc_run rfl h fun _ h => ?_
  split at h
  · cases h; exact .updNoObject rfl ‹_›
  · split at h
    · obtain ⟨w, rfl, rfl⟩ := stopAcc_next h
      obtain ⟨k, rfl, hr, hz⟩ := scanText_bus ‹_›
      exact .updStrBus hr hz
    · have hz := scanText_none ‹_›
      simp only [unterminated] at h
      split at h <;> cases h
      rename_i hl
      rw [scanBound, hl] at hz
      exact .updStrLong hl hz
    · have htext := scanText_found ‹_›
      obtain ⟨k, hk, hr, -⟩ | ⟨bs, rfl, rfl⟩ := digestBytes_next h
      · obtain ⟨-, hreadable, -⟩ := htext
        have := (hreadable k (by omega)).1
        rw [hr.2] at this
        cases this
      · exact .updStr ‹_› htext

theorem execUpdObj_run {rt : Slot} {addr len : Word} {s t : State} (h : execUpdObj rt addr len s = .next t) : Run s (.updObj rt addr len) t := by
  refine withAcc_run rfl h fun _ h => ?_
  split at h
  · cases h; exact .updNoObject rfl ‹_›
  · obtain ⟨k, hk, hr, rfl⟩ | ⟨bs, hbs, rfl⟩ := digestBytes_next h
    · exact .updObjBus hk hr
    · exact .updObj ‹_› hbs

theorem execGenFromAcc_run {rd rs : Slot} {s t : State} (h : execGenFromAcc rd rs s = .next t) : Run s (.genFromAcc rd rs) t := by
  refine withGen_run rfl h fun hd h => ?_
  rcases withAcc_next h with ⟨-, h⟩ | ⟨hs, rfl⟩
  · have hrun {last} : Run s (.genFromAcc rd rs) ((s.setGen rd ((s.acc rs).map (finalize s.params))).complete last) := .genFromAcc
    cases hrs : s.acc rs <;> simp only [hrs, Option.map_none, Option.map_some] at h hrun <;> cases h <;> exact hrun
  · exact .badSlot (by simp [Instr.firstBadSlot, Instr.slots, hd, hs])

theorem execGenCreate_run {rt : Slot} {addr size : Word} {s t : State} (h : execGenCreate rt addr size s = .next t) :
    Run s (.genCreate rt addr size) t := by
  refine withGen_run rfl h fun _ h => ?_
  split at h
  · rename_i hz
    cases h; rw [hz]; exact .genCreateZero
  · split at h
    · cases h; exact .genCreateOver ‹_›
    · split at h
      · obtain ⟨w, rfl, rfl⟩ := stopGen_next h
        obtain ⟨k, hk, rfl, hr⟩ := readBytes_bus ‹_›
        exact .genCreateBus hk hr
      · cases h; exact .genCreate

theorem execGenClone_run {rd rs : Slot} {s t : State} (h : execGenClone rd rs s = .next t) : Run s (.genClone rd rs) t := by
  refine withGen_run rfl h fun hd h => ?_
  rcases withGen_next h with ⟨-, h⟩ | ⟨hs, rfl⟩
  · have hrun {last} : Run s (.genClone rd rs) ((s.setGen rd (s.gen rs)).complete last) := .genClone
    cases hrs : s.gen rs <;> simp only [hrs] at h hrun <;> cases h <;> exact hrun
  · exact .badSlot (by simp [Instr.firstBadSlot, Instr.slots, hd, hs])

theorem execGenFree_run {rt : Slot} {s t : State} (h : execGenFree rt s = .next t) : Run s (.genFree rt) t := by
  refine withGen_run rfl h fun _ h => ?_
  split at h <;> cases h
  · exact .genFreeNoObject
  · exact .genFree

theorem execGenLen_run {rt : Slot} {s t : State} (h : execGenLen rt s = .next t) : Run s (.genLen rt) t := by
  refine withGen_run rfl h fun _ h => ?_
  split at h <;> cases h
  · exact .genValueNoObject rfl ‹_›
  · exact .genLen

theorem execGenKey_run {rt : Slot} {j : Word} {s t : State} (h : execGenKey rt j s = .next t) : Run s (.genKey rt j) t := by
  refine withGen_run rfl h fun _ h => ?_
  split at h
  · cases h; exact .genValueNoObject rfl ‹_›
  · rename_i g hg
    split at h <;> cases h
    · exact .genKeyRange hg (List.getElem?_eq_none_iff.mp ‹_›)
    · exact .genKey

theorem execGenNext_run {rt : Slot} {s t : State} (h : execGenNext rt s = .next t) : Run s (.genNext rt) t := by
  refine withGen_run rfl h fun _ h => ?_
  split at h <;> cases h
  · exact .genValueNoObject rfl ‹_›
  · exact .genNext ‹_›

theorem execGenFill_run {rt : Slot} {addr count : Word} {s t : State} (h : execGenFill rt addr count s = .next t) :
    Run s (.genFill rt addr count) t := by
  refine withGen_run rfl h fun _ h => ?_
  dsimp only at h
  split at h
  · obtain ⟨w, rfl, rfl⟩ := stopGen_next h
    obtain ⟨k, hk, rfl, hr⟩ := storeBytes_writesAt_bus ‹_›
    rw [fillWords_length] at hk
    exact .genFillBus hk hr
  · cases h; exact .genFill

theorem execGenRestart_run {rt : Slot} {s t : State} (h : execGenRestart rt s = .next t) : Run s (.genRestart rt) t := by
  refine withGen_run rfl h fun _ h => ?_
  split at h <;> cases h
  · exact .genValueNoObject rfl ‹_›
  · exact .genRestart ‹_›

/-- Every next state of a command is one of its outcomes. -/
theorem exec_run {i : Instr} {s t : State} (h : exec i s = .next t) : Run s i t := by
  cases i with
  | nop => cases h; exact .nop
  | accCreate rt bits => exact execAccCreate_run h
  | accClone rd rs => exact execAccClone_run h
  | accFree rt => exact execAccFree_run h
  | accLen rt => exact execAccLen_run h
  | accLane rt i => exact execAccLane_run h
  | updU32 rt v => exact digest_run rfl rfl (fun _ => .updU32) h
  | updU64 rt v => exact digest_run rfl rfl (fun _ => .updU64) h
  | updF32 rt v => exact digest_run rfl rfl (fun _ => .updF32) h
  | updF64 rt v => exact digest_run rfl rfl (fun _ => .updF64) h
  | updPtr rt v => exact digest_run rfl rfl (fun _ => .updPtr) h
  | updBuf rt addr len => exact execUpdBuf_run h
  | updStr rt addr => exact execUpdStr_run h
  | updObj rt addr len => exact execUpdObj_run h
  | genFromAcc rd rs => exact execGenFromAcc_run h
  | genCreate rt addr size => exact execGenCreate_run h
  | genClone rd rs => exact execGenClone_run h
  | genFree rt => exact execGenFree_run h
  | genLen rt => exact execGenLen_run h
  | genKey rt j => exact execGenKey_run h
  | genNext rt => exact execGenNext_run h
  | genFill rt addr count => exact execGenFill_run h
  | genRestart rt => exact execGenRestart_run h

end Sys2Proof.Machine
end

section
/-! PROOFS. The laws the statements on the state are read off: the registers, what every step keeps, the positions, faults,
and what a command writes. -/

namespace Sys2Proof.Machine

open Sys2Proof.Claims

/-! ## The port -/

theorem step_idle {s : State} (h : s.inputs = []) : step s = .next s := by simp only [step, h]

theorem step_act {s : State} {i : Input} {rest : List Input} (h : s.inputs = i :: rest) : step s = act i { s with inputs := rest } := by
  simp only [step, h]

/-- All that a submission can do when it answers a next state. -/
theorem submit_next {p : Packet} {s t : State} (h : submit p s = .next t) :
    (s.status.fault = true ∧ t = s) ∨
      s.status.fault = false ∧ ((∃ e w, decode p = .error e ∧ t = s.raise .illegalCommand w) ∨ ∃ i, decode p = .ok i ∧ exec i s = .next t) := by
  simp only [submit] at h
  split at h
  · cases h; exact .inl ⟨‹_›, rfl⟩
  · refine .inr ⟨Bool.eq_false_of_not_eq_true ‹_›, ?_⟩
    split at h
    · cases h; exact .inl ⟨_, _, ‹_›, rfl⟩
    · exact .inr ⟨_, ‹_›, h⟩

/-! ## The registers the host observes -/

theorem toNat_append_add {m n : Nat} (x : BitVec m) (y : BitVec n) : (x ++ y).toNat = x.toNat * 2 ^ n + y.toNat := by
  rw [BitVec.toNat_append, ← Nat.shiftLeft_add_eq_or_of_lt y.isLt, Nat.shiftLeft_eq]

theorem cfgWord_eq (p : Params) : cfgWord p = BitVec.ofNat 64 (p.na % 2 ^ 5 + 2 ^ 8 * (p.ng % 2 ^ 5) + 2 ^ 16 * (p.lmax % 2 ^ 17) +
    2 ^ 40 * (if p.lenW = .w64 then 1 else 0)) := by
  apply BitVec.eq_of_toNat_eq
  have hw : (BitVec.ofBool (p.lenW == .w64)).toNat = if p.lenW = .w64 then 1 else 0 := by cases p.lenW <;> rfl
  simp only [cfgWord, toNat_append_add, BitVec.toNat_ofNat, hw]
  split <;> omega

theorem Status.word_eq (st : Status) : st.word = BitVec.ofNat 64 ((if st.fault = true then 1 else 0) +
    2 * (match st.last with | .ok => 0 | .noObj => 1 | .zSize => 2)) := by
  obtain ⟨fault, last⟩ := st
  cases fault <;> cases last <;> rfl

/-- The register of a number holds the number the table of the registers gives. -/
theorem register_eq (s : State) (n : Nat) : s.register n = (registerValue s n).map (BitVec.ofNat 64) := by
  match n with
  | 0 => rfl
  | 1 => exact congrArg some (cfgWord_eq s.params)
  | 2 => exact congrArg some (Status.word_eq s.status)
  | 3 | 4 | 5 | 8 | 9 | 10 | 11 | 12 | 13 => simp [State.register, registerValue]
  | 6 | 7 | n + 14 => rfl

theorem observe_some {s : State} {n v : Nat} (h : registerValue s n = some v) :
    observe n s = .next { s with observed := some (BitVec.ofNat 64 v) } := by
  simp only [observe, register_eq, h, Option.map_some]

theorem observe_none {s : State} {n : Nat} (h : registerValue s n = none) : observe n s = .refused (.noSuchRegister n) := by
  simp only [observe, register_eq, h, Option.map_none]

/-! ## The parameters -/

theorem Effect.params {i : Instr} {s t : State} (h : Effect i s t) : t.params = s.params := by
  cases h <;> rfl

theorem act_params {i : Input} {s t : State} (h : act i s = .next t) : t.params = s.params := by
  rcases act_next h with rfl | ⟨-, p, j, -, -, hexec⟩ | ⟨-, w, rfl⟩ | ⟨v, rfl⟩ | ⟨ws, rfl⟩ | ⟨a, b, rfl⟩
  case inr.inl => exact (exec_effect hexec).params
  all_goals rfl

/-! ## The invariant -/

theorem Cause.code_range (c : Cause) : 1 ≤ c.code.toNat ∧ c.code.toNat ≤ 6 := by
  cases c <;> decide

namespace State.Inv

variable {s : State}

/-- A state in which a fault is pending has nothing to show of its contexts. -/
theorem of_fault {t : State} (hp : t.params.wf = true) (hm : Memory.wf t.mem = true) (hf : t.status.fault = true)
    (hc : 1 ≤ t.cause.toNat ∧ t.cause.toNat ≤ 6) : t.Inv where
  params := hp
  mem := hm
  quiet h := by simp [hf] at h
  caused _ := hc
  accs h := by simp [hf] at h
  gens h := by simp [hf] at h

theorem raise (h : s.Inv) (c : Cause) (w : Word) : (s.raise c w).Inv := of_fault h.params h.mem rfl c.code_range

theorem complete (h : s.Inv) (last : Last) : (s.complete last).Inv := ⟨h.params, h.mem, h.quiet, h.caused, h.accs, h.gens⟩

theorem setRes (h : s.Inv) (v : Word) : (s.setRes v).Inv := ⟨h.params, h.mem, h.quiet, h.caused, h.accs, h.gens⟩

theorem setMem (h : s.Inv) {m : Memory} (hm : Memory.wf m = true) : (s.setMem m).Inv := ⟨h.params, hm, h.quiet, h.caused, h.accs, h.gens⟩

theorem withInputs (h : s.Inv) (l : List Input) : ({ s with inputs := l } : State).Inv := ⟨h.params, h.mem, h.quiet, h.caused, h.accs, h.gens⟩

theorem withObserved (h : s.Inv) (v : Option Word) : ({ s with observed := v } : State).Inv :=
  ⟨h.params, h.mem, h.quiet, h.caused, h.accs, h.gens⟩

theorem setAcc (h : s.Inv) {rt : Slot} {o : Option Acc} (hrt : rt.toNat < s.params.na) (ho : ∀ x, o = some x → x.fits s.params) :
    (s.setAcc rt o).Inv := by
  refine ⟨h.params, h.mem, h.quiet, h.caused, fun hf a x hx => ?_, h.gens⟩
  rw [State.setAcc_acc] at hx
  split at hx
  · subst a; exact ⟨hrt, ho x hx⟩
  · exact h.accs hf a x hx

theorem setGen (h : s.Inv) {rt : Slot} {o : Option Gen} (hrt : rt.toNat < s.params.ng) (ho : ∀ x, o = some x → x.fits s.params) :
    (s.setGen rt o).Inv := by
  refine ⟨h.params, h.mem, h.quiet, h.caused, h.accs, fun hf g x hx => ?_⟩
  rw [State.setGen_gen] at hx
  split at hx
  · subst g; exact ⟨hrt, ho x hx⟩
  · exact h.gens hf g x hx

theorem resetEvent (h : s.Inv) : s.resetEvent.Inv where
  params := h.params
  mem := h.mem
  quiet _ := ⟨rfl, rfl⟩
  caused hf := by simp at hf
  accs _ a x hx := by simp at hx
  gens _ g x hx := by simp at hx

end State.Inv

/-- Whatever a command writes into an accumulator context fits (R14 item 1). -/
theorem AccSource.fits {s : State} {o : Option Acc} (h : AccSource s o) (hs : s.Inv) (hf : s.status.fault = false) :
    ∀ x, o = some x → x.fits s.params := by
  rintro x rfl
  cases h with
  | created n heven hpos hmax => rw [Acc.fits, freshAcc_length]; exact ⟨heven, hpos, hmax⟩
  | derived rs a _ ha hlen => rw [Acc.fits, hlen]; exact (hs.accs hf rs a ha).2

/-- Whatever a command writes into a generator context fits (R14 item 1). -/
theorem GenSource.fits {s : State} {o : Option Gen} (h : GenSource s o) (hs : s.Inv) (hf : s.status.fault = false) :
    ∀ x, o = some x → x.fits s.params := by
  rintro x rfl
  cases h with
  | created ks heven hpos hmax => exact ⟨heven, hpos, hmax⟩
  | finalized rs a ha => rw [Gen.fits, finalize_length]; exact (hs.accs hf rs a ha).2
  | derived rs g _ hg hkeys => rw [Gen.fits, hkeys]; exact (hs.gens hf rs g hg).2

theorem Effect.inv {i : Instr} {s t : State} (h : Effect i s t) (hs : s.Inv) (hf : s.status.fault = false) : t.Inv := by
  cases h with
  | raised c w _ => exact hs.raise c w
  | busAcc rt w _ => exact .of_fault hs.params hs.mem rfl (Cause.code_range .busFault)
  | busGen rt w ws _ _ => exact .of_fault hs.params (storeBytes_wf ws hs.mem) rfl (Cause.code_range .busFault)
  | completed last => exact hs.complete last
  | valued last v => exact (hs.setRes v).complete last
  | wroteAcc last rt x _ hrt hx => exact (hs.setAcc hrt (hx.fits hs hf)).complete last
  | wroteGen last rt x _ hrt hx => exact (hs.setGen hrt (hx.fits hs hf)).complete last
  | wroteGenValued last rt x v _ hrt hx => exact ((hs.setGen hrt (hx.fits hs hf)).setRes v).complete last
  | filled last rt x addr count _ hrt hx => exact ((hs.setGen hrt (hx.fits hs hf)).setMem (storeBytes_wf _ hs.mem)).complete last

theorem act_inv {i : Input} {s t : State} (hs : s.Inv) (h : act i s = .next t) : t.Inv := by
  rcases act_next h with rfl | ⟨hf, p, j, -, -, hexec⟩ | ⟨-, w, rfl⟩ | ⟨v, rfl⟩ | ⟨ws, rfl⟩ | ⟨a, b, rfl⟩
  · exact hs
  · exact (exec_effect hexec).inv hs hf
  · exact hs.raise .illegalCommand w
  · exact hs.withObserved v
  · exact (hs.setMem (storeBytes_wf ws hs.mem)).resetEvent
  · exact hs.setMem (Memory.wf_write _ b hs.mem a.isLt)

/-! ## The parameters of the reset state -/

theorem oddWord_or_one (w : Word) : oddWord (w ||| 1#64) = true := by
  simp [oddWord, Nat.or_mod_two_eq_one]

theorem oddWord_add_two {w : Word} (h : oddWord w = true) : oddWord (w + 2#64) = true := by
  simp only [oddWord, beq_iff_eq, BitVec.toNat_add, BitVec.toNat_ofNat] at *
  omega

theorem Config.oddWord_incOut : oddWord Config.incOut = true := by
  rw [Config.incOut]
  split
  · exact oddWord_add_two (oddWord_or_one _)
  · exact oddWord_or_one _

theorem Config.pairs_separate (hstart : Config.startIn = Config.startOut) : Config.incIn ≠ Config.incOut := by
  rw [Config.incOut]
  split
  · rename_i h
    rw [h.2]
    intro he
    simp at he
  · rename_i h
    exact fun he => h ⟨hstart, he⟩

theorem Config.params_wf : Config.params.wf = true := by
  have hodd : Config.params.constantsOdd = true := by
    simp [Params.constantsOdd, Config.params, Config.startIn, Config.incIn, Config.startOut, Config.mixM1, Config.mixM2, oddWord_or_one,
      Config.oddWord_incOut]
  have hpairs : Config.params.pairsSeparate = true := by
    simpa [Params.pairsSeparate, Config.params, imp_iff_not_or] using Config.pairs_separate
  simp only [Params.wf, hodd, hpairs]
  decide

/-! ## The positions -/

@[simp] theorem Counts.setAcc_same (c : Counts) (rt : Slot) : c.setAcc rt (c.acc rt) = c := by
  simp only [Counts.setAcc]
  congr
  funext a
  split
  · subst a; rfl
  · rfl

@[simp] theorem Counts.setGen_same (c : Counts) (rt : Slot) : c.setGen rt (c.gen rt) = c := by
  simp only [Counts.setGen]
  congr
  funext g
  split
  · subst g; rfl
  · rfl

namespace State.PositionedAt

variable {s : State} {c : Counts}

theorem of_fault (h : s.status.fault = true) : s.PositionedAt c := fun hf => by simp [h] at hf

theorem of_noObjects (ha : ∀ a, s.acc a = none) (hg : ∀ g, s.gen g = none) : s.PositionedAt c :=
  fun _ => ⟨fun a x hx => by simp [ha] at hx, fun g x hx => by simp [hg] at hx⟩

theorem complete (h : s.PositionedAt c) (last : Last) : (s.complete last).PositionedAt c := h

theorem setRes (h : s.PositionedAt c) (v : Word) : (s.setRes v).PositionedAt c := h

theorem setMem (h : s.PositionedAt c) (m : Memory) : (s.setMem m).PositionedAt c := h

theorem setAcc (h : s.PositionedAt c) {rt : Slot} {o : Option Acc} {n : Nat} (ho : ∀ x, o = some x → x.at s.params n) :
    (s.setAcc rt o).PositionedAt (c.setAcc rt n) := by
  intro hf
  obtain ⟨haccs, hgens⟩ := h hf
  refine ⟨fun a x hx => ?_, hgens⟩
  simp only [State.setAcc_acc, Counts.setAcc] at hx ⊢
  split at hx
  · rw [if_pos ‹_›]; exact ho x hx
  · rw [if_neg ‹_›]; exact haccs a x hx

theorem setGen (h : s.PositionedAt c) {rt : Slot} {o : Option Gen} {m : Nat} (ho : ∀ x, o = some x → x.at s.params m) :
    (s.setGen rt o).PositionedAt (c.setGen rt m) := by
  intro hf
  obtain ⟨haccs, hgens⟩ := h hf
  refine ⟨haccs, fun g x hx => ?_⟩
  simp only [State.setGen_gen, Counts.setGen] at hx ⊢
  split at hx
  · rw [if_pos ‹_›]; exact ho x hx
  · rw [if_neg ‹_›]; exact hgens g x hx

/-- The count of "no object" can be any. -/
theorem recountAcc (h : s.PositionedAt c) {rt : Slot} (hrt : s.acc rt = none) (n : Nat) : s.PositionedAt (c.setAcc rt n) := by
  intro hf
  obtain ⟨haccs, hgens⟩ := h hf
  refine ⟨fun a x hx => ?_, hgens⟩
  simp only [Counts.setAcc]
  split
  · subst a; rw [hrt] at hx; cases hx
  · exact haccs a x hx

/-- The count of "no object" can be any. -/
theorem recountGen (h : s.PositionedAt c) {rt : Slot} (hrt : s.gen rt = none) (m : Nat) : s.PositionedAt (c.setGen rt m) := by
  intro hf
  obtain ⟨haccs, hgens⟩ := h hf
  refine ⟨haccs, fun g x hx => ?_⟩
  simp only [Counts.setGen]
  split
  · subst g; rw [hrt] at hx; cases hx
  · exact hgens g x hx

theorem clearAcc (h : s.PositionedAt c) (rt : Slot) (n : Nat) : (s.setAcc rt none).PositionedAt (c.setAcc rt n) :=
  h.setAcc fun x hx => by cases hx

theorem clearGen (h : s.PositionedAt c) (rt : Slot) (m : Nat) : (s.setGen rt none).PositionedAt (c.setGen rt m) :=
  h.setGen fun x hx => by cases hx

/-- An update of an accumulator the state holds, that advances its position from its count to `n`. -/
theorem updateAcc (h : s.PositionedAt c) (hf : s.status.fault = false) {rt : Slot} {a b : Acc} {n : Nat} (ha : s.acc rt = some a)
    (hb : a.at s.params (c.acc rt) → b.at s.params n) : (s.setAcc rt (some b)).PositionedAt (c.setAcc rt n) :=
  h.setAcc fun x hx => by cases hx; exact hb ((h hf).1 rt a ha)

end State.PositionedAt

/-- What an update leaves of the counts: those of the other contexts. -/
theorem countsAfter_update {s : State} {c c' : Counts} {i : Instr} {rt : Slot} (hi : updateOf i = some rt) (h : CountsAfter s c c' i) :
    ∃ n, c' = c.setAcc rt n := by
  cases i <;> cases hi
  case updStr addr => exact ⟨_, h.choose_spec.1⟩
  all_goals exact ⟨_, h⟩

/-- A value-returning command of an accumulator moves no position. -/
theorem countsAfter_accValue {s : State} {c c' : Counts} {i : Instr} {rt : Slot} (hi : valueFrom i = some (.acc, rt))
    (h : CountsAfter s c c' i) : c' = c := by
  cases i <;> cases hi <;> exact h

/-- What a value-returning command of a generator leaves of the counts: those of the other contexts. -/
theorem countsAfter_genValue {s : State} {c c' : Counts} {i : Instr} {rt : Slot} (hi : valueFrom i = some (.gen, rt))
    (h : CountsAfter s c c' i) : ∃ m, c' = c.setGen rt m := by
  cases i <;> cases hi
  case genLen | genKey => exact ⟨c.gen rt, by rw [Counts.setGen_same]; exact h⟩
  all_goals exact ⟨_, h⟩

/-- A command moves every position by what it makes. -/
theorem Run.positioned {i : Instr} {s t : State} {c c' : Counts} (hr : Run s i t) (hf : s.status.fault = false) (hs : s.PositionedAt c)
    (hc : CountsAfter s c c' i) : t.PositionedAt c' := by
  cases hr with
  | badSlot | accCreateOver | accLaneRange | updBufLong | updBufBus | updStrLong | updStrBus | updObjBus | genCreateOver | genCreateBus
  | genKeyRange | genFillBus => exact .of_fault rfl
  | nop | accLen | accLane | genLen | genKey | accFreeNoObject | genFreeNoObject => subst hc; exact hs
  | accValueNoObject hv _ => rw [countsAfter_accValue hv hc]; exact hs
  | genValueNoObject hv hnone =>
    obtain ⟨m, rfl⟩ := countsAfter_genValue hv hc
    exact hs.recountGen hnone m
  | updNoObject hu hnone =>
    obtain ⟨n, rfl⟩ := countsAfter_update hu hc
    exact hs.recountAcc hnone n
  | accCreateZero => subst hc; exact hs.clearAcc _ _
  | accCreate => subst hc; exact hs.setAcc fun x hx => by cases hx; exact freshAcc_at _ _
  | accClone => subst hc; exact hs.setAcc fun x hx => (hs hf).1 _ x hx
  | @accFree rt => subst hc; rw [← c'.setAcc_same rt]; exact hs.clearAcc rt _
  | updU32 ha | updF32 ha => subst hc; exact hs.updateAcc hf ha (update32_at _)
  | updU64 ha | updF64 ha | updPtr ha => subst hc; exact hs.updateAcc hf ha (update64_at _)
  | updBuf ha hlen =>
    subst hc
    refine hs.updateAcc hf ha fun hat => ?_
    rw [← hlen, ← leWords_length]
    exact foldWords_at _ (foldLength_at _ hat)
  | updStr ha htext =>
    obtain ⟨n, rfl, hn⟩ := hc
    refine hs.updateAcc hf ha fun hat => ?_
    rw [hn _ htext, ← leWords_length]
    exact foldWords_at _ (foldLength_at _ hat)
  | updObj ha hlen =>
    subst hc
    refine hs.updateAcc hf ha fun hat => ?_
    rw [← hlen, ← leWords_length]
    exact foldWords_at _ hat
  | genFromAcc =>
    subst hc
    refine hs.setGen fun x hx => ?_
    obtain ⟨a, -, rfl⟩ := Option.map_eq_some_iff.mp hx
    exact startOut_at _ _
  | genCreateZero => subst hc; exact hs.clearGen _ _
  | genCreate => subst hc; exact hs.setGen fun x hx => by cases hx; exact startOut_at _ _
  | genClone => subst hc; exact hs.setGen fun x hx => (hs hf).2 _ x hx
  | @genFree rt => subst hc; rw [← c'.setGen_same rt]; exact hs.clearGen rt _
  | genNext hg => subst hc; exact hs.setGen fun x hx => by cases hx; exact nextSeed_at ((hs hf).2 _ _ hg)
  | genFill =>
    subst hc
    refine hs.setGen fun x hx => ?_
    obtain ⟨g, hg, rfl⟩ := Option.map_eq_some_iff.mp hx
    exact seeds_at _ ((hs hf).2 _ g hg)
  | genRestart => subst hc; exact hs.setGen fun x hx => by cases hx; exact startOut_at _ _

/-- An act of the host that submits no command to completion moves no position. -/
theorem act_positioned {i : Input} {s t : State} {c : Counts} (hi : ∀ p, i ≠ .submit p) (hs : s.PositionedAt c) (h : act i s = .next t) :
    t.PositionedAt c := by
  rcases act_next h with rfl | ⟨-, p, j, hp, -⟩ | ⟨-, w, rfl⟩ | ⟨v, rfl⟩ | ⟨ws, rfl⟩ | ⟨a, b, rfl⟩
  · exact hs
  · exact absurd hp (hi p)
  · exact .of_fault rfl
  · exact hs
  · exact .of_noObjects (State.resetEvent_acc _) (State.resetEvent_gen _)
  · exact hs.setMem _

/-- The counts after a command do not depend on the host's acts to come. -/
theorem countsAfter_withInputs {s : State} {c c' : Counts} {i : Instr} {l : List Input} :
    CountsAfter { s with inputs := l } c c' i ↔ CountsAfter s c c' i := by
  cases i <;> rfl

theorem countsAfterStep_other {s : State} {c c' : Counts} (hin : ∀ p rest, s.inputs ≠ .submit p :: rest) (h : CountsAfterStep s c c') :
    c' = c := by
  simp only [CountsAfterStep] at h
  split at h
  · exact absurd ‹_› (hin _ _)
  all_goals exact h

theorem submit_positioned {p : Packet} {rest : List Input} {s t : State} {c c' : Counts} (hin : s.inputs = .submit p :: rest)
    (hs : s.PositionedAt c) (h : submit p { s with inputs := rest } = .next t) (hc : CountsAfterStep s c c') : t.PositionedAt c' := by
  simp only [CountsAfterStep, hin] at hc
  rcases submit_next h with ⟨hf, rfl⟩ | ⟨hf, ⟨e, w, -, rfl⟩ | ⟨i, hdec, hexec⟩⟩
  · exact .of_fault hf
  · exact .of_fault rfl
  · rw [hdec] at hc
    exact (exec_run hexec).positioned hf hs (countsAfter_withInputs.mpr hc)

/-! ## Faults -/

/-- A command that raises a fault keeps `LAST`, `RES` and the host's side (R16, R17, R120). -/
theorem Effect.faulted {i : Instr} {s t : State} (h : Effect i s t) (hf : s.status.fault = false) (ht : t.status.fault = true) :
    Faulted t.cause t.info s t := by
  cases h with
  | raised | busAcc | busGen => exact ⟨rfl, rfl, rfl, rfl, rfl, rfl, rfl⟩
  | completed | valued | wroteAcc | wroteGen | wroteGenValued | filled => exact absurd ht (by simp [hf])

/-- A command that raises a fault does so under the condition of its row of the fault table (R116). -/
theorem Run.faultRow {i : Instr} {s t : State} (hr : Run s i t) (hf : s.status.fault = false) (ht : t.status.fault = true) :
    FaultRow i s t.cause t.info := by
  cases hr
  case badSlot k hk => exact .inl ⟨rfl, k, hk, (BitVec.ofNat_toNat 64 k).symm⟩
  case accCreateOver rt bits hover =>
    exact .inr (.inl ⟨rfl, _, hover, rfl, .inl ⟨rt, bits, rfl, lanesWanted_eq bits⟩⟩)
  case genCreateOver rt addr size hover => exact .inr (.inl ⟨rfl, _, hover, rfl, .inr ⟨rt, addr, size, rfl, rfl⟩⟩)
  case accLaneRange rt j a ha hlen => exact .inr (.inr (.inl ⟨rfl, rt, .inl ⟨rfl, a, ha, hlen⟩⟩))
  case genKeyRange rt j g hg hlen => exact .inr (.inr (.inl ⟨rfl, rt, .inr ⟨rfl, g, hg, hlen⟩⟩))
  case updBufLong rt addr len hw hlen => exact .inr (.inr (.inr (.inl ⟨rfl, hw, rt, addr, .inl ⟨rfl, hlen⟩⟩)))
  case updStrLong rt addr hw hz => exact .inr (.inr (.inr (.inl ⟨rfl, hw, rt, addr, .inr ⟨rfl, rfl, hz⟩⟩)))
  case updBufBus rt addr len k hk href =>
    exact .inr (.inr (.inr (.inr ⟨rfl, rt, addr, k, .read, href, rfl, .inl ⟨rfl, len, hk, .inl rfl⟩⟩)))
  case updObjBus rt addr len k hk href =>
    exact .inr (.inr (.inr (.inr ⟨rfl, rt, addr, k, .read, href, rfl, .inl ⟨rfl, len, hk, .inr rfl⟩⟩)))
  case updStrBus rt addr k href hz => exact .inr (.inr (.inr (.inr ⟨rfl, rt, addr, k, .read, href, rfl, .inr (.inl ⟨rfl, rfl, hz⟩)⟩)))
  case genCreateBus rt addr size k hk href =>
    exact .inr (.inr (.inr (.inr ⟨rfl, rt, addr, k, .read, href, rfl, .inr (.inr (.inl ⟨rfl, size, hk, rfl⟩))⟩)))
  case genFillBus rt addr count m k hk href =>
    exact .inr (.inr (.inr (.inr ⟨rfl, rt, addr, k, .write, href, rfl, .inr (.inr (.inr ⟨rfl, count, hk, rfl⟩))⟩)))
  -- the commands that completed have not raised a fault
  all_goals exact absurd ht (by simp [hf])

/-! ## What a command writes -/

theorem Effect.keepsUnnamedAcc {i : Instr} {s t : State} (h : Effect i s t) {a : Slot} (ha : (Bank.acc, a) ∉ i.slots) : t.acc a = s.acc a := by
  cases h with
  | busAcc rt w hi => rw [State.raiseBusAcc_acc, if_neg fun (e : a = rt) => ha (e ▸ hi)]
  | wroteAcc last rt x hi => exact State.setAcc_acc_other rt x s a fun (e : a = rt) => ha (e ▸ hi)
  | raised | busGen | completed | valued | wroteGen | wroteGenValued | filled => rfl

theorem Effect.keepsUnnamedGen {i : Instr} {s t : State} (h : Effect i s t) {g : Slot} (hg : (Bank.gen, g) ∉ i.slots) : t.gen g = s.gen g := by
  cases h with
  | busGen rt w ws hi => rw [State.raiseBusGen_gen, if_neg fun (e : g = rt) => hg (e ▸ hi), State.setMem_gen]
  | wroteGen last rt x hi | wroteGenValued last rt x v hi => exact State.setGen_gen_other rt x s g fun (e : g = rt) => hg (e ▸ hi)
  | filled last rt x addr count hi =>
    exact State.setGen_gen_other rt x s g fun e => hg (by simp [hi, e, Instr.slots])
  | raised | busAcc | completed | valued | wroteAcc => rfl

/-- The accumulator a command only reads keeps its value (R72, R76). -/
theorem Run.keepsSourceAcc {i : Instr} {s t : State} (hr : Run s i t) {a : Slot} (ha : sourceOf i = some (.acc, a)) : t.acc a = s.acc a := by
  cases hr
  case accClone rd rs last =>
    simp only [sourceOf] at ha
    split at ha <;> cases ha
    exact State.setAcc_acc_other rd _ s a (Ne.symm ‹_›)
  case badSlot | accValueNoObject | genValueNoObject | updNoObject | genFromAcc | genClone => rfl
  all_goals cases ha

/-- The generator a command only reads keeps its value (R98). -/
theorem Run.keepsSourceGen {i : Instr} {s t : State} (hr : Run s i t) {g : Slot} (hg : sourceOf i = some (.gen, g)) : t.gen g = s.gen g := by
  cases hr
  case genClone rd rs last =>
    simp only [sourceOf] at hg
    split at hg <;> cases hg
    exact State.setGen_gen_other rd _ s g (Ne.symm ‹_›)
  case badSlot | accValueNoObject | genValueNoObject | updNoObject | accClone => rfl
  all_goals cases hg

/-- A command that returns no value keeps `RES` (R16). -/
theorem Run.keepsRes {i : Instr} {s t : State} (hr : Run s i t) (hi : valueFrom i = none) : t.res = s.res := by
  cases hr
  case accValueNoObject hv | genValueNoObject hv => rw [hi] at hv; cases hv
  case accLen | accLane | genLen | genKey | genNext | genRestart => cases hi
  all_goals rfl

/-- A value-returning command on "no object" writes 0 and `NOOBJ`, and nothing else (R16). -/
theorem exec_value_noObject {i : Instr} {s : State} {c : Bank × Slot} (hi : valueFrom i = some c) (hc : s.params.hasSlot c = true)
    (hnone : NoObjectAt s c) : exec i s = .next ((s.setRes 0#64).complete .noObj) := by
  obtain ⟨_ | _, rt⟩ := c
  · have hrt : rt.toNat < s.params.na := by simpa using hc
    have hnone : s.acc rt = none := hnone
    cases i <;> cases hi <;> simp only [exec, execAccLen, execAccLane, withAcc_ok _ hrt, hnone]
  · have hrt : rt.toNat < s.params.ng := by simpa using hc
    have hnone : s.gen rt = none := hnone
    cases i <;> cases hi <;> simp only [exec, execGenLen, execGenKey, execGenNext, execGenRestart, withGen_ok _ hrt, hnone]

end Sys2Proof.Machine
end

section
/-! PROOFS. What a command draws on: every command run from two states side by side. -/

namespace Sys2Proof.Claims.Agree

open Sys2Proof.Machine

variable {i : Instr} {s s' : State}

theorem params (h : Agree i s s') : s'.params = s.params := h.1

theorem mem (h : Agree i s s') : s'.mem = s.mem := h.2.1

theorem setRes (h : Agree i s s') (v : Word) : Agree i (s.setRes v) (s'.setRes v) := h

theorem setMem (h : Agree i s s') (m : Memory) : Agree i (s.setMem m) (s'.setMem m) := by
  obtain ⟨hp, -, hc, haccs, hgens⟩ := h
  exact ⟨hp, rfl, hc, haccs, hgens⟩

theorem complete (h : Agree i s s') (last : Last) : Agree i (s.complete last) (s'.complete last) := h

theorem raise (h : Agree i s s') (c : Cause) (w : Word) : Agree i (s.raise c w) (s'.raise c w) := h

theorem setAcc (h : Agree i s s') (rt : Slot) (o : Option Acc) : Agree i (s.setAcc rt o) (s'.setAcc rt o) := by
  obtain ⟨hp, hm, hc, haccs, hgens⟩ := h
  refine ⟨hp, hm, hc, fun a ha => ?_, hgens⟩
  rw [State.setAcc_acc, State.setAcc_acc, haccs a ha]

theorem setGen (h : Agree i s s') (rt : Slot) (o : Option Gen) : Agree i (s.setGen rt o) (s'.setGen rt o) := by
  obtain ⟨hp, hm, hc, haccs, hgens⟩ := h
  refine ⟨hp, hm, hc, haccs, fun g hg => ?_⟩
  rw [State.setGen_gen, State.setGen_gen, hgens g hg]

theorem raiseBusAcc (h : Agree i s s') (rt : Slot) (w : Word) : Agree i (s.raiseBusAcc rt w) (s'.raiseBusAcc rt w) := by
  obtain ⟨hp, hm, hc, haccs, hgens⟩ := h
  refine ⟨hp, hm, congrArg (· + 1) hc, fun a ha => ?_, hgens⟩
  rw [State.raiseBusAcc_acc, State.raiseBusAcc_acc, haccs a ha, hc]

theorem raiseBusGen (h : Agree i s s') (rt : Slot) (w : Word) : Agree i (s.raiseBusGen rt w) (s'.raiseBusGen rt w) := by
  obtain ⟨hp, hm, hc, haccs, hgens⟩ := h
  refine ⟨hp, hm, congrArg (· + 1) hc, haccs, fun g hg => ?_⟩
  rw [State.raiseBusGen_gen, State.raiseBusGen_gen, hgens g hg, hc]

end Sys2Proof.Claims.Agree

namespace Sys2Proof.Machine

open Sys2Proof.Claims

/-- The outcomes of command `i` from `s` and from `s'` are alike: both stop for one reason, or both leave next states that agree and whose
registers are written alike. -/
inductive Alike (i : Instr) (s s' : State) : Result → Result → Prop where
  | next {t t' : State} : Agree i t t' → RegistersAlike s s' t t' → Alike i s s' (.next t) (.next t')
  | fault (f : Fault) : Alike i s s' (.fault f) (.fault f)
  | refused (r : Refusal) : Alike i s s' (.refused r) (.refused r)

/-- The state holds the fault registers and `LAST` of `s`: only contexts, memory and `RES` can differ. -/
def KeepsStatus (s u : State) : Prop := u.status = s.status ∧ u.cause = s.cause ∧ u.info = s.info

namespace Alike

variable {i : Instr} {s s' : State}

/-- Both complete with the same outcome, after alike writes to contexts and memory, `RES` kept. -/
theorem completed {u u' : State} (h : Agree i u u') (hu : KeepsStatus s u) (hu' : KeepsStatus s' u') (hr : u.res = s.res) (hr' : u'.res = s'.res)
    (last : Last) : Alike i s s' (.next (u.complete last)) (.next (u'.complete last)) := by
  obtain ⟨hst, hca, hin⟩ := hu
  obtain ⟨hst', hca', hin'⟩ := hu'
  exact .next (h.complete last) ⟨.inl ⟨hr, hr'⟩, .inl ⟨hca, hca', hin, hin', last, by simp [hst], by simp [hst']⟩⟩

/-- Both complete with the same outcome and the same value in `RES`, after alike writes to contexts. -/
theorem valued {u u' : State} (h : Agree i u u') (hu : KeepsStatus s u) (hu' : KeepsStatus s' u') (v : Word) (last : Last) :
    Alike i s s' (.next ((u.setRes v).complete last)) (.next ((u'.setRes v).complete last)) := by
  obtain ⟨hst, hca, hin⟩ := hu
  obtain ⟨hst', hca', hin'⟩ := hu'
  exact .next ((h.setRes v).complete last) ⟨.inr rfl, .inl ⟨hca, hca', hin, hin', last, by simp [hst], by simp [hst']⟩⟩

theorem raised (h : Agree i s s') (c : Cause) (w : Word) : Alike i s s' (.next (s.raise c w)) (.next (s'.raise c w)) :=
  .next (h.raise c w) ⟨.inl ⟨rfl, rfl⟩, .inr ⟨rfl, rfl, rfl, rfl⟩⟩

theorem stopAcc (h : Agree i s s') (rt : Slot) (stop : Stop) : Alike i s s' (Machine.stopAcc rt stop s) (Machine.stopAcc rt stop s') := by
  cases stop with
  | bus w => exact .next (h.raiseBusAcc rt w) ⟨.inl ⟨rfl, rfl⟩, .inr ⟨rfl, rfl, rfl, rfl⟩⟩
  | device w => exact .refused _

theorem stopGen (h : Agree i s s') (rt : Slot) (stop : Stop) (m : Memory) :
    Alike i s s' (Machine.stopGen rt stop (s.setMem m)) (Machine.stopGen rt stop (s'.setMem m)) := by
  cases stop with
  | bus w => exact .next ((h.setMem m).raiseBusGen rt w) ⟨.inl ⟨rfl, rfl⟩, .inr ⟨rfl, rfl, rfl, rfl⟩⟩
  | device w => exact .refused _

theorem withAcc (h : Agree i s s') (a : Slot) {go go' : Result} (hgo : Alike i s s' go go') :
    Alike i s s' (Machine.withAcc a s go) (Machine.withAcc a s' go') := by
  simp only [Machine.withAcc, h.params]
  split
  · exact hgo
  · exact .raised h _ _

theorem withGen (h : Agree i s s') (g : Slot) {go go' : Result} (hgo : Alike i s s' go go') :
    Alike i s s' (Machine.withGen g s go) (Machine.withGen g s' go') := by
  simp only [Machine.withGen, h.params]
  split
  · exact hgo
  · exact .raised h _ _

/-- Only `LAST` is written. -/
theorem completedOnly (h : Agree i s s') (last : Last) : Alike i s s' (.next (s.complete last)) (.next (s'.complete last)) :=
  .completed h ⟨rfl, rfl, rfl⟩ ⟨rfl, rfl, rfl⟩ rfl rfl last

theorem wroteAcc (h : Agree i s s') (rt : Slot) (o : Option Acc) (last : Last) :
    Alike i s s' (.next ((s.setAcc rt o).complete last)) (.next ((s'.setAcc rt o).complete last)) :=
  .completed (s := s) (s' := s') (h.setAcc rt o) ⟨rfl, rfl, rfl⟩ ⟨rfl, rfl, rfl⟩ rfl rfl last

theorem wroteGen (h : Agree i s s') (rt : Slot) (o : Option Gen) (last : Last) :
    Alike i s s' (.next ((s.setGen rt o).complete last)) (.next ((s'.setGen rt o).complete last)) :=
  .completed (s := s) (s' := s') (h.setGen rt o) ⟨rfl, rfl, rfl⟩ ⟨rfl, rfl, rfl⟩ rfl rfl last

/-- Only `RES` and `LAST` are written. -/
theorem valuedOnly (h : Agree i s s') (v : Word) (last : Last) :
    Alike i s s' (.next ((s.setRes v).complete last)) (.next ((s'.setRes v).complete last)) :=
  .valued h ⟨rfl, rfl, rfl⟩ ⟨rfl, rfl, rfl⟩ v last

theorem wroteGenValued (h : Agree i s s') (rt : Slot) (o : Option Gen) (v : Word) (last : Last) :
    Alike i s s' (.next (((s.setGen rt o).setRes v).complete last)) (.next (((s'.setGen rt o).setRes v).complete last)) :=
  .valued (s := s) (s' := s') (h.setGen rt o) ⟨rfl, rfl, rfl⟩ ⟨rfl, rfl, rfl⟩ v last

theorem digest (h : Agree i s s') {rt : Slot} (hrt : s'.acc rt = s.acc rt) (f : Acc → Acc) :
    Alike i s s' (Machine.digest rt s f) (Machine.digest rt s' f) := by
  refine .withAcc h rt ?_
  rw [hrt]
  split
  · exact .completedOnly h _
  · exact .wroteAcc h rt _ _

theorem digestBytes (h : Agree i s s') (rt : Slot) (addr : Word) (n : Nat) (a : Acc) :
    Alike i s s' (Machine.digestBytes rt addr n a s) (Machine.digestBytes rt addr n a s') := by
  simp only [Machine.digestBytes, h.params, h.mem]
  split
  · exact .stopAcc h rt _
  · exact .wroteAcc h rt _ _

theorem unterminated (h : Agree i s s') : Alike i s s' (Machine.unterminated s) (Machine.unterminated s') := by
  simp only [Machine.unterminated, h.params]
  split
  · exact .raised h _ _
  · exact .fault _

end Alike

/-- From two states that agree on what a command may draw on, its outcomes are alike. -/
theorem exec_alike {i : Instr} {s s' : State} (h : Agree i s s') : Alike i s s' (exec i s) (exec i s') := by
  have ⟨hp, hm, _, haccs, hgens⟩ := h
  cases i with
  | nop => exact .completedOnly h _
  | accCreate rt bits =>
    refine .withAcc h rt ?_
    rw [hp]
    split
    · exact .wroteAcc h rt _ _
    · split
      · exact .raised h _ _
      · exact .wroteAcc h rt _ _
  | accClone rd rs =>
    refine .withAcc h rd (.withAcc h rs ?_)
    rw [haccs rs (by simp [Instr.slots])]
    split <;> exact .wroteAcc h rd _ _
  | accFree rt =>
    refine .withAcc h rt ?_
    rw [haccs rt (by simp [Instr.slots])]
    split
    · exact .completedOnly h _
    · exact .wroteAcc h rt _ _
  | accLen rt =>
    refine .withAcc h rt ?_
    rw [haccs rt (by simp [Instr.slots])]
    split <;> exact .valuedOnly h _ _
  | accLane rt i =>
    refine .withAcc h rt ?_
    rw [haccs rt (by simp [Instr.slots])]
    split
    · exact .valuedOnly h _ _
    · split
      · exact .raised h _ _
      · exact .valuedOnly h _ _
  | updU32 rt _ | updU64 rt _ | updF32 rt _ | updF64 rt _ | updPtr rt _ =>
    simp only [exec, execUpdU32, execUpdU64, execUpdF32, execUpdF64, execUpdPtr, hp]
    exact .digest h (haccs rt (by simp [Instr.slots])) _
  | updBuf rt addr len =>
    refine .withAcc h rt ?_
    rw [haccs rt (by simp [Instr.slots]), hp]
    split
    · exact .completedOnly h _
    · split
      · exact .raised h _ _
      · exact .digestBytes h rt addr _ _
  | updStr rt addr =>
    refine .withAcc h rt ?_
    rw [haccs rt (by simp [Instr.slots]), hp, hm]
    split
    · exact .completedOnly h _
    · split
      · exact .stopAcc h rt _
      · exact .unterminated h
      · exact .digestBytes h rt addr _ _
  | updObj rt addr len =>
    refine .withAcc h rt ?_
    rw [haccs rt (by simp [Instr.slots])]
    split
    · exact .completedOnly h _
    · exact .digestBytes h rt addr _ _
  | genFromAcc rd rs =>
    refine .withGen h rd (.withAcc h rs ?_)
    rw [haccs rs (by simp [Instr.slots]), hp]
    split <;> exact .wroteGen h rd _ _
  | genCreate rt addr size =>
    refine .withGen h rt ?_
    rw [hp, hm]
    split
    · exact .wroteGen h rt _ _
    · split
      · exact .raised h _ _
      · split
        · have hsame : s'.setMem s.mem = s' := by rw [← hm]; rfl
          have hstop := Alike.stopGen h rt ‹_› s.mem
          rwa [hsame] at hstop
        · exact .wroteGen h rt _ _
  | genClone rd rs =>
    refine .withGen h rd (.withGen h rs ?_)
    rw [hgens rs (by simp [Instr.slots])]
    split <;> exact .wroteGen h rd _ _
  | genFree rt =>
    refine .withGen h rt ?_
    rw [hgens rt (by simp [Instr.slots])]
    split
    · exact .completedOnly h _
    · exact .wroteGen h rt _ _
  | genLen rt =>
    refine .withGen h rt ?_
    rw [hgens rt (by simp [Instr.slots])]
    split <;> exact .valuedOnly h _ _
  | genKey rt j =>
    refine .withGen h rt ?_
    rw [hgens rt (by simp [Instr.slots])]
    split
    · exact .valuedOnly h _ _
    · split
      · exact .raised h _ _
      · exact .valuedOnly h _ _
  | genNext rt =>
    refine .withGen h rt ?_
    rw [hgens rt (by simp [Instr.slots]), hp]
    split
    · exact .valuedOnly h _ _
    · exact .wroteGenValued h rt _ _ _
  | genFill rt addr count =>
    refine .withGen h rt ?_
    simp only [fillWords, filledGen, fillLast, hgens rt (by simp [Instr.slots]), hp, hm]
    split
    · exact .stopGen h rt _ _
    · exact .completed (s := s) (s' := s') ((h.setGen rt _).setMem _) ⟨rfl, rfl, rfl⟩ ⟨rfl, rfl, rfl⟩ rfl rfl _
  | genRestart rt =>
    refine .withGen h rt ?_
    rw [hgens rt (by simp [Instr.slots]), hp]
    split
    · exact .valuedOnly h _ _
    · exact .wroteGenValued h rt _ _ _

end Sys2Proof.Machine

end

section
/-! PROOFS. The statements on the state, settled from the laws above. -/

namespace Sys2Proof.Proofs

open Sys2Proof.Machine Sys2Proof.Claims

/-- Settles O8: the model's registers hold the numbers of the table of registers. -/
theorem observeReturnsTheRegister : Obligations.ObserveReturnsTheRegister := by
  refine fun s => ⟨step_idle, fun n rest hin => ?_⟩
  have hstep : step s = observe n { s with inputs := rest } := step_act hin
  rw [hstep]
  exact ⟨fun v hv => observe_some (s := { s with inputs := rest }) hv, fun hv => observe_none (s := { s with inputs := rest }) hv⟩

/-- Settles O12: the parameters of the reset state are legal, and it holds no context. -/
theorem invariantAtReset : Obligations.InvariantAtReset := by
  refine ⟨?_, .of_noObjects (State.resetOf_acc _) (State.resetOf_gen _)⟩
  exact
    { params := Config.params_wf
      mem := rfl
      quiet := fun _ => ⟨rfl, rfl⟩
      caused := fun hf => by cases hf
      accs := fun _ a x hx => by simp [State.reset] at hx
      gens := fun _ g x hx => by simp [State.reset] at hx }

/-- Settles O13, by what an act of the host and a command can do. -/
theorem stepKeepsTheInvariant : Obligations.StepKeepsTheInvariant := by
  intro s t hs h
  rcases step_next h with rfl | ⟨i, rest, _, rfl, -, hact⟩
  · exact hs
  · exact act_inv (hs.withInputs rest) hact

/-- Settles O14, by the outcomes of the submitted command; no other act moves a position. -/
theorem stepKeepsThePositions : Obligations.StepKeepsThePositions := by
  intro s t c c' hs h hc
  cases hin : s.inputs with
  | nil =>
    rw [step_idle hin] at h
    cases h
    rwa [countsAfterStep_other (by simp [hin]) hc]
  | cons i rest =>
    rw [step_act hin] at h
    by_cases hi : ∃ p, i = .submit p
    · obtain ⟨p, rfl⟩ := hi
      exact submit_positioned hin hs h hc
    · have hi : ∀ p, i ≠ .submit p := fun p hp => hi ⟨p, hp⟩
      rw [countsAfterStep_other (by simp [hin, hi]) hc]
      exact act_positioned (s := { s with inputs := rest }) hi hs h

/-- Settles O15, by what an act of the host and a command can do. -/
theorem stepKeepsTheInstance : Obligations.StepKeepsTheInstance := by
  intro s t h
  rcases step_next h with rfl | ⟨i, rest, _, rfl, -, hact⟩
  · rfl
  · exact act_params (s := { s with inputs := rest }) hact

/-- Settles O18: the frame from what a command can do, the row from the outcomes of each command. -/
theorem faultWritesItsRow : Obligations.FaultWritesItsRow :=
  fun _ _ _ hf h ht => ⟨(exec_effect h).faulted hf ht, (exec_run h).faultRow hf ht⟩

/-- Settles O20: the unnamed contexts from what a command can do, the sources from the outcomes of the commands that have one. -/
theorem onlyNamedContextsAreWritten : Obligations.OnlyNamedContextsAreWritten :=
  fun _ _ _ h => ⟨fun _ => (exec_effect h).keepsUnnamedAcc, fun _ => (exec_effect h).keepsUnnamedGen,
    fun _ => (exec_run h).keepsSourceAcc, fun _ => (exec_run h).keepsSourceGen⟩

/-- Settles O22: `RES` is kept by the outcomes of the other commands, and on "no object" the six have one outcome. -/
theorem resIsWrittenByValueCommandsOnly : Obligations.ResIsWrittenByValueCommandsOnly := by
  refine ⟨fun i s t hi h => (exec_run h).keepsRes hi, fun i s c hi hc hnone => ⟨_, exec_value_noObject hi hc hnone, ?_, ?_, rfl⟩⟩
  · exact ⟨rfl, rfl, rfl, rfl, rfl, rfl, rfl⟩
  · exact ⟨fun _ => rfl, fun _ => rfl, fun _ => rfl⟩

/-- Settles O23, by running each command from both states side by side. -/
theorem effectDependsOnNamedContextsOnly : Obligations.EffectDependsOnNamedContextsOnly := by
  intro i s s' h
  have halike := exec_alike h
  generalize exec i s = r, exec i s' = r' at halike
  cases halike with
  | next hagree hregs => exact ⟨fun t ht => by cases ht; exact ⟨_, rfl, hagree, hregs⟩, nofun, nofun⟩
  | fault f => exact ⟨nofun, fun _ hf => hf, nofun⟩
  | refused r => exact ⟨nofun, nofun, fun _ hr => hr⟩

end Sys2Proof.Proofs
end

section
/-! PROOFS. The laws of the memory commands: where an access is stopped, which bytes a store leaves, which words a buffer holds, what folding
them does; and with these, the outcome of every memory command on a range it may access, and on one it may not. -/

namespace Sys2Proof.Machine

open Sys2Proof.Claims

/-! ## The first byte at which an access of a range is stopped -/

/-- Byte `k` from `addr` on is the first at which an access of this kind is stopped, for the reason `stop` (R36, R38). -/
def StopsAt (p : Params) (addr : Word) (k : Nat) (kind : AccessKind) (stop : Stop) : Prop :=
  Accessible p addr k kind ∧ checkAccess p (addr + BitVec.ofNat 64 k) kind = some stop

theorem checkAccess_of_accessible {p : Params} {addr : Word} {n k : Nat} {kind : AccessKind} (h : Accessible p addr n kind) (hk : k < n) :
    checkAccess p (addr + BitVec.ofNat 64 k) kind = none :=
  checkAccess_none.mpr (h k hk)

namespace StopsAt

variable {p : Params} {addr : Word} {k n : Nat} {kind : AccessKind} {stop stop' : Stop}

theorem of_refusedAt (h : RefusedAt p addr k kind) : StopsAt p addr k kind (.bus (addr + BitVec.ofNat 64 k)) :=
  ⟨h.1, checkAccess_bus.mpr ⟨rfl, h.2⟩⟩

theorem of_deviceAt (h : DeviceAt p addr k kind) : StopsAt p addr k kind (.device (addr + BitVec.ofNat 64 k)) :=
  ⟨h.1, checkAccess_device.mpr ⟨rfl, h.2⟩⟩

/-- A range with such a byte in it is not accessible. -/
theorem not_accessible (h : StopsAt p addr k kind stop) (hk : k < n) : ¬ Accessible p addr n kind := by
  intro hacc
  have hstop := h.2
  rw [checkAccess_of_accessible hacc hk] at hstop
  cases hstop

/-- The byte is among the first 2^64, after which the addresses come again. -/
theorem lt (h : StopsAt p addr k kind stop) : k < 2 ^ 64 := by
  by_contra hk
  have hwrap : BitVec.ofNat 64 (k % 2 ^ 64) = BitVec.ofNat 64 k := BitVec.eq_of_toNat_eq (by simp)
  have hnone := checkAccess_of_accessible h.1 (show k % 2 ^ 64 < k by omega)
  rw [hwrap, h.2] at hnone
  cases hnone

/-- There is one first byte, and it has one reason. -/
theorem stop_unique {k' : Nat} (h : StopsAt p addr k kind stop) (h' : StopsAt p addr k' kind stop') : stop' = stop := by
  rcases Nat.lt_trichotomy k k' with hlt | rfl | hgt
  · exact absurd h'.1 (h.not_accessible hlt)
  · exact Option.some.inj (h'.2.symm.trans h.2)
  · exact absurd h.1 (h'.not_accessible hgt)

/-- A read that reaches the byte is stopped there. -/
theorem readBytes_eq (m : Memory) (h : StopsAt p addr k .read stop) (hk : k < n) : readBytes p m addr n = .error stop := by
  cases hr : readBytes p m addr n with
  | ok bs => exact absurd (accessible_of_checkAccess (readBytes_ok hr).2) (h.not_accessible hk)
  | error stop' =>
    obtain ⟨k', -, hstop, hbefore⟩ := readBytes_error hr
    rw [h.stop_unique ⟨accessible_of_checkAccess hbefore, hstop⟩]

/-- A scan that finds no zero byte before it is stopped there (R88, R89). -/
theorem scanText_eq {m : Memory} (h : StopsAt p addr k .read stop) (hz : NoZeroFor p m addr k) (hk : k < scanBound p) :
    scanText p m addr (scanBound p) 0 = .error stop := by
  rcases scanText_cases p m addr (scanBound p) 0 with ⟨k', stop', -, he, hstop, hbefore⟩ | ⟨k', -, he, hread, hzero, hbefore⟩ | ⟨-, hall⟩
  · simp only [Nat.zero_add] at hstop hbefore
    rw [he, h.stop_unique ⟨accessible_of_checkAccess fun j hj => (hbefore j hj).1, hstop⟩]
  · simp only [Nat.zero_add] at hread hzero hbefore
    rcases Nat.lt_trichotomy k k' with hlt | rfl | hgt
    · exact absurd (accessible_of_checkAccess fun j hj => (hbefore j hj).1) (h.not_accessible hlt)
    · rw [h.2] at hread; cases hread
    · exact absurd hzero (hz.2 k' hgt)
  · simp only [Nat.zero_add] at hall
    exact absurd (accessible_of_checkAccess fun j hj => (hall j hj).1) (h.not_accessible hk)

/-- A store of words that reaches the byte makes the writes before it and is stopped there (R34). -/
theorem storeBytes_eq (m : Memory) {ws : List Half} (h : StopsAt p addr k .write stop) (hk : k < 4 * ws.length) :
    storeBytes p m (writesAt addr ws) = (writeAll m ((writesAt addr ws).take k), some stop) := by
  refine storeBytes_stopped (fun j hj w hw => ?_) (writesAt_get addr ws k hk) h.2
  rw [writesAt_get addr ws j (by omega), Option.some.injEq] at hw
  subst hw
  exact checkAccess_of_accessible h.1 hj

end StopsAt

/-- A store of words into a range the block may write makes all its writes. -/
theorem storeBytes_of_accessible {p : Params} (m : Memory) {addr : Word} {ws : List Half} (h : Accessible p addr (4 * ws.length) .write) :
    storeBytes p m (writesAt addr ws) = (writeAll m (writesAt addr ws), none) := by
  refine storeBytes_of_accepted fun w hw => ?_
  obtain ⟨k, hk, haddr⟩ := writesAt_mem hw
  rw [haddr]
  exact checkAccess_of_accessible h hk

/-! ## The bytes a store leaves -/

/-- Byte `j` of words stored little-endian (R32). -/
def storedByte (ws : List Half) (j : Nat) : Byte := byteOf (ws.getD (j / 4) 0) (j % 4)

/-- The first `n` byte writes of a store of words leave their bytes in the range, the later of two on one address, and no other. -/
theorem writeAll_wrote {m : Memory} (addr : Word) {ws : List Half} {n : Nat} (hm : Memory.wf m = true) (hn : n ≤ 4 * ws.length) :
    Wrote m (writeAll m ((writesAt addr ws).take n)) addr n (storedByte ws) := by
  have hget : ∀ j, j < n → ((writesAt addr ws).take n)[j]? = some (addr + BitVec.ofNat 64 j, storedByte ws j) := fun j hj => by
    rw [List.getElem?_take_of_lt hj, writesAt_get addr ws j (by omega), storedByte]
  have haddr : ∀ j w, ((writesAt addr ws).take n)[j]? = some w → j < n ∧ w.1 = addr + BitVec.ofNat 64 j := fun j w hw => by
    have hj : j < n := by
      by_contra hc
      rw [List.getElem?_take_eq_none (by omega)] at hw
      cases hw
    rw [hget j hj] at hw
    cases hw
    exact ⟨hj, rfl⟩
  refine ⟨fun j hj hlast => ?_, fun x hx => writeAll_read_other _ _ _ fun w hw heq => ?_⟩
  · refine writeAll_read_last m hm _ j _ _ (hget j hj) fun j' hlt w hw => ?_
    obtain ⟨hj', hw'⟩ := haddr j' w hw
    rw [hw']
    exact hlast j' hlt hj'
  · obtain ⟨j, hget'⟩ := List.getElem?_of_mem hw
    obtain ⟨hj, hw'⟩ := haddr j w hget'
    exact hx ⟨j, hj, by rw [heq, hw']⟩

/-- All the byte writes of a store of words. -/
theorem writeAll_wrote_all {m : Memory} (addr : Word) (ws : List Half) (hm : Memory.wf m = true) :
    Wrote m (writeAll m (writesAt addr ws)) addr (4 * ws.length) (storedByte ws) := by
  have h := writeAll_wrote addr (ws := ws) hm le_rfl
  rwa [List.take_of_length_le (by rw [writesAt_length])] at h

theorem wrote_congr {m m' : Memory} {addr : Word} {n : Nat} {f g : Nat → Byte} (h : Wrote m m' addr n f) (hfg : ∀ j, j < n → f j = g j) :
    Wrote m m' addr n g :=
  ⟨fun j hj hlast => (h.1 j hj hlast).trans (hfg j hj), h.2⟩

/-- In a range of at most 2^64 bytes no two bytes fall on one address, so that every byte reads as written. -/
theorem read_of_wrote {m m' : Memory} {addr : Word} {n j : Nat} {f : Nat → Byte} (h : Wrote m m' addr n f) (hn : n ≤ 2 ^ 64) (hj : j < n) :
    Memory.read m' (addr + BitVec.ofNat 64 j).toNat = f j := by
  refine h.1 j hj fun j' hlt hj' heq => ?_
  have := congrArg BitVec.toNat ((BitVec.add_right_inj _).mp heq)
  simp only [BitVec.toNat_ofNat] at this
  omega

/-! ## The words of a buffer -/

theorem bufferWords_length (m : Memory) (addr : Word) (len : Nat) : (bufferWords m addr len).length = (len + 3) / 4 := by
  simp [bufferWords]

theorem bufferWords_getElem? {m : Memory} {addr : Word} {len w : Nat} (h : w < (len + 3) / 4) :
    (bufferWords m addr len)[w]? = some (bufferWord m addr len w) := by
  simp [bufferWords, h]

@[simp] theorem bufferWords_zero (m : Memory) (addr : Word) : bufferWords m addr 0 = [] := rfl

/-- A word of a buffer is four of its bytes, those past the end zero (R31). -/
theorem bufferWord_eq_leWord (m : Memory) (addr : Word) (len w : Nat) (b : Nat → Byte) (hb : ∀ k, (b k).toNat = bufferByte m addr len k) :
    bufferWord m addr len w = leWord (b (4 * w)) (b (4 * w + 1)) (b (4 * w + 2)) (b (4 * w + 3)) := by
  rw [leWord_eq, hb, hb, hb, hb, bufferWord]

/-- The words the block makes of the bytes of a buffer are the words of the buffer (R31). -/
theorem leWords_eq_bufferWords (m : Memory) (addr : Word) (len : Nat) :
    leWords ((List.range len).map fun k => Memory.read m (addr + BitVec.ofNat 64 k).toNat) = bufferWords m addr len := by
  generalize hbs : ((List.range len).map fun k => Memory.read m (addr + BitVec.ofNat 64 k).toNat) = bs
  have hbyte : ∀ k, (bs.getD k 0).toNat = bufferByte m addr len k := fun k => by
    subst hbs
    by_cases hk : k < len <;> simp [bufferByte, hk]
  have hlen : (leWords bs).length = (len + 3) / 4 := by rw [leWords_length, ← hbs]; simp
  refine List.ext_getElem? fun w => ?_
  by_cases hw : w < (len + 3) / 4
  · rw [bufferWords_getElem? hw, leWords_get bs w (by omega), bufferWord_eq_leWord m addr len w (bs.getD · 0) hbyte]
  · rw [List.getElem?_eq_none (by omega), List.getElem?_eq_none (by rw [bufferWords_length]; omega)]

/-- The four bytes of a word, put together again (R31, R32). -/
theorem leWord_byteOf (v : Half) : leWord (byteOf v 0) (byteOf v 1) (byteOf v 2) (byteOf v 3) = v := by
  apply BitVec.eq_of_toNat_eq
  have := v.isLt
  simp only [leWord_eq, byteOf_eq, BitVec.toNat_ofNat]
  omega

/-- A memory that holds words little-endian from `addr` on reads as those words. -/
theorem bufferWords_of_wrote {m m' : Memory} {addr : Word} {ws : List Half} (h : Wrote m m' addr (4 * ws.length) (storedByte ws))
    (hlen : 4 * ws.length ≤ 2 ^ 64) : bufferWords m' addr (4 * ws.length) = ws := by
  have hbyte : ∀ w k, w < ws.length → k < 4 → bufferByte m' addr (4 * ws.length) (4 * w + k) = (byteOf (ws.getD w 0) k).toNat := by
    intro w k hw hk
    have hj : 4 * w + k < 4 * ws.length := by omega
    rw [bufferByte, if_pos hj, read_of_wrote h hlen hj, storedByte, show (4 * w + k) / 4 = w by omega, show (4 * w + k) % 4 = k by omega]
  refine List.ext_getElem? fun w => ?_
  by_cases hw : w < ws.length
  · have h0 := hbyte w 0 hw (by omega)
    rw [bufferWords_getElem? (by omega), bufferWord, ← Nat.add_zero (4 * w), h0, hbyte w 1 hw (by omega), hbyte w 2 hw (by omega),
      hbyte w 3 hw (by omega), ← leWord_eq, leWord_byteOf, List.getD_eq_getElem?_getD, List.getElem?_eq_getElem hw, Option.getD_some]
  · rw [List.getElem?_eq_none (by rw [bufferWords_length]; omega), List.getElem?_eq_none (by omega)]

/-- Keys read from memory: the words, and a zero where their number is odd (R97). -/
theorem padEven_bufferWords (m : Memory) (addr : Word) (n : Nat) :
    padEven (bufferWords m addr (4 * n)) = bufferWords m addr (4 * n) ++ (if n % 2 = 1 then [0#32] else []) := by
  have hlen : (bufferWords m addr (4 * n)).length = n := by rw [bufferWords_length]; omega
  rw [padEven, hlen]
  split
  · rfl
  · rw [List.append_nil]

/-! ## The seeds a fill stores -/

theorem genAfter_succ (p : Params) (g : Gen) (n : Nat) : genAfter p g (n + 1) = genAfter p (nextSeed p g).2 n := rfl

/-- The generator after `n` seeds in order (R105, R106). -/
theorem seeds_snd (p : Params) (n : Nat) (g : Gen) : (seeds p n g).2 = genAfter p g n := by
  induction n generalizing g with
  | zero => rfl
  | succ n ih => rw [genAfter_succ, ← ih]; rfl

/-- Each of `n` seeds in order (R105, R106). -/
theorem seeds_getD (p : Params) {n i : Nat} (g : Gen) (h : i < n) : (seeds p n g).1.getD i 0 = seedAt p g i := by
  induction n generalizing g i with
  | zero => omega
  | succ n ih =>
    cases i with
    | zero => rfl
    | succ i => exact ih (nextSeed p g).2 (by omega)

/-- What `GEN.FILL` stores, byte by byte (R32, R106, R107). -/
theorem storedByte_fillWords (rt : Slot) (count : Word) (s : State) {j : Nat} (hj : j < 4 * count.toNat) :
    storedByte (fillWords rt count s) j = fillByte s.params (s.gen rt) j := by
  rw [storedByte, byteOf_eq]
  cases hg : s.gen rt with
  | none =>
    have hzero : (List.replicate count.toNat 0#32).getD (j / 4) 0 = 0#32 := List.getD_replicate 0 (by omega)
    simp only [fillWords, hg, fillByte, hzero, BitVec.toNat_ofNat, Nat.zero_mod, Nat.zero_div]
  | some g => simp only [fillWords, hg, fillByte, seeds_getD s.params g (show j / 4 < count.toNat by omega)]

theorem filledGen_eq (rt : Slot) (count : Word) (s : State) :
    filledGen rt count s = (s.gen rt).map (fun g => genAfter s.params g count.toNat) := by
  simp only [filledGen, seeds_snd]

theorem fillLast_eq (rt : Slot) (s : State) : fillLast rt s = if s.gen rt = none then .noObj else .ok := by
  cases hg : s.gen rt <;> simp [fillLast, hg]

/-! ## Folding words -/

theorem update32_folded (p : Params) (v : Half) (a : Acc) : Folded p v a (update32 p v a) :=
  ⟨update32_length p v a, update32_coef p v a, update32_lane p v a⟩

theorem foldWords_foldedAll (p : Params) (ws : List Half) (a : Acc) : FoldedAll p ws a (foldWords p ws a) := by
  induction ws generalizing a with
  | nil => rfl
  | cons w ws ih => exact ⟨update32 p w a, update32_folded p w a, ih (update32 p w a)⟩

@[simp] theorem foldWords_nil (p : Params) (a : Acc) : foldWords p [] a = a := rfl

theorem foldWords_append (p : Params) (vs ws : List Half) (a : Acc) : foldWords p (vs ++ ws) a = foldWords p ws (foldWords p vs a) :=
  List.foldl_append

theorem low_half (w : Word) : w.extractLsb' 0 32 = BitVec.ofNat 32 w.toNat := rfl

theorem high_half (w : Word) : w.extractLsb' 32 32 = BitVec.ofNat 32 (w.toNat / 2 ^ 32) := by
  rw [BitVec.extractLsb', Nat.shiftRight_eq_div_pow]

theorem update64_eq_foldWords (p : Params) (w : Word) (a : Acc) : update64 p w a = foldWords p (halves w) a := by
  rw [update64, low_half, high_half]
  rfl

/-- The length is folded as its values at width `LENW` (R86, R87). -/
theorem foldLength_eq_foldWords (p : Params) (len : Word) (a : Acc) : foldLength p len a = foldWords p (lengthValues p len) a := by
  cases hl : p.lenW with
  | w32 => rw [foldLength, lengthValues, hl]; rfl
  | w64 => simp only [foldLength, lengthValues, hl, update64_eq_foldWords]

/-! ## What completing and a `BusFault` leave -/

theorem completed_complete {s u : State} (last : Last) (hstatus : KeepsStatus s u) (hhost : KeepsHost s u) (hfree : u.freeCount = s.freeCount) :
    Completed last s (u.complete last) := by
  obtain ⟨hst, hca, hin⟩ := hstatus
  exact ⟨by rw [State.complete_status, hst], hca, hin, hfree, hhost⟩

theorem completed_setAcc (rt : Slot) (x : Option Acc) (last : Last) (s : State) : Completed last s ((s.setAcc rt x).complete last) :=
  completed_complete last ⟨rfl, rfl, rfl⟩ ⟨rfl, rfl, rfl⟩ rfl

theorem completed_setGen (rt : Slot) (x : Option Gen) (last : Last) (s : State) : Completed last s ((s.setGen rt x).complete last) :=
  completed_complete last ⟨rfl, rfl, rfl⟩ ⟨rfl, rfl, rfl⟩ rfl

theorem keepsAllButAcc_setAcc (rt : Slot) (x : Option Acc) (last : Last) (s : State) : KeepsAllButAcc rt s ((s.setAcc rt x).complete last) :=
  ⟨fun a ha => State.setAcc_acc_other rt x s a ha, fun _ => rfl, fun _ => rfl, rfl⟩

theorem keepsAllButGen_setGen (rt : Slot) (x : Option Gen) (last : Last) (s : State) : KeepsAllButGen rt s ((s.setGen rt x).complete last) :=
  ⟨fun _ => rfl, fun g hg => State.setGen_gen_other rt x s g hg, fun _ => rfl, rfl⟩

/-- Writing a context as it was changes nothing. -/
theorem setAcc_self {rt : Slot} {x : Option Acc} {s : State} (h : s.acc rt = x) : s.setAcc rt x = s := by
  subst h
  simp [State.setAcc, State.acc]

theorem setGen_self {rt : Slot} {x : Option Gen} {s : State} (h : s.gen rt = x) : s.setGen rt x = s := by
  subst h
  simp [State.setGen, State.gen]

theorem faulted_raiseBusAcc (rt : Slot) (w : Word) (s : State) : Faulted 6#64 w s (s.raiseBusAcc rt w) :=
  ⟨rfl, rfl, rfl, rfl, rfl, rfl, rfl⟩

theorem faulted_raiseBusGen (rt : Slot) (w : Word) (s : State) : Faulted 6#64 w s (s.raiseBusGen rt w) :=
  ⟨rfl, rfl, rfl, rfl, rfl, rfl, rfl⟩

theorem keepsAllButAcc_raiseBusAcc (rt : Slot) (w : Word) (s : State) : KeepsAllButAcc rt s (s.raiseBusAcc rt w) :=
  ⟨fun a ha => by rw [State.raiseBusAcc_acc, if_neg ha], fun _ => rfl, fun _ => rfl, rfl⟩

theorem keepsGensBut_raiseBusGen (rt : Slot) (w : Word) (s : State) : KeepsGensBut rt s (s.raiseBusGen rt w) :=
  fun g hg => by rw [State.raiseBusGen_gen, if_neg hg]

theorem keepsAllButGen_raiseBusGen (rt : Slot) (w : Word) (s : State) : KeepsAllButGen rt s (s.raiseBusGen rt w) :=
  ⟨fun _ => rfl, keepsGensBut_raiseBusGen rt w s, fun _ => rfl, rfl⟩

/-! ## The memory commands -/

section Commands

variable {rt : Slot} {addr : Word} {k : Nat} {stop : Stop} {s : State} {a : Acc}

/-- `body` on a range the block may read. -/
theorem digestBytes_of_accessible {n : Nat} (h : Accessible s.params addr n .read) :
    digestBytes rt addr n a s = .next ((s.setAcc rt (some (foldWords s.params (bufferWords s.mem addr n) a))).complete .ok) := by
  rw [digestBytes, readBytes_of_accessible h]
  dsimp only
  rw [leWords_eq_bufferWords]

/-- `body` on a range the block may read, after the values `vs`, folds these and then the words of the range. -/
theorem digestBytes_folds {n : Nat} (vs : List Half) (h : Accessible s.params addr n .read) :
    ∃ t b, digestBytes rt addr n (foldWords s.params vs a) s = .next t ∧ Completed .ok s t ∧ KeepsAllButAcc rt s t ∧ t.acc rt = some b ∧
      FoldedAll s.params (vs ++ bufferWords s.mem addr n) a b := by
  rw [digestBytes_of_accessible h, ← foldWords_append]
  exact ⟨_, _, rfl, completed_setAcc .., keepsAllButAcc_setAcc .., State.setAcc_acc_same .., foldWords_foldedAll ..⟩

/-- `body` on a range with a byte that stops it. -/
theorem digestBytes_of_stopsAt {n : Nat} (h : StopsAt s.params addr k .read stop) (hk : k < n) :
    digestBytes rt addr n a s = stopAcc rt stop s := by
  rw [digestBytes, h.readBytes_eq s.mem hk]

theorem exec_updObj {len : Word} (hrt : rt.toNat < s.params.na) (ha : s.acc rt = some a) :
    exec (.updObj rt addr len) s = digestBytes rt addr len.toNat a s := by
  simp only [exec, execUpdObj, withAcc_ok _ hrt, ha]

theorem exec_updObj_of_stopsAt {len : Word} (hrt : rt.toNat < s.params.na) (ha : s.acc rt = some a) (hk : k < len.toNat)
    (h : StopsAt s.params addr k .read stop) : exec (.updObj rt addr len) s = stopAcc rt stop s := by
  rw [exec_updObj hrt ha, digestBytes_of_stopsAt h hk]

theorem exec_updBuf {len : Word} (hrt : rt.toNat < s.params.na) (ha : s.acc rt = some a) (hlen : s.params.lenW = .w32 → len.toNat < 2 ^ 32) :
    exec (.updBuf rt addr len) s = digestBytes rt addr len.toNat (foldLength s.params len a) s := by
  have hshort : ¬ (s.params.lenW = .w32 ∧ 2 ^ 32 ≤ len.toNat) := fun h => Nat.not_le_of_lt (hlen h.1) h.2
  simp only [exec, execUpdBuf, withAcc_ok _ hrt, ha, if_neg hshort]

theorem exec_updBuf_of_stopsAt {len : Word} (hrt : rt.toNat < s.params.na) (ha : s.acc rt = some a) (hk : k < len.toNat)
    (hlen : s.params.lenW = .w32 → len.toNat < 2 ^ 32) (h : StopsAt s.params addr k .read stop) :
    exec (.updBuf rt addr len) s = stopAcc rt stop s := by
  rw [exec_updBuf hrt ha hlen, digestBytes_of_stopsAt h hk]

theorem exec_updStr_of_stopsAt (hrt : rt.toNat < s.params.na) (ha : s.acc rt = some a) (h : StopsAt s.params addr k .read stop)
    (hz : NoZeroFor s.params s.mem addr k) (hk : s.params.lenW = .w32 → k < 2 ^ 32) : exec (.updStr rt addr) s = stopAcc rt stop s := by
  have hbound : k < scanBound s.params := by
    cases hl : s.params.lenW with
    | w32 => simpa only [scanBound, hl] using hk hl
    | w64 => simpa only [scanBound, hl] using h.lt
  simp only [exec, execUpdStr, withAcc_ok _ hrt, ha, h.scanText_eq hz hbound]

theorem exec_genCreate_of_accessible {size : Word} (hrt : rt.toNat < s.params.ng) (hsize : size ≠ 0#64)
    (hfits : size.toNat + size.toNat % 2 ≤ s.params.lmax) (h : Accessible s.params addr (4 * size.toNat) .read) :
    exec (.genCreate rt addr size) s =
      .next ((s.setGen rt (some ⟨s.params.startOut, padEven (bufferWords s.mem addr (4 * size.toNat))⟩)).complete .ok) := by
  have hfits : ¬ s.params.lmax < keysWanted size := Nat.not_lt_of_le hfits
  simp only [exec, execGenCreate, withGen_ok _ hrt, if_neg hsize, if_neg hfits, readBytes_of_accessible h, leWords_eq_bufferWords]

theorem exec_genCreate_of_stopsAt {size : Word} (hrt : rt.toNat < s.params.ng) (hk : k < 4 * size.toNat)
    (hfits : size.toNat + size.toNat % 2 ≤ s.params.lmax) (h : StopsAt s.params addr k .read stop) :
    exec (.genCreate rt addr size) s = stopGen rt stop s := by
  have hsize : size ≠ 0#64 := by rintro rfl; simp at hk
  have hfits : ¬ s.params.lmax < keysWanted size := Nat.not_lt_of_le hfits
  simp only [exec, execGenCreate, withGen_ok _ hrt, if_neg hsize, if_neg hfits, h.readBytes_eq s.mem hk]

theorem exec_genFill_of_accessible {count : Word} (hrt : rt.toNat < s.params.ng) (h : Accessible s.params addr (4 * count.toNat) .write) :
    exec (.genFill rt addr count) s =
      .next (((s.setGen rt (filledGen rt count s)).setMem (writeAll s.mem (writesAt addr (fillWords rt count s)))).complete (fillLast rt s)) := by
  rw [← fillWords_length rt count s] at h
  simp only [exec, execGenFill, withGen_ok _ hrt, storeBytes_of_accessible s.mem h]

theorem exec_genFill_of_stopsAt {count : Word} (hrt : rt.toNat < s.params.ng) (hk : k < 4 * count.toNat)
    (h : StopsAt s.params addr k .write stop) :
    exec (.genFill rt addr count) s = stopGen rt stop (s.setMem (writeAll s.mem ((writesAt addr (fillWords rt count s)).take k))) := by
  rw [← fillWords_length rt count s] at hk
  simp only [exec, execGenFill, withGen_ok _ hrt, h.storeBytes_eq s.mem hk]

end Commands

/-- All that a command can do to the memory: nothing, or the stores of `GEN.FILL`, up to the first that is stopped (R30, R34). -/
theorem Effect.mem {i : Instr} {s t : State} (h : Effect i s t) :
    t.mem = s.mem ∨ ∃ rt addr count, i = .genFill rt addr count ∧ t.mem = (storeBytes s.params s.mem (writesAt addr (fillWords rt count s))).1 := by
  cases h with
  | raised | busAcc | completed | valued | wroteAcc | wroteGen | wroteGenValued => exact .inl rfl
  | filled last rt x addr count hi => exact .inr ⟨rt, addr, count, hi, rfl⟩
  | busGen rt w ws _ hws =>
    rcases hws with rfl | ⟨addr, count, hi, rfl⟩
    · exact .inl rfl
    · exact .inr ⟨rt, addr, count, hi, rfl⟩

/-- A store of words, stopped or not, leaves every byte outside its range. -/
theorem storeBytes_writesAt_read_other (p : Params) (m : Memory) {addr : Word} {ws : List Half} {x : Nat} (hx : ¬ InRange addr (4 * ws.length) x) :
    Memory.read (storeBytes p m (writesAt addr ws)).1 x = Memory.read m x := by
  refine storeBytes_read_other p m _ x fun w hw heq => ?_
  obtain ⟨k, hk, haddr⟩ := writesAt_mem hw
  exact hx ⟨k, hk, by rw [heq, haddr]⟩

end Sys2Proof.Machine

end

section
/-! PROOFS. The statements on the memory, settled from the laws above. -/

namespace Sys2Proof.Proofs

open Sys2Proof.Machine Sys2Proof.Claims

/-- Settles O9: a host access is one write or one read of the memory. -/
theorem hostMemoryAccess : Obligations.HostMemoryAccess := by
  refine fun s rest a => ⟨fun b hin hm => ⟨_, step_act hin, rfl, ?_, ?_⟩, fun hin => step_act hin⟩
  · exact Memory.read_write_same a.toNat b hm
  · exact fun x hx => Memory.read_write_other s.mem a.toNat b x hx

/-- Settles O21, by what a command can do to the memory. -/
theorem onlyFillWritesMemory : Obligations.OnlyFillWritesMemory := by
  intro i s t h
  rcases (exec_effect h).mem with hmem | ⟨rt, addr, count, hi, hmem⟩
  · exact .inl fun x => by rw [hmem]
  · refine .inr ⟨rt, addr, count, hi, fun x hx => ?_⟩
    rw [← fillWords_length rt count s] at hx
    rw [hmem, storeBytes_writesAt_read_other s.params s.mem hx]

/-- Settles O31: every word of the buffer is four of the bytes read. -/
theorem bufferIsReadLittleEndian : Obligations.BufferIsReadLittleEndian :=
  fun _ m addr len h => ⟨_, readBytes_of_accessible h, leWords_eq_bufferWords m addr len⟩

/-- Settles O32: all the writes are made, and no two of them fall on one address. -/
theorem storedWordsReadBack : Obligations.StoredWordsReadBack := by
  intro p m addr ws hm hlen hacc
  have hwrote := writeAll_wrote_all addr ws hm
  exact ⟨_, storeBytes_of_accessible m hacc, writeAll_wf _ hm, bufferWords_of_wrote hwrote hlen, hwrote.2⟩

/-- Settles O44: the bytes read make the words of the object, and no value is folded before them. -/
theorem updObjFolds : Obligations.UpdObjFolds := by
  intro rt addr len s a hrt ha hacc
  rw [exec_updObj hrt ha]
  exact digestBytes_folds [] hacc

/-- Settles O45: the length is folded as its values at width `LENW`, before the words. -/
theorem updBufFolds : Obligations.UpdBufFolds := by
  intro rt addr len s a hrt ha hlen hacc
  rw [exec_updBuf hrt ha hlen, foldLength_eq_foldWords]
  exact digestBytes_folds _ hacc

/-- Settles O50: the commands that read are stopped at the refused byte, which ends them by `BusFault`. -/
theorem refusedReadRaisesBusFault : Obligations.RefusedReadRaisesBusFault := by
  intro rt addr k s href
  have hstop := StopsAt.of_refusedAt href
  have hbus := faulted_raiseBusAcc rt (addr + BitVec.ofNat 64 k) s
  have hkeeps := keepsAllButAcc_raiseBusAcc rt (addr + BitVec.ofNat 64 k) s
  refine ⟨fun a hrt ha => ⟨fun len hk => ?_, fun len hk hlen => ?_, fun hz hk => ?_⟩, fun size hrt hk hfits => ?_⟩
  · exact ⟨_, exec_updObj_of_stopsAt hrt ha hk hstop, hbus, hkeeps⟩
  · exact ⟨_, exec_updBuf_of_stopsAt hrt ha hk hlen hstop, hbus, hkeeps⟩
  · exact ⟨_, exec_updStr_of_stopsAt hrt ha hstop hz hk, hbus, hkeeps⟩
  · exact ⟨_, exec_genCreate_of_stopsAt hrt hk hfits hstop, faulted_raiseBusGen .., keepsAllButGen_raiseBusGen ..⟩

/-- Settles O51: every memory command is stopped at the device byte, which ends it by a refusal. -/
theorem deviceMemoryIsRefused : Obligations.DeviceMemoryIsRefused := by
  refine fun rt addr k s => ⟨fun hdev => ?_, fun hdev count hrt hk => exec_genFill_of_stopsAt hrt hk (.of_deviceAt hdev)⟩
  have hstop := StopsAt.of_deviceAt hdev
  refine ⟨fun a hrt ha => ⟨fun len hk => ?_, fun len hk hlen => ?_, fun hz hk => ?_⟩, fun size hrt hk hfits => ?_⟩
  · exact exec_updObj_of_stopsAt hrt ha hk hstop
  · exact exec_updBuf_of_stopsAt hrt ha hk hlen hstop
  · exact exec_updStr_of_stopsAt hrt ha hstop hz hk
  · exact exec_genCreate_of_stopsAt hrt hk hfits hstop

/-- Settles O52: a range of no bytes is accessible whatever the platform refuses, and its command leaves what it names as it was or as
`ZSIZE` says; the first byte of a text is read before anything else. -/
theorem zeroLengthTouchesNoMemory : Obligations.ZeroLengthTouchesNoMemory := by
  intro rt addr s
  have hempty : ∀ kind, Accessible s.params addr 0 kind := fun kind j hj => absurd hj (Nat.not_lt_zero j)
  refine ⟨fun a hrt ha => ⟨?_, ?_, fun href => ?_⟩, fun hrt => ⟨?_, ?_⟩⟩
  · refine ⟨_, (exec_updObj hrt ha).trans (digestBytes_of_accessible (n := 0) (hempty .read)), completed_setAcc .., ?_⟩
    rw [bufferWords_zero, foldWords_nil, setAcc_self ha]
    exact ⟨fun _ => rfl, fun _ => rfl, fun _ => rfl, rfl⟩
  · exact ⟨_, (exec_updBuf hrt ha (by simp)).trans (digestBytes_of_accessible (hempty .read)), completed_setAcc .., keepsAllButAcc_setAcc ..⟩
  · have hstop : StopsAt s.params addr 0 .read (.bus addr) := ⟨hempty .read, checkAccess_bus.mpr ⟨by simp, by simpa using href⟩⟩
    exact ⟨_, exec_updStr_of_stopsAt hrt ha hstop ⟨hempty .read, nofun⟩ (by simp), faulted_raiseBusAcc ..⟩
  · refine ⟨(s.setGen rt none).complete .zSize, ?_, completed_setGen .., keepsAllButGen_setGen .., State.setGen_gen_same ..⟩
    simp only [exec, execGenCreate, withGen_ok _ hrt, if_true]
  · have hself : s.setGen rt (filledGen rt 0#64 s) = s := setGen_self (by simp [filledGen_eq, genAfter])
    have hnone : fillWords rt 0#64 s = [] := List.eq_nil_of_length_eq_zero (fillWords_length ..)
    refine ⟨_, exec_genFill_of_accessible hrt (hempty .write), ?_, ?_⟩
    all_goals rw [hself, hnone]
    · rw [← fillLast_eq]
      exact completed_complete _ ⟨rfl, rfl, rfl⟩ ⟨rfl, rfl, rfl⟩ rfl
    · exact ⟨fun _ => rfl, fun _ => rfl, fun _ => rfl, rfl⟩

/-- Settles O54: the words read are the keys, padded where their number is odd. -/
theorem genCreateReadsTheKeys : Obligations.GenCreateReadsTheKeys := by
  intro rt addr size s hrt hsize hfits hacc
  refine ⟨_, exec_genCreate_of_accessible hrt hsize hfits hacc, completed_setGen .., keepsAllButGen_setGen .., ?_⟩
  rw [State.complete_gen, State.setGen_gen_same, padEven_bufferWords]

/-- Settles O56: all the writes are made, and they are the bytes of the seeds or of the zeros. -/
theorem genFillStoresTheSeeds : Obligations.GenFillStoresTheSeeds := by
  intro rt addr count s hrt hacc hm
  refine ⟨_, exec_genFill_of_accessible hrt hacc, ?_, fun _ => rfl, ?_, rfl, ?_, ?_⟩
  · rw [← fillLast_eq]
    exact completed_complete _ ⟨rfl, rfl, rfl⟩ ⟨rfl, rfl, rfl⟩ rfl
  · exact fun g hg => State.setGen_gen_other rt _ s g hg
  · rw [State.complete_gen, State.setMem_gen, State.setGen_gen_same, filledGen_eq]
  · have hwrote := writeAll_wrote_all addr (fillWords rt count s) hm
    rw [fillWords_length] at hwrote
    exact wrote_congr hwrote fun j hj => storedByte_fillWords rt count s hj

/-- Settles O57: the writes before the refused byte are made, and the `BusFault` there ends the command. -/
theorem refusedWriteRaisesBusFault : Obligations.RefusedWriteRaisesBusFault := by
  intro rt addr count k s hrt hk href hm
  have hlen : k ≤ 4 * (fillWords rt count s).length := by rw [fillWords_length]; omega
  refine ⟨_, exec_genFill_of_stopsAt hrt hk (.of_refusedAt href), faulted_raiseBusGen rt _ (s.setMem _), fun _ => rfl,
    keepsGensBut_raiseBusGen rt _ (s.setMem _), ?_⟩
  exact wrote_congr (writeAll_wrote addr hm hlen) fun j hj => storedByte_fillWords rt count s (by omega)

end Sys2Proof.Proofs

end

section
/-! PROOFS. The laws of the decoder: which rows it has, what it reads from the control word, and what a packet it reads holds. -/

namespace Sys2Proof

open Sys2Proof.Claims

/-! ## The fields of a control word given as a number -/

theorem controlWord_toNat_eq_word (op : BitVec 8) (rt rs : Slot) : (controlWord op rt rs).toNat = word op.toNat rt rs :=
  controlWord_toNat op rt rs

/-- A control word that is the number of an opcode and two context fields has these in their places (R47). -/
theorem cw_eq_controlWord {p : Packet} {op : Nat} {rt rs : Slot} (h : p.cw.toNat = word op rt rs) (hop : op < 256) :
    p.cw = controlWord p.op rt rs ∧ p.op.toNat = op ∧ p.rt = rt ∧ p.rs = rs := by
  obtain ⟨cw, p0, p1⟩ := p
  have hcode : (BitVec.ofNat 8 op).toNat = op := Nat.mod_eq_of_lt hop
  have hcw : cw = controlWord (BitVec.ofNat 8 op) rt rs := by
    apply BitVec.eq_of_toNat_eq
    rw [controlWord_toNat_eq_word, hcode]
    exact h
  subst hcw
  rw [controlWord_op, controlWord_rt, controlWord_rs]
  exact ⟨rfl, hcode, rfl, rfl⟩

theorem p0low_toNat (p : Packet) : p.p0low.toNat = p.p0.toNat % 2 ^ 32 := by
  rw [Packet.p0low, BitVec.extractLsb'_toNat, Nat.shiftRight_zero]

/-! ## What a packet holds, and what is read from it -/

/-- A control word made of these fields decodes to its opcode's row, if the fields the row's format does not use are zero. -/
theorem decode_of_word {p : Packet} {op : Nat} {rt rs : Slot} {f : Format} {i : Instr} (hcw : p.cw.toNat = word op rt rs)
    (hrow : p.op.toNat = op → p.rt = rt → p.rs = rs → p.row = some (f, i)) (hop : op < 256 := by decide)
    (hrt : f = .n → rt = 0#4 := by simp) (hrs : f ≠ .ds → rs = 0#4 := by simp) : decode p = .ok i := by
  obtain ⟨hword, hpop, hprt, hprs⟩ := cw_eq_controlWord hcw hop
  refine (decode_ok p i).mpr ⟨f, hrow hpop hprt hprs, ?_⟩
  have hrt' : (if f = .n then 0#4 else p.rt) = rt := by rw [hprt, ite_eq_right_iff]; exact fun h => (hrt h).symm
  have hrs' : (if f = .ds then p.rs else 0#4) = rs := by rw [hprs, ite_eq_left_iff]; exact fun h => (hrs h).symm
  rw [hrt', hrs']
  exact hword

/-- A packet that holds a command decodes to it; the cases stand by format (R48). -/
theorem decode_of_fieldsOf {p : Packet} {i : Instr} (h : FieldsOf p i) : decode p = .ok i := by
  cases i
  case nop => exact decode_of_word (op := 0x00) (rt := 0#4) (rs := 0#4) (f := .n) h fun ho _ _ => by simp [Packet.row, ho]
  case accFree rt | accLen rt | genFree rt | genLen rt | genNext rt | genRestart rt =>
    exact decode_of_word (f := .t) h fun ho ht _ => by simp [Packet.row, ho, ht]
  case accCreate rt x | accLane rt x | updU64 rt x | updF64 rt x | updPtr rt x | updStr rt x | genKey rt x =>
    obtain ⟨hcw, rfl⟩ := h
    exact decode_of_word (f := .tp) hcw fun ho ht _ => by simp [Packet.row, ho, ht]
  case updU32 rt v | updF32 rt v =>
    obtain ⟨hcw, hv⟩ := h
    obtain rfl := BitVec.eq_of_toNat_eq (hv.trans (p0low_toNat p).symm)
    exact decode_of_word (f := .tp) hcw fun ho ht _ => by simp [Packet.row, ho, ht]
  case updBuf rt x y | updObj rt x y | genCreate rt x y | genFill rt x y =>
    obtain ⟨hcw, rfl, rfl⟩ := h
    exact decode_of_word (f := .tpp) hcw fun ho ht _ => by simp [Packet.row, ho, ht]
  case accClone rd rs | genFromAcc rd rs | genClone rd rs =>
    exact decode_of_word (f := .ds) h fun ho ht hs => by simp [Packet.row, ho, ht, hs]

/-- A packet that decodes to a command holds it: its control word is made of the opcode and the fields its row's format uses (R47, R48). -/
theorem fieldsOf_of_decode {p : Packet} {i : Instr} (h : decode p = .ok i) : FieldsOf p i := by
  obtain ⟨f, hrow, hcw⟩ := (decode_ok p i).mp h
  have hword := congrArg BitVec.toNat hcw
  rw [controlWord_toNat_eq_word] at hword
  simp only [Packet.row] at hrow
  split at hrow
  all_goals cases hrow
  all_goals
    next hop => simpa [FieldsOf, word, hop, p0low_toNat] using hword

/-- The encoder makes a packet that holds the command (R47 to R50). -/
theorem fieldsOf_encode (i : Instr) : FieldsOf (encode i) i := by
  cases i
  case updU32 rt v | updF32 rt v => exact ⟨controlWord_toNat .., by rw [← p0low_toNat]; exact congrArg _ (p0low_setWidth ..).symm⟩
  case nop | accFree | accLen | genFree | genLen | genNext | genRestart | accClone | genFromAcc | genClone => exact controlWord_toNat ..
  case accCreate | accLane | updU64 | updF64 | updPtr | updStr | genKey => exact ⟨controlWord_toNat .., rfl⟩
  case updBuf | updObj | genCreate | genFill => exact ⟨controlWord_toNat .., rfl, rfl⟩

/-! ## The rows of the opcode table -/

/-- The decoder answers a command exactly when the masked control word is the opcode of the command's row (R48, R50). -/
theorem decode_ok_iff_mask (p : Packet) (i : Instr) : decode p = .ok i ↔ ∃ f, p.row = some (f, i) ∧ p.cw &&& f.mask = p.op.setWidth 32 := by
  simp only [decode_ok, mask_iff_controlWord]

/-- Every row the decoder has stands in the table, with the opcode as match and the format's mask (R48, R50). -/
theorem mem_table_of_row {p : Packet} {f : Format} {i : Instr} (h : p.row = some (f, i)) : (mnemonic i, p.op.setWidth 32, f.mask) ∈ table := by
  rw [← BitVec.ofNat_toNat]
  simp only [Packet.row] at h
  split at h
  all_goals cases h
  all_goals
    next hop => simp [hop, table, mnemonic, Format.mask]

/-- Every row of the table is the decoder's row of the opcode that is its match (R48, R50). -/
theorem row_of_mem_table {p : Packet} {row : String × Half × Half} (h : row ∈ table) (hop : p.op.toNat = row.2.1.toNat) :
    ∃ f i, p.row = some (f, i) ∧ f.mask = row.2.2 ∧ mnemonic i = row.1 := by
  simp only [table] at h
  fin_cases h <;> simp [Packet.row, hop, mnemonic, Format.mask]

/-- Every row of the table matches the whole opcode and asks for zeros elsewhere (R48). -/
theorem table_matches_opcode : ∀ row ∈ table, row.2.2.extractLsb' 0 8 = BitVec.allOnes 8 ∧ row.2.1.toNat < 2 ^ 8 := by decide

/-- A control word that a row selects has the row's match as opcode. -/
theorem op_of_selected {p : Packet} {row : String × Half × Half} (h : row ∈ table) (hsel : p.cw &&& row.2.2 = row.2.1) :
    p.op.toNat = row.2.1.toNat := by
  obtain ⟨hmask, hmatch⟩ := table_matches_opcode row h
  have hlow := congrArg (fun w => (BitVec.extractLsb' 0 8 w).toNat) hsel
  simp only [BitVec.extractLsb'_and, hmask, BitVec.and_allOnes] at hlow
  rw [Packet.op, hlow, BitVec.extractLsb'_toNat, Nat.shiftRight_zero, Nat.mod_eq_of_lt hmatch]

end Sys2Proof
end

section
/-! PROOFS. The port on a submitted packet, and the typed updates as one operation on an accumulator context: each update, and each sequence of
updates of one accumulator, leaves the state `State.digested` by some function. -/

namespace Sys2Proof.Machine

open Sys2Proof.Claims

/-! ## The port on a packet that is decoded -/

theorem submit_decoded {p : Packet} {i : Instr} {s : State} (hf : s.status.fault = false) (h : decode p = .ok i) : submit p s = exec i s := by
  simp only [submit, hf, h, Bool.false_eq_true, if_false]

theorem submit_illegal {p : Packet} {e : DecodeError} {s : State} (hf : s.status.fault = false) (h : decode p = .error e) :
    submit p s = .next (s.raise .illegalCommand (p.cw.setWidth 64)) := by
  simp only [submit, hf, h, Bool.false_eq_true, if_false]

theorem faultedPrecisely_raise (c : Cause) (w : Word) (s : State) : FaultedPrecisely c.code w s (s.raise c w) :=
  ⟨⟨rfl, rfl, rfl, rfl, rfl, rfl, rfl⟩, fun _ => rfl, fun _ => rfl, fun _ => rfl, rfl⟩

/-! ## The state after an update -/

/-- The state after an update of `ACC[rt]` by `f` completed; on "no object" only `LAST` is written (R80, R91). -/
def State.digested (rt : Slot) (f : Acc → Acc) (s : State) : State :=
  match s.acc rt with
  | none   => s.complete .noObj
  | some a => (s.setAcc rt (some (f a))).complete .ok

theorem State.digested_none {rt : Slot} {f : Acc → Acc} {s : State} (h : s.acc rt = none) : s.digested rt f = s.complete .noObj := by
  simp only [State.digested, h]

theorem State.digested_some {rt : Slot} {f : Acc → Acc} {s : State} {a : Acc} (h : s.acc rt = some a) :
    s.digested rt f = (s.setAcc rt (some (f a))).complete .ok := by
  simp only [State.digested, h]

@[simp] theorem State.digested_params (rt : Slot) (f : Acc → Acc) (s : State) : (s.digested rt f).params = s.params := by
  cases h : s.acc rt <;> simp [State.digested, h]

@[simp] theorem State.digested_mem (rt : Slot) (f : Acc → Acc) (s : State) : (s.digested rt f).mem = s.mem := by
  cases h : s.acc rt <;> simp [State.digested, h]

theorem setAcc_complete_setAcc_complete (rt : Slot) (x y : Option Acc) (k l : Last) (s : State) :
    (((s.setAcc rt x).complete k).setAcc rt y).complete l = (s.setAcc rt y).complete l := by
  simp [State.setAcc, State.complete]

/-- Two updates of one accumulator in a row are one update. -/
theorem State.digested_digested (rt : Slot) (f g : Acc → Acc) (s : State) : (s.digested rt f).digested rt g = s.digested rt (g ∘ f) := by
  cases h : s.acc rt with
  | none => rw [State.digested_none h, State.digested_none h, State.digested_none (by rwa [State.complete_acc])]; rfl
  | some a =>
    rw [State.digested_some h, State.digested_some h, State.digested_some (a := f a) (by simp), setAcc_complete_setAcc_complete]
    rfl

theorem sameObjects_refl (s : State) : SameObjects s s := ⟨fun _ => rfl, fun _ => rfl, fun _ => rfl⟩

/-- An update that changes no accumulator changes no context and no byte of memory. -/
theorem sameObjects_digested_id (rt : Slot) (s : State) : SameObjects (s.digested rt id) s := by
  cases h : s.acc rt with
  | none => rw [State.digested_none h]; exact sameObjects_refl s
  | some a => rw [State.digested_some h, id, setAcc_self h]; exact sameObjects_refl s

/-! ## The update commands -/

section Updates

variable {rt : Slot} {s : State}

theorem digest_eq (hrt : rt.toNat < s.params.na) (f : Acc → Acc) : digest rt s f = .next (s.digested rt f) := by
  rw [digest, withAcc_ok _ hrt]
  cases h : s.acc rt <;> simp [State.digested, h]

theorem exec_updU32 (hrt : rt.toNat < s.params.na) (v : Half) : exec (.updU32 rt v) s = .next (s.digested rt (update32 s.params v)) :=
  digest_eq hrt _

theorem exec_updU64 (hrt : rt.toNat < s.params.na) (v : Word) :
    exec (.updU64 rt v) s = .next (s.digested rt (foldWords s.params (halves v))) := by
  rw [← funext (update64_eq_foldWords s.params v)]
  exact digest_eq hrt _

theorem exec_lengthUpdates (hrt : rt.toNat < s.params.na) (len : Word) :
    exec (lengthUpdates s.params rt len) s = .next (s.digested rt (foldLength s.params len)) := by
  rw [funext (foldLength_eq_foldWords s.params len)]
  cases hl : s.params.lenW with
  | w32 => rw [lengthUpdates, lengthValues, hl]; exact exec_updU32 hrt _
  | w64 => rw [lengthUpdates, lengthValues, hl]; exact exec_updU64 hrt len

theorem exec_updObj_digested {addr len : Word} (hrt : rt.toNat < s.params.na) (h : Accessible s.params addr len.toNat .read) :
    exec (.updObj rt addr len) s = .next (s.digested rt (foldWords s.params (bufferWords s.mem addr len.toNat))) := by
  cases ha : s.acc rt with
  | none => simp only [exec, execUpdObj, withAcc_ok _ hrt, ha, State.digested_none ha]
  | some a => rw [exec_updObj hrt ha, digestBytes_of_accessible h, State.digested_some ha]

theorem exec_updBuf_digested {addr len : Word} (hrt : rt.toNat < s.params.na) (h : Accessible s.params addr len.toNat .read)
    (hlen : s.params.lenW = .w32 → len.toNat < 2 ^ 32) :
    exec (.updBuf rt addr len) s =
      .next (s.digested rt (foldWords s.params (bufferWords s.mem addr len.toNat) ∘ foldLength s.params len)) := by
  cases ha : s.acc rt with
  | none => simp only [exec, execUpdBuf, withAcc_ok _ hrt, ha, State.digested_none ha]
  | some a => rw [exec_updBuf hrt ha hlen, digestBytes_of_accessible h, State.digested_some ha]; rfl

/-- Only the empty buffer has no words (R31). -/
theorem len_eq_zero_of_bufferWords {m : Memory} {addr len : Word} (h : bufferWords m addr len.toNat = []) : len = 0#64 := by
  have hcount := bufferWords_length m addr len.toNat
  rw [h, List.length_nil] at hcount
  exact BitVec.eq_of_toNat_eq (by rw [BitVec.toNat_ofNat]; omega)

/-- One `UPD.U32` per word folds the words, if there is one (R54, R80). -/
theorem runAll_updU32 (hrt : rt.toNat < s.params.na) (w : Half) (ws : List Half) :
    runAll ((w :: ws).map (.updU32 rt)) s = some (s.digested rt (foldWords s.params (w :: ws))) := by
  induction ws generalizing w s with
  | nil => simp only [List.map, runAll, exec_updU32 hrt]; rfl
  | cons v ws ih =>
    have hrt' : rt.toNat < (s.digested rt (update32 s.params w)).params.na := by rwa [State.digested_params]
    rw [List.map_cons, runAll, exec_updU32 hrt]
    dsimp only
    rw [ih hrt' v, State.digested_digested, State.digested_params]
    rfl

/-! ## A text is the buffer of its length -/

/-- The scan of `UPD.STR` finds the length of the text (R88). -/
theorem scanText_of_textAt {p : Params} {m : Memory} {addr : Word} {n : Nat} (h : TextAt p m addr n) :
    scanText p m addr (scanBound p) 0 = .ok (some n) := by
  obtain ⟨hbound, hacc, hnonzero, hzero⟩ := h
  have hbound : n < scanBound p := by cases hl : p.lenW <;> simpa only [scanBound, hl] using hbound
  rcases scanText_cases p m addr (scanBound p) 0 with ⟨k, stop, -, -, hstop, hbefore⟩ | ⟨k, -, he, -, hend, hbefore⟩ | ⟨-, hall⟩
  · simp only [Nat.zero_add] at hstop hbefore
    have hk : ¬ k < n + 1 := fun hk => by simp [checkAccess_of_accessible hacc hk] at hstop
    exact absurd hzero (hbefore n (by omega)).2
  · simp only [Nat.zero_add] at he hend hbefore
    have hnk : ¬ n < k := fun hlt => (hbefore n hlt).2 hzero
    have hkn : ¬ k < n := fun hlt => hnonzero k hlt hend
    rw [he, show k = n by omega]
  · simp only [Nat.zero_add] at hall
    exact absurd hzero (hall n hbound).2

theorem exec_updStr_of_textAt {addr : Word} {n : Nat} (hrt : rt.toNat < s.params.na) (h : TextAt s.params s.mem addr n) :
    exec (.updStr rt addr) s = exec (.updBuf rt addr (BitVec.ofNat 64 n)) s := by
  have hn : (BitVec.ofNat 64 n).toNat = n ∧ (s.params.lenW = .w32 → n < 2 ^ 32) := by
    have hbound := h.1
    cases hl : s.params.lenW <;> simp only [hl] at hbound <;> simp <;> omega
  obtain ⟨hnat, hlen⟩ := hn
  cases ha : s.acc rt with
  | none => simp only [exec, execUpdStr, execUpdBuf, withAcc_ok _ hrt, ha]
  | some a =>
    rw [exec_updBuf hrt ha (by rwa [hnat]), hnat]
    simp only [exec, execUpdStr, withAcc_ok _ hrt, ha, scanText_of_textAt h]

end Updates

end Sys2Proof.Machine

end

section
/-! PROOFS. The statements on the encoding, settled from the laws above. -/

namespace Sys2Proof.Proofs

open Sys2Proof.Machine Sys2Proof.Claims

/-- Settles O2: reading a packet and holding a command are one, by the formats. -/
theorem decodeReadsExactlyTheFields : Obligations.DecodeReadsExactlyTheFields :=
  fun _ _ => ⟨fieldsOf_of_decode, decode_of_fieldsOf⟩

/-- Settles O1: the encoder's packet holds the command, and the decoder reads what a packet holds. -/
theorem decodeOfEncode : Obligations.DecodeOfEncode :=
  fun i => decode_of_fieldsOf (fieldsOf_encode i)

/-- Settles O3: the row selected is the decoder's row of the opcode, and its mask is the one the decoder checks. -/
theorem rowSelectsItsCommand : Obligations.RowSelectsItsCommand := by
  intro p name m k hmem hsel
  have hop : p.op.toNat = m.toNat := op_of_selected hmem hsel
  obtain ⟨f, i, hrow, hmask, hname⟩ := row_of_mem_table hmem hop
  refine ⟨i, (decode_ok_iff_mask p i).mpr ⟨f, hrow, ?_⟩, hname⟩
  rw [hmask, hsel, ← BitVec.ofNat_toNat, hop, BitVec.ofNat_toNat, BitVec.setWidth_eq]

/-- Settles O4, by evaluating the decoder. -/
theorem decodeSampleWords : Obligations.DecodeSampleWords := by
  unfold Obligations.DecodeSampleWords
  decide

/-- Settles O5: the step is the submission, which executes the decoded command. -/
theorem stepRunsTheDecodedCommand : Obligations.StepRunsTheDecodedCommand := by
  intro s p rest i hin hf hdec
  rw [step_act hin]
  exact submit_decoded hf hdec

/-- Settles O6: a command the decoder answers would have its row in the table, so that the decoder answers none. -/
theorem unselectedWordRaisesIllegalCommand : Obligations.UnselectedWordRaisesIllegalCommand := by
  intro s p rest hin hf hunselected
  cases hdec : decode p with
  | ok i =>
    obtain ⟨f, hrow, hmask⟩ := (decode_ok_iff_mask p i).mp hdec
    exact absurd hmask (hunselected _ (mem_table_of_row hrow))
  | error e =>
    rw [BitVec.ofNat_toNat]
    exact ⟨_, (step_act hin).trans (submit_illegal hf hdec), faultedPrecisely_raise .illegalCommand _ { s with inputs := rest }⟩

/-- Settles O48: every update and every sequence is one `State.digested`, and the functions of the two are the same. -/
theorem typedUpdatesEqualTheirSequences : Obligations.TypedUpdatesEqualTheirSequences := by
  intro rt s hrt
  refine ⟨fun v => ?_, fun _ => rfl, fun _ => rfl, fun _ => rfl, fun addr len hacc => ⟨fun hlen => ?_, ?_⟩,
    fun addr n htext => exec_updStr_of_textAt hrt htext⟩
  · exact ⟨_, _, exec_updU64 hrt v, runAll_updU32 hrt (BitVec.ofNat 32 v.toNat) [BitVec.ofNat 32 (v.toNat / 2 ^ 32)], sameObjects_refl _, rfl⟩
  · refine ⟨_, _, exec_updBuf_digested hrt hacc hlen, ?_, sameObjects_refl _, rfl⟩
    have hobj := exec_updObj_digested (rt := rt) (s := s.digested rt (foldLength s.params len)) (addr := addr) (len := len)
    simp only [State.digested_params, State.digested_mem, State.digested_digested] at hobj
    simp only [runAll, exec_lengthUpdates hrt, hobj hrt hacc]
  · have hobj := exec_updObj_digested hrt hacc
    cases hws : bufferWords s.mem addr len.toNat with
    | nil =>
      rw [hws] at hobj
      exact ⟨_, s, hobj, rfl, sameObjects_digested_id rt s, fun hne => absurd (len_eq_zero_of_bufferWords hws) hne⟩
    | cons w ws =>
      rw [hws] at hobj
      exact ⟨_, _, hobj, runAll_updU32 hrt w ws, sameObjects_refl _, fun _ => rfl⟩

end Sys2Proof.Proofs
end

section
/-! PROOFS. The laws of the four units on numbers: draws, the multiply-accumulate step, the polynomial evaluator, the avalanche network; and the
digest of a list of values. -/

namespace Sys2Proof.Machine

/-! ## Draws and the multiply-accumulate step, on numbers modulo 2^64 -/

theorem weylAt_ofNat (c : Nat) (inc : Word) (k : Nat) : weylAt (BitVec.ofNat 64 c) inc k = BitVec.ofNat 64 (c + k * inc.toNat) := by
  rw [weylAt, BitVec.ofNat_add, BitVec.ofNat_mul, BitVec.ofNat_toNat, BitVec.setWidth_eq]

theorem weylAt_eq_ofNat (start inc : Word) (k : Nat) : weylAt start inc k = BitVec.ofNat 64 (start.toNat + k * inc.toNat) := by
  rw [← weylAt_ofNat, BitVec.ofNat_toNat, BitVec.setWidth_eq]

theorem weylAt_toNat (start inc : Word) (k : Nat) : (weylAt start inc k).toNat = (start.toNat + k * inc.toNat) % 2 ^ 64 := by
  rw [weylAt_eq_ofNat, BitVec.toNat_ofNat]

/-- Draws in a row are the values of the sequence (R60, R61). -/
theorem weylNext_iterate (start inc : Word) (k : Nat) : (fun c => (weylNext c inc).1)^[k] start = weylAt start inc k := by
  induction k with
  | zero => rw [weylAt_zero, Function.iterate_zero_apply]
  | succ k ih => rw [Function.iterate_succ_apply', ih, weylAt_succ, weylNext]

theorem macStep_ofNat (l c : Nat) (v : Half) :
    macStep (BitVec.ofNat 64 l) (BitVec.ofNat 64 c) v = BitVec.ofNat 64 (l + c * v.toNat) := by
  rw [macStep, BitVec.ofNat_add, BitVec.ofNat_mul, BitVec.ofNat_toNat]

theorem macStep_toNat (l c : Word) (v : Half) : (macStep l c v).toNat = (l.toNat + c.toNat * v.toNat) % 2 ^ 64 := by
  have h := macStep_ofNat l.toNat c.toNat v
  simp only [BitVec.ofNat_toNat, BitVec.setWidth_eq] at h
  rw [h, BitVec.toNat_ofNat]

/-! ## Odd multipliers -/

theorem odd_of_oddWord {m : Word} (h : oddWord m = true) : m.toNat % 2 = 1 := by simpa [oddWord] using h

/-- An odd number is invertible modulo 2^64, so that it can be cancelled. -/
theorem mul_odd_injective {m : Word} (h : m.toNat % 2 = 1) : Function.Injective (· * m) := by
  intro x y hxy
  have hmod : x.toNat * m.toNat ≡ y.toNat * m.toNat [MOD 2 ^ 64] := by simpa [Nat.ModEq] using congrArg BitVec.toNat hxy
  have hcoprime : Nat.Coprime (2 ^ 64) m.toNat := Nat.Coprime.pow_left 64 (Nat.coprime_two_left.mpr (Nat.odd_iff.mpr h))
  exact BitVec.eq_of_toNat_eq ((Nat.ModEq.cancel_right_of_coprime hcoprime hmod).eq_of_lt_of_lt x.isLt y.isLt)

/-- With an odd increment the period is exactly 2^64 (R61). -/
theorem weylAt_eq_iff {inc : Word} (h : inc.toNat % 2 = 1) (start : Word) (j k : Nat) :
    weylAt start inc j = weylAt start inc k ↔ j % 2 ^ 64 = k % 2 ^ 64 := by
  rw [weylAt, weylAt, BitVec.add_right_inj, (mul_odd_injective h).eq_iff, ← BitVec.toNat_inj, BitVec.toNat_ofNat, BitVec.toNat_ofNat]

/-! ## The polynomial evaluator -/

/-- A round of the loop is a draw and a multiply-accumulate step with it (R62, R63). -/
theorem polyLoop_cons (p : Params) (c v : Word) (k : Half) (ks : List Half) :
    polyLoop p c v (k :: ks) = polyLoop p (drawOut p c) (macStep v (drawOut p c) k) ks := rfl

/-- The first term of a sum joins the value it is added to, as a fold takes it up first. -/
theorem add_sum_range_succ (v n : Nat) (f : Nat → Nat) :
    v + ∑ t ∈ Finset.range (n + 1), f t = v + f 0 + ∑ t ∈ Finset.range n, f (t + 1) := by
  rw [Finset.sum_range_succ', add_comm (∑ t ∈ Finset.range n, f (t + 1)), ← add_assoc]

/-- The running sum of the loop: each key times the draw it gets (R63). -/
theorem polyLoop_value (p : Params) (c v : Nat) (ks : List Half) :
    (polyLoop p (BitVec.ofNat 64 c) (BitVec.ofNat 64 v) ks).2 =
      BitVec.ofNat 64 (v + ∑ j ∈ Finset.range ks.length, (c + (j + 1) * p.incOut.toNat) * (ks.getD j 0#32).toNat) := by
  induction ks generalizing c v with
  | nil => simp [polyLoop]
  | cons k ks ih =>
    rw [polyLoop_cons, drawOut_eq, weylAt_ofNat, macStep_ofNat, ih, List.length_cons, add_sum_range_succ]
    simp only [List.getD_cons_succ, List.getD_cons_zero, zero_add]
    congr 3 with j
    ring

/-- The sum the evaluator answers: the first draw, and each key times its draw (R63). -/
theorem polyEval_value (p : Params) (c : Word) (ks : List Half) :
    (polyEval p c ks).2 = BitVec.ofNat 64
      (c.toNat + p.incOut.toNat + ∑ j ∈ Finset.range ks.length, (c.toNat + (j + 2) * p.incOut.toNat) * (ks.getD j 0#32).toNat) := by
  rw [polyEval, drawOut_eq, weylAt_eq_ofNat, polyLoop_value, one_mul]
  congr 2
  refine Finset.sum_congr rfl fun j _ => ?_
  ring

/-! ## The avalanche network -/

/-- XOR-shift-right by `k` bits, the linear half of a round of the avalanche network (R64). -/
def xorShift (k : Nat) (u : Word) : Word := u ^^^ (u >>> k)

/-- The network is two rounds, each an XOR-shift-right and a multiplication (R64). -/
theorem mix64_eq (p : Params) (u : Word) : mix64 p u = xorShift 28 (xorShift 33 u * p.mixM1) * p.mixM2 := rfl

theorem xorShift_toNat (k : Nat) (u : Word) : (xorShift k u).toNat = u.toNat ^^^ (u.toNat / 2 ^ k) := by
  rw [xorShift, BitVec.toNat_xor, BitVec.toNat_ushiftRight, Nat.shiftRight_eq_div_pow]

theorem mix64_toNat (p : Params) (u : Word) :
    (mix64 p u).toNat =
      let a := u.toNat ^^^ (u.toNat / 2 ^ 33)
      let b := a * p.mixM1.toNat % 2 ^ 64
      (b ^^^ (b / 2 ^ 28)) * p.mixM2.toNat % 2 ^ 64 := by
  simp only [mix64_eq, BitVec.toNat_mul, xorShift_toNat]

/-- The truncation keeps the high 32 bits (R64). -/
theorem finalmix_toNat (p : Params) (u : Word) : (finalmix p u).toNat = (mix64 p u).toNat / 2 ^ 32 := by
  rw [finalmix, high_half, BitVec.toNat_ofNat]
  exact Nat.mod_eq_of_lt (Nat.div_lt_of_lt_mul (mix64 p u).isLt)

/-- Two words with the same XOR-shift differ by a word that equals its own shift, and only zero does. -/
theorem xorShift_injective {k : Nat} (hk : 0 < k) : Function.Injective (xorShift k) := by
  intro u v huv
  have hdiff : u ^^^ v = (u ^^^ v) >>> k := by
    rw [BitVec.ushiftRight_xor_distrib, ← BitVec.xor_eq_zero_iff]
    calc u ^^^ v ^^^ (u >>> k ^^^ v >>> k) = xorShift k u ^^^ xorShift k v := by simp only [xorShift]; ac_rfl
      _ = 0#64 := BitVec.xor_eq_zero_iff.mpr huv
  have hnat : (u ^^^ v).toNat / 2 ^ k = (u ^^^ v).toNat := by
    rw [← Nat.shiftRight_eq_div_pow, ← BitVec.toNat_ushiftRight, ← hdiff]
  have hzero : (u ^^^ v).toNat = 0 := (Nat.div_eq_self.mp hnat).resolve_right (Nat.one_lt_two_pow hk.ne').ne'
  exact BitVec.xor_eq_zero_iff.mp (BitVec.eq_of_toNat_eq hzero)

theorem mix64_injective {p : Params} (h1 : oddWord p.mixM1 = true) (h2 : oddWord p.mixM2 = true) : Function.Injective (mix64 p) :=
  (mul_odd_injective (odd_of_oddWord h2)).comp <| (xorShift_injective (k := 28) (by decide)).comp <|
    (mul_odd_injective (odd_of_oddWord h1)).comp (xorShift_injective (k := 33) (by decide))

theorem mix64_bijective {p : Params} (h1 : oddWord p.mixM1 = true) (h2 : oddWord p.mixM2 = true) : Function.Bijective (mix64 p) :=
  (mix64_injective h1 h2).bijective_of_finite

/-- A word whose high half is `r` is determined by its low half, which may be any. -/
def lowHalfEquiv (r : Half) : { d : Word // d.extractLsb' 32 32 = r } ≃ Half where
  toFun d := d.1.extractLsb' 0 32
  invFun l := ⟨r ++ l, BitVec.extractLsb'_append_eq_left⟩
  left_inv := by
    rintro ⟨d, rfl⟩
    exact Subtype.ext (BitVec.extractLsb'_append_extractLsb' (w := 32) (len := 32))
  right_inv _ := BitVec.extractLsb'_append_eq_right

theorem card_finalmix_eq {p : Params} (h1 : oddWord p.mixM1 = true) (h2 : oddWord p.mixM2 = true) (r : Half) :
    Nat.card { u : Word // finalmix p u = r } = 2 ^ 32 := by
  have hmix : { u : Word // finalmix p u = r } ≃ { d : Word // d.extractLsb' 32 32 = r } :=
    (Equiv.ofBijective (mix64 p) (mix64_bijective h1 h2)).subtypeEquiv fun _ => Iff.rfl
  calc Nat.card { u : Word // finalmix p u = r }
      = Nat.card (Fin (2 ^ 32)) := Nat.card_congr ((hmix.trans (lowHalfEquiv r)).trans BitVec.equivFin.toEquiv)
    _ = 2 ^ 32 := Nat.card_fin _

/-! ## The digest of a list of values -/

theorem foldWords_cons (p : Params) (x : Half) (xs : List Half) (a : Acc) :
    foldWords p (x :: xs) a = foldWords p xs (update32 p x a) := rfl

/-- Lane `i` of an accumulator of `n` lanes after the primitive updates `xs`: update number `t` adds its value times draw `t * n + i + 1` (R69). -/
theorem foldWords_lane (p : Params) {n i : Nat} (xs : List Half) {a : Acc} {c l : Nat} (hn : a.lanes.length = n)
    (hc : a.coef = BitVec.ofNat 64 c) (hl : a.lanes[i]? = some (BitVec.ofNat 64 l)) :
    (foldWords p xs a).lanes[i]? = some (BitVec.ofNat 64
      (l + ∑ t ∈ Finset.range xs.length, (c + (t * n + i + 1) * p.incIn.toNat) * (xs.getD t 0#32).toNat)) := by
  induction xs generalizing a c l with
  | nil => simpa using hl
  | cons x xs ih =>
    have hc' : (update32 p x a).coef = BitVec.ofNat 64 (c + n * p.incIn.toNat) := by rw [update32_coef, hn, hc, weylAt_ofNat]
    have hl' := update32_lane p x a i _ hl
    rw [hc, weylAt_ofNat, macStep_ofNat] at hl'
    rw [foldWords_cons, ih ((update32_length p x a).trans hn) hc' hl', List.length_cons, add_sum_range_succ]
    simp only [List.getD_cons_succ, List.getD_cons_zero, zero_mul, zero_add]
    congr 4 with t
    ring

theorem foldWords_freshAcc_lane (p : Params) {n i : Nat} (xs : List Half) (hi : i < n) :
    (foldWords p xs (freshAcc p n)).lanes[i]? = some (BitVec.ofNat 64
      (p.startIn.toNat + (i + 1) * p.incIn.toNat + ∑ t ∈ Finset.range xs.length,
        (p.startIn.toNat + ((t + 1) * n + i + 1) * p.incIn.toNat) * (xs.getD t 0#32).toNat)) := by
  have hcoef := (freshAcc_coef p n).trans (weylAt_eq_ofNat ..)
  have hlane := createLanes_lane p p.startIn n i hi
  rw [weylAt_eq_ofNat] at hlane
  rw [foldWords_lane p xs (freshAcc_length p n) hcoef hlane]
  congr 3
  refine Finset.sum_congr rfl fun t _ => ?_
  ring

/-! ## The commands that fold 32 bits and that draw a seed -/

/-- `UPD.U32` and `UPD.F32` are one rule (R80, R83). -/
theorem exec_updF32_eq (rt : Slot) (v : Half) (s : State) : exec (.updF32 rt v) s = exec (.updU32 rt v) s := rfl

theorem exec_genNext {rt : Slot} {s : State} {g : Gen} (hrt : rt.toNat < s.params.ng) (hg : s.gen rt = some g) :
    exec (.genNext rt) s = .next (((s.setGen rt (some (nextSeed s.params g).2)).setRes ((nextSeed s.params g).1.setWidth 64)).complete .ok) := by
  simp only [exec, execGenNext, withGen_ok _ hrt, hg]

theorem nextSeed_gen (p : Params) (g : Gen) :
    (nextSeed p g).2 = ⟨g.coef + BitVec.ofNat 64 (1 + g.keys.length) * p.incOut, g.keys⟩ :=
  congrArg (Gen.mk · g.keys) (nextSeed_coef p g)

end Sys2Proof.Machine
end

section
/-! PROOFS. The statements on the units, settled from the laws above. -/

namespace Sys2Proof.Proofs

open Sys2Proof.Machine Sys2Proof.Claims

/-- Settles O25: draws in a row are the values of the sequence, and an odd increment can be cancelled. -/
theorem weylSequence : Obligations.WeylSequence := by
  intro start inc
  simp only [weylNext_iterate]
  exact ⟨fun _ => rfl, weylAt_toNat start inc, fun hodd => weylAt_eq_iff hodd start⟩

/-- Settles O26: the step is one sum and one product, each modulo 2^64. -/
theorem macStepModulo : Obligations.MacStepModulo := macStep_toNat

/-- Settles O27: the state is the draw number `1 + K`, the sum is the loop's. -/
theorem polyEvalClosedForm : Obligations.PolyEvalClosedForm := by
  intro p s keys
  refine ⟨?_, ?_⟩
  · rw [polyEval_coef, weylAt_toNat, Nat.add_comm 1]
  · rw [polyEval_value, BitVec.toNat_ofNat]

/-- Settles O28: the high half of the network's 64-bit value. -/
theorem finalmixFormula : Obligations.FinalmixFormula :=
  fun p u => (finalmix_toNat p u).trans (congrArg (· / 2 ^ 32) (mix64_toNat p u))

/-- Settles O29: each half of a round is injective, on finitely many words. -/
theorem mixIsBijective : Obligations.MixIsBijective := fun _ => mix64_bijective

/-- Settles O30: the preimages of `r` are those of the words with the high half `r`, by the bijection. -/
theorem finalmixPreimages : Obligations.FinalmixPreimages := fun _ r h1 h2 => card_finalmix_eq h1 h2 r

/-- Settles O33, by induction on the values folded. -/
theorem digestClosedForm : Obligations.DigestClosedForm := fun p _ _ xs hi => foldWords_freshAcc_lane p xs hi

/-- Settles O41: both commands are one primitive update. -/
theorem thirtyTwoBitUpdatesFold : Obligations.ThirtyTwoBitUpdatesFold := by
  intro rt v s a hrt ha i hi
  have hexec : exec i s = .next ((s.setAcc rt (some (update32 s.params v a))).complete .ok) := by
    rw [← State.digested_some ha, ← exec_updU32 hrt v]
    rcases hi with rfl | rfl
    · rfl
    · exact exec_updF32_eq rt v s
  exact ⟨_, _, hexec, completed_setAcc .., keepsAllButAcc_setAcc .., State.setAcc_acc_same .., update32_folded ..⟩

/-- Settles O55: the seed and the generator after it are the unit's. -/
theorem genNextProducesTheSeed : Obligations.GenNextProducesTheSeed := by
  intro rt s g hrt hg
  refine ⟨_, exec_genNext hrt hg, ?_, fun _ => rfl, fun h hh => State.setGen_gen_other rt _ s h hh, fun _ => rfl, ?_, ?_⟩
  · exact completed_complete .ok ⟨rfl, rfl, rfl⟩ ⟨rfl, rfl, rfl⟩ rfl
  · rw [State.complete_gen, State.setRes_gen, State.setGen_gen_same, nextSeed_gen]
  · rw [BitVec.ofNat_toNat]
    rfl

end Sys2Proof.Proofs
end

section
/-! PROOFS. The laws of the commands that create, copy, free and inspect a context (41_accumulator.md, 43_generator.md): the next state of each,
once its context fields name contexts of the instance. -/

namespace Sys2Proof.Machine

open Sys2Proof.Claims

/-! ## What returning a value leaves -/

theorem completed_setRes (v : Word) (last : Last) (s : State) : Completed last s ((s.setRes v).complete last) :=
  completed_complete last ⟨rfl, rfl, rfl⟩ ⟨rfl, rfl, rfl⟩ rfl

theorem keepsAllButRes_setRes (v : Word) (last : Last) (s : State) : KeepsAllButRes s ((s.setRes v).complete last) :=
  ⟨fun _ => rfl, fun _ => rfl, fun _ => rfl⟩

section Contexts

variable {rt rd rs : Slot} {s : State} {a : Acc} {g : Gen}

/-! ## Creation -/

theorem exec_accCreate_zero (hrt : rt.toNat < s.params.na) :
    exec (.accCreate rt 0#64) s = .next ((s.setAcc rt none).complete .zSize) := by
  rw [exec, execAccCreate, withAcc_ok _ hrt, if_pos rfl]

theorem exec_accCreate_of_fits {bits : Word} (hrt : rt.toNat < s.params.na) (hbits : bits ≠ 0#64) (hfits : lanesWanted bits ≤ s.params.lmax) :
    exec (.accCreate rt bits) s = .next ((s.setAcc rt (some (freshAcc s.params (lanesWanted bits)))).complete .ok) := by
  rw [exec, execAccCreate, withAcc_ok _ hrt, if_neg hbits, if_neg (Nat.not_lt_of_le hfits)]

theorem exec_accCreate_of_over {bits : Word} (hrt : rt.toNat < s.params.na) (hbits : bits ≠ 0#64) (hover : s.params.lmax < lanesWanted bits) :
    exec (.accCreate rt bits) s = .next (s.raise .capacity (BitVec.ofNat 64 (lanesWanted bits))) := by
  rw [exec, execAccCreate, withAcc_ok _ hrt, if_neg hbits, if_pos hover]

theorem exec_genCreate_of_over {addr size : Word} (hrt : rt.toNat < s.params.ng) (hsize : size ≠ 0#64) (hover : s.params.lmax < keysWanted size) :
    exec (.genCreate rt addr size) s = .next (s.raise .capacity (BitVec.ofNat 64 (keysWanted size))) := by
  rw [exec, execGenCreate, withGen_ok _ hrt, if_neg hsize, if_pos hover]

/-- Lane `i` of a fresh accumulator is draw number `i + 1` (R70). -/
theorem freshAcc_lane (p : Params) {n i : Nat} (hi : i < n) : (freshAcc p n).lanes[i]? = some (weylAt p.startIn p.incIn (i + 1)) :=
  createLanes_lane p p.startIn n i hi

/-! ## Copying and freeing

Both outcomes of a rule are one write of the context: a clone writes what it read, and freeing "no object" writes what stands there. -/

theorem exec_accClone (hrd : rd.toNat < s.params.na) (hrs : rs.toNat < s.params.na) :
    exec (.accClone rd rs) s = .next ((s.setAcc rd (s.acc rs)).complete (if s.acc rs = none then .noObj else .ok)) := by
  rw [exec, execAccClone, withAcc_ok _ hrd, withAcc_ok _ hrs]
  cases s.acc rs with
  | none => rfl
  | some a => rfl

theorem exec_genClone (hrd : rd.toNat < s.params.ng) (hrs : rs.toNat < s.params.ng) :
    exec (.genClone rd rs) s = .next ((s.setGen rd (s.gen rs)).complete (if s.gen rs = none then .noObj else .ok)) := by
  rw [exec, execGenClone, withGen_ok _ hrd, withGen_ok _ hrs]
  cases s.gen rs with
  | none => rfl
  | some g => rfl

theorem exec_accFree (hrt : rt.toNat < s.params.na) :
    exec (.accFree rt) s = .next ((s.setAcc rt none).complete (if s.acc rt = none then .noObj else .ok)) := by
  rw [exec, execAccFree, withAcc_ok _ hrt]
  cases ha : s.acc rt with
  | none => rw [setAcc_self ha, if_pos rfl]
  | some a => rfl

theorem exec_genFree (hrt : rt.toNat < s.params.ng) :
    exec (.genFree rt) s = .next ((s.setGen rt none).complete (if s.gen rt = none then .noObj else .ok)) := by
  rw [exec, execGenFree, withGen_ok _ hrt]
  cases hg : s.gen rt with
  | none => rw [setGen_self hg, if_pos rfl]
  | some g => rfl

/-! ## Inspection -/

theorem exec_accLen (hrt : rt.toNat < s.params.na) (ha : s.acc rt = some a) :
    exec (.accLen rt) s = .next ((s.setRes (BitVec.ofNat 64 a.lanes.length)).complete .ok) := by
  simp only [exec, execAccLen, withAcc_ok _ hrt, ha]

theorem exec_genLen (hrt : rt.toNat < s.params.ng) (hg : s.gen rt = some g) :
    exec (.genLen rt) s = .next ((s.setRes (BitVec.ofNat 64 g.keys.length)).complete .ok) := by
  simp only [exec, execGenLen, withGen_ok _ hrt, hg]

theorem exec_accLane_of_lane {i l : Word} (hrt : rt.toNat < s.params.na) (ha : s.acc rt = some a) (hl : a.lanes[i.toNat]? = some l) :
    exec (.accLane rt i) s = .next ((s.setRes l).complete .ok) := by
  simp only [exec, execAccLane, withAcc_ok _ hrt, ha, hl]

theorem exec_accLane_of_past {i : Word} (hrt : rt.toNat < s.params.na) (ha : s.acc rt = some a) (hi : a.lanes.length ≤ i.toNat) :
    exec (.accLane rt i) s = .next (s.raise .indexRange i) := by
  simp only [exec, execAccLane, withAcc_ok _ hrt, ha, List.getElem?_eq_none hi]

theorem exec_genKey_of_key {j : Word} {k : Half} (hrt : rt.toNat < s.params.ng) (hg : s.gen rt = some g) (hk : g.keys[j.toNat]? = some k) :
    exec (.genKey rt j) s = .next ((s.setRes (k.setWidth 64)).complete .ok) := by
  simp only [exec, execGenKey, withGen_ok _ hrt, hg, hk]

theorem exec_genKey_of_past {j : Word} (hrt : rt.toNat < s.params.ng) (hg : s.gen rt = some g) (hj : g.keys.length ≤ j.toNat) :
    exec (.genKey rt j) s = .next (s.raise .indexRange j) := by
  simp only [exec, execGenKey, withGen_ok _ hrt, hg, List.getElem?_eq_none hj]

/-! ## Finalization -/

theorem exec_genFromAcc_none (hrd : rd.toNat < s.params.ng) (hrs : rs.toNat < s.params.na) (ha : s.acc rs = none) :
    exec (.genFromAcc rd rs) s = .next ((s.setGen rd none).complete .noObj) := by
  simp only [exec, execGenFromAcc, withGen_ok _ hrd, withAcc_ok _ hrs, ha]

theorem exec_genFromAcc_some (hrd : rd.toNat < s.params.ng) (hrs : rs.toNat < s.params.na) (ha : s.acc rs = some a) :
    exec (.genFromAcc rd rs) s = .next ((s.setGen rd (some (finalize s.params a))).complete .ok) := by
  simp only [exec, execGenFromAcc, withGen_ok _ hrd, withAcc_ok _ hrs, ha]

/-- Key `i` is the avalanche of lane `i` plus draw number `i + 1` from `START_OUT` (R95). -/
theorem finalize_key (p : Params) {a : Acc} {i : Nat} {l : Word} (h : a.lanes[i]? = some l) :
    (finalize p a).keys[i]? = some (finalmix p (l + weylAt p.startOut p.incOut (i + 1))) :=
  finalizeKeys_key p p.startOut a.lanes i l h

end Contexts

end Sys2Proof.Machine
end

section
/-! PROOFS. The statements on the accumulator and on creating, copying, freeing and inspecting a context, settled from the laws above. -/

namespace Sys2Proof.Proofs

open Sys2Proof.Machine Sys2Proof.Claims

/-- Settles O35: the accumulator made is the fresh one of `L` lanes, whose lanes and `coef` are draws of the input sequence. -/
theorem accCreateCompletes : Obligations.AccCreateCompletes := by
  intro rt bits s hrt
  refine ⟨?_, ?_⟩
  · rintro rfl
    exact ⟨_, exec_accCreate_zero hrt, completed_setAcc .., keepsAllButAcc_setAcc .., State.setAcc_acc_same ..⟩
  · intro hbits hfits
    rw [← lanesWanted_eq] at hfits ⊢
    exact ⟨_, _, exec_accCreate_of_fits hrt hbits hfits, completed_setAcc .., keepsAllButAcc_setAcc .., State.setAcc_acc_same ..,
      freshAcc_length .., freshAcc_coef .., fun _ hi => freshAcc_lane s.params hi⟩

/-- Settles O53: the generator made is the finalized one; the source stands among the accumulators, all of which are kept. -/
theorem fromAccFinalizes : Obligations.FromAccFinalizes := by
  intro rd rs s hrd hrs
  refine ⟨fun ha => ?_, fun a ha => ?_⟩
  · exact ⟨_, exec_genFromAcc_none hrd hrs ha, completed_setGen .., keepsAllButGen_setGen .., State.setGen_gen_same ..⟩
  · exact ⟨_, _, exec_genFromAcc_some hrd hrs ha, completed_setGen .., keepsAllButGen_setGen .., State.setGen_gen_same ..,
      finalize_coef .., finalize_length .., fun _ _ hl => finalize_key s.params hl⟩

/-- Settles O36: the number wanted is compared with `LMAX` before a lane is made or a byte is read. -/
theorem createOverCapacityFaults : Obligations.CreateOverCapacityFaults := by
  intro rt s
  refine ⟨fun bits hrt hbits hover => ?_, fun addr size hrt hsize hover => ?_⟩
  · rw [← lanesWanted_eq] at hover ⊢
    exact ⟨_, exec_accCreate_of_over hrt hbits hover, faultedPrecisely_raise .capacity ..⟩
  · exact ⟨_, exec_genCreate_of_over hrt hsize hover, faultedPrecisely_raise .capacity ..⟩

/-- Settles O37: a clone is one write of the destination with the source as it was. -/
theorem clonesCopyTheSource : Obligations.ClonesCopyTheSource := by
  intro rd rs s
  refine ⟨fun hrd hrs => ?_, fun hrd hrs => ?_⟩
  · exact ⟨_, exec_accClone hrd hrs, completed_setAcc .., State.setAcc_acc_same .., keepsAllButAcc_setAcc ..⟩
  · exact ⟨_, exec_genClone hrd hrs, completed_setGen .., State.setGen_gen_same .., keepsAllButGen_setGen ..⟩

/-- Settles O38: a free is one write of "no object", which changes nothing where none stood. -/
theorem freesLeaveNoObject : Obligations.FreesLeaveNoObject := by
  intro rt s
  refine ⟨fun hrt => ?_, fun hrt => ?_⟩
  · exact ⟨_, exec_accFree hrt, completed_setAcc .., State.setAcc_acc_same .., keepsAllButAcc_setAcc ..⟩
  · exact ⟨_, exec_genFree hrt, completed_setGen .., State.setGen_gen_same .., keepsAllButGen_setGen ..⟩

/-- Settles O39: the length is the one thing written, to `RES`. -/
theorem lengthsAreRead : Obligations.LengthsAreRead := by
  intro rt s
  refine ⟨fun a hrt ha => ?_, fun g hrt hg => ?_⟩
  · exact ⟨_, exec_accLen hrt ha, completed_setRes .., keepsAllButRes_setRes .., rfl⟩
  · exact ⟨_, exec_genLen hrt hg, completed_setRes .., keepsAllButRes_setRes .., rfl⟩

/-- Settles O40: an index either names a lane or key, which goes to `RES`, or is past the end. -/
theorem lanesAndKeysAreRead : Obligations.LanesAndKeysAreRead := by
  intro rt i s
  refine ⟨fun a hrt ha => ⟨fun l hl => ?_, fun hpast => ?_⟩, fun g hrt hg => ⟨fun k hk => ?_, fun hpast => ?_⟩⟩
  · exact ⟨_, exec_accLane_of_lane hrt ha hl, completed_setRes .., keepsAllButRes_setRes .., rfl⟩
  · exact ⟨_, exec_accLane_of_past hrt ha hpast, faultedPrecisely_raise .indexRange ..⟩
  · rw [BitVec.ofNat_toNat]
    exact ⟨_, exec_genKey_of_key hrt hg hk, completed_setRes .., keepsAllButRes_setRes .., rfl⟩
  · exact ⟨_, exec_genKey_of_past hrt hg hpast, faultedPrecisely_raise .indexRange ..⟩

end Sys2Proof.Proofs
end

section
/-! PROOFS. The laws of the update commands that the sections above leave open (42_update.md): the 64-bit forms, no object, a buffer too long, and
the scan of `UPD.STR`. -/

namespace Sys2Proof.Machine

open Sys2Proof.Claims

section Updates

variable {rt : Slot} {addr : Word} {s : State} {a : Acc}

/-! ## The 64-bit forms -/

/-- `UPD.F64` and `UPD.U64` are one rule (R84). -/
theorem exec_updF64_eq (rt : Slot) (v : Word) (s : State) : exec (.updF64 rt v) s = exec (.updU64 rt v) s := rfl

/-- `UPD.PTR` and `UPD.U64` are one rule (R85). -/
theorem exec_updPtr_eq (rt : Slot) (v : Word) (s : State) : exec (.updPtr rt v) s = exec (.updU64 rt v) s := rfl

/-! ## No object -/

/-- An update on "no object" writes `LAST` before it looks at an operand or the memory (R91). -/
theorem exec_update_noObject {i : Instr} (hi : updateOf i = some rt) (hrt : rt.toNat < s.params.na) (hnone : s.acc rt = none) :
    exec i s = .next (s.complete .noObj) := by
  cases i <;> cases hi
  case updU32 | updU64 | updF32 | updF64 | updPtr =>
    rw [← State.digested_none hnone]
    exact digest_eq hrt _
  case updBuf | updStr | updObj => simp only [exec, execUpdBuf, execUpdStr, execUpdObj, withAcc_ok _ hrt, hnone]

/-! ## A buffer too long -/

theorem exec_updBuf_of_long {len : Word} (hrt : rt.toNat < s.params.na) (ha : s.acc rt = some a) (hw : s.params.lenW = .w32)
    (hlong : 2 ^ 32 ≤ len.toNat) : exec (.updBuf rt addr len) s = .next (s.raise .lengthRange len) := by
  simp only [exec, execUpdBuf, withAcc_ok _ hrt, ha, if_pos (And.intro hw hlong)]

/-! ## The length of a text, and a text without an end -/

/-- The length of a text is a 64-bit number, and one that `UPD.BUF` takes (R88). -/
theorem length_of_textAt {p : Params} {m : Memory} {n : Nat} (h : TextAt p m addr n) :
    (BitVec.ofNat 64 n).toNat = n ∧ (p.lenW = .w32 → n < 2 ^ 32) := by
  obtain ⟨hbound, -⟩ := h
  rw [BitVec.toNat_ofNat]
  cases hl : p.lenW with
  | w32 =>
    have hbound : n < 2 ^ 32 := by simpa only [hl] using hbound
    exact ⟨Nat.mod_eq_of_lt (by omega), fun _ => hbound⟩
  | w64 =>
    have hbound : n < 2 ^ 64 := by simpa only [hl] using hbound
    exact ⟨Nat.mod_eq_of_lt hbound, nofun⟩

/-- The scan of `UPD.STR` comes to its bound where no byte before it is refused or zero (R89). -/
theorem scanText_of_noZeroFor {p : Params} {m : Memory} (h : NoZeroFor p m addr (scanBound p)) :
    scanText p m addr (scanBound p) 0 = .ok none := by
  obtain ⟨hacc, hnonzero⟩ := h
  rcases scanText_cases p m addr (scanBound p) 0 with ⟨k, stop, hk, -, hstop, -⟩ | ⟨k, hk, -, -, hzero, -⟩ | ⟨hnone, -⟩
  · rw [Nat.zero_add, checkAccess_of_accessible hacc hk] at hstop
    cases hstop
  · rw [Nat.zero_add] at hzero
    exact absurd hzero (hnonzero k hk)
  · exact hnone

theorem exec_updStr_of_noZeroFor (hrt : rt.toNat < s.params.na) (ha : s.acc rt = some a)
    (h : NoZeroFor s.params s.mem addr (scanBound s.params)) : exec (.updStr rt addr) s = unterminated s := by
  simp only [exec, execUpdStr, withAcc_ok _ hrt, ha, scanText_of_noZeroFor h]

end Updates

end Sys2Proof.Machine
end

section
/-! PROOFS. The statements on the update commands, settled from the laws above. -/

namespace Sys2Proof.Proofs

open Sys2Proof.Machine Sys2Proof.Claims

/-- Settles O42: the three commands are one rule, which folds the two halves as a list of two values. -/
theorem sixtyFourBitUpdatesFold : Obligations.SixtyFourBitUpdatesFold := by
  intro rt v s a hrt ha i hi
  have hexec : exec i s = .next ((s.setAcc rt (some (foldWords s.params (halves v) a))).complete .ok) := by
    rw [← State.digested_some ha, ← exec_updU64 hrt v]
    rcases hi with rfl | rfl | rfl
    · rfl
    · exact exec_updF64_eq rt v s
    · exact exec_updPtr_eq rt v s
  exact ⟨_, _, hexec, completed_setAcc .., keepsAllButAcc_setAcc .., State.setAcc_acc_same .., foldWords_foldedAll ..⟩

/-- Settles O47: the text is the buffer of its length, whose bytes are those before the terminator. -/
theorem updStrFolds : Obligations.UpdStrFolds := by
  intro rt addr n s a hrt ha htext
  obtain ⟨hnat, hlen⟩ := length_of_textAt htext
  have hbuf := updBufFolds rt addr (BitVec.ofNat 64 n) s a hrt ha
  rw [hnat, ← exec_updStr_of_textAt hrt htext] at hbuf
  obtain ⟨-, hacc, -⟩ := htext
  exact hbuf hlen fun k hk => hacc k (by omega)

/-- Settles O49: the scan comes to its bound and finds no zero byte, and the two widths answer that differently. -/
theorem unterminatedText : Obligations.UnterminatedText := by
  intro rt addr s a hrt ha
  refine ⟨fun hw hz => ?_, fun hw hz => ?_⟩
  · have hbound : scanBound s.params = 2 ^ 32 := by rw [scanBound, hw]
    rw [exec_updStr_of_noZeroFor hrt ha (hbound ▸ hz), unterminated, hw]
    exact ⟨_, rfl, faultedPrecisely_raise .lengthRange ..⟩
  · have hbound : scanBound s.params = 2 ^ 64 := by rw [scanBound, hw]
    rw [exec_updStr_of_noZeroFor hrt ha (hbound ▸ hz), unterminated, hw]

/-- Settles O43: what is written is `LAST` alone. -/
theorem updatesOnNoObjectDoNothing : Obligations.UpdatesOnNoObjectDoNothing := by
  intro i rt s hi hrt hnone
  refine ⟨_, exec_update_noObject hi hrt hnone, completed_complete .noObj ⟨rfl, rfl, rfl⟩ ⟨rfl, rfl, rfl⟩ rfl, ?_⟩
  exact ⟨fun _ => rfl, fun _ => rfl, fun _ => rfl, rfl⟩

/-- Settles O46: the length is compared with its bound before it is folded or a byte is read. -/
theorem longBufferFaults : Obligations.LongBufferFaults :=
  fun _ _ _ _ _ hrt ha hw hlong => ⟨_, exec_updBuf_of_long hrt ha hw hlong, faultedPrecisely_raise .lengthRange ..⟩

end Sys2Proof.Proofs
end

section
/-! PROOFS. The laws of `GEN.RESTART`, and of a generator that produces seeds one after another (43_generator.md). -/

namespace Sys2Proof.Machine

open Sys2Proof.Claims

section Generators

variable {rt : Slot} {s : State} {g : Gen}

/-! ## Restart -/

theorem exec_genRestart (hrt : rt.toNat < s.params.ng) (hg : s.gen rt = some g) :
    exec (.genRestart rt) s = .next (((s.setGen rt (some ⟨s.params.startOut, g.keys⟩)).setRes g.coef).complete .ok) := by
  simp only [exec, execGenRestart, withGen_ok _ hrt, hg]

/-- A command that returns a value and writes a generator back as it stood changes no context and no byte of memory. -/
theorem sameObjects_setGen_setRes {x : Option Gen} (h : s.gen rt = x) (v : Word) (last : Last) :
    SameObjects s (((s.setGen rt x).setRes v).complete last) := by
  rw [setGen_self h]
  exact keepsAllButRes_setRes v last s

/-! ## Seeds in a row -/

theorem nexts_succ {t : State} (n : Nat) (h : exec (.genNext rt) s = .next t) :
    nexts (n + 1) rt s = (nexts n rt t).map fun r => (t.res :: r.1, r.2) := by
  rw [nexts, h]

/-- `n` times `GEN.NEXT` returns the generator's next `n` seeds and leaves it where they leave it (R105). -/
theorem nexts_eq_seeds (n : Nat) (hrt : rt.toNat < s.params.ng) (hg : s.gen rt = some g) :
    ∃ t, nexts n rt s = some ((seeds s.params n g).1.map (·.setWidth 64), t) ∧ t.params = s.params ∧
      t.gen rt = some (seeds s.params n g).2 := by
  induction n generalizing s g with
  | zero => exact ⟨s, rfl, rfl, hg⟩
  | succ n ih =>
    have hnext : (s.setGen rt (some (nextSeed s.params g).2)).gen rt = some (nextSeed s.params g).2 := State.setGen_gen_same ..
    obtain ⟨t, hrun, hparams, hgen⟩ :=
      ih (s := ((s.setGen rt _).setRes ((nextSeed s.params g).1.setWidth 64)).complete .ok) hrt hnext
    refine ⟨t, ?_, hparams, hgen⟩
    rw [nexts_succ n (exec_genNext hrt hg), hrun]
    rfl

end Generators

/-! ## The position -/

theorem genAfter_coef (p : Params) (g : Gen) (n : Nat) : (genAfter p g n).coef = weylAt g.coef p.incOut (n * (1 + g.keys.length)) := by
  rw [← seeds_snd, seeds_coef]

/-- An odd factor does not matter to divisibility by a power of two. -/
theorem mul_odd_mod_two_pow_eq_zero_iff {k : Nat} (hk : k % 2 = 1) (m w : Nat) : m * k % 2 ^ w = 0 ↔ m % 2 ^ w = 0 := by
  have hcoprime : Nat.Coprime (2 ^ w) k := Nat.Coprime.pow_left w (Nat.coprime_two_left.mpr (Nat.odd_iff.mpr hk))
  rw [← Nat.dvd_iff_mod_eq_zero, ← Nat.dvd_iff_mod_eq_zero, hcoprime.dvd_mul_right]

end Sys2Proof.Machine
end

section
/-! PROOFS. The statements on restarting a generator and on its period, settled from the laws above. -/

namespace Sys2Proof.Proofs

open Sys2Proof.Machine Sys2Proof.Claims

/-- Settles O58: one write of the generator, with its position in `RES`. -/
theorem genRestartRewinds : Obligations.GenRestartRewinds := by
  intro rt s g hrt hg
  refine ⟨_, exec_genRestart hrt hg, ?_, fun _ => rfl, fun h hh => State.setGen_gen_other rt _ s h hh, fun _ => rfl, ?_, rfl⟩
  · exact completed_complete .ok ⟨rfl, rfl, rfl⟩ ⟨rfl, rfl, rfl⟩ rfl
  · exact State.setGen_gen_same ..

/-- Settles O59: a restart leaves `START_OUT` and the keys, whatever the position was, and no seed changes the keys. -/
theorem restartLaws : Obligations.RestartLaws := by
  intro rt s g hrt hg
  refine ⟨?_, fun hstart => ?_⟩
  · have hrewound : (s.setGen rt (some ⟨s.params.startOut, g.keys⟩)).gen rt = some ⟨s.params.startOut, g.keys⟩ := State.setGen_gen_same ..
    exact ⟨_, _, exec_genRestart hrt hg, exec_genRestart (s := ((s.setGen rt _).setRes g.coef).complete .ok) hrt hrewound, rfl, rfl,
      sameObjects_setGen_setRes hrewound .., rfl⟩
  · have hself : (⟨s.params.startOut, g.keys⟩ : Gen) = g := by rw [← hstart]
    refine ⟨⟨_, exec_genRestart hrt hg, hstart, sameObjects_setGen_setRes (by rw [hself, hg]) ..⟩, fun m n => ?_⟩
    obtain ⟨first, hfirst, -, -⟩ := nexts_eq_seeds n hrt hg
    obtain ⟨s1, hseen, hparams1, hgen1⟩ := nexts_eq_seeds m hrt hg
    obtain ⟨s2, hrestart, ⟨-, -, -, -, hparams, -, -⟩, -, -, -, hgen2, -⟩ := genRestartRewinds rt s1 _ (by rwa [hparams1]) hgen1
    have hparams2 : s2.params = s.params := hparams.trans hparams1
    rw [seeds_keys, hparams1, hself] at hgen2
    obtain ⟨again, hagain, -, -⟩ := nexts_eq_seeds n (by rwa [hparams2]) hgen2
    rw [hparams2] at hagain
    exact ⟨_, first, _, s1, s2, again, hfirst, hseen, hrestart, hagain⟩

/-- Settles O60: `m` seeds take `m * (1 + K)` draws, and both the increment and `1 + K` are odd. -/
theorem streamPeriod : Obligations.StreamPeriod := by
  intro p g m hodd hkeys
  calc (genAfter p g m).coef = g.coef
      ↔ weylAt g.coef p.incOut (m * (1 + g.keys.length)) = weylAt g.coef p.incOut 0 := by rw [genAfter_coef, weylAt_zero]
    _ ↔ m * (1 + g.keys.length) % 2 ^ 64 = 0 := weylAt_eq_iff (odd_of_oddWord hodd) ..
    _ ↔ m % 2 ^ 64 = 0 := mul_odd_mod_two_pow_eq_zero_iff (by omega) m 64

end Sys2Proof.Proofs
end

section
/-! PROOFS. The law of `NOP`, and its statement settled from it (44_system.md). -/

namespace Sys2Proof.Machine

open Sys2Proof.Claims

theorem exec_nop (s : State) : exec .nop s = .next (s.complete .ok) := rfl

/-- Completing writes `STATUS` alone. -/
theorem keepsAll_complete (last : Last) (s : State) : KeepsAll s (s.complete last) :=
  ⟨State.complete_acc last s, State.complete_gen last s, fun _ => rfl, State.complete_res last s⟩

end Sys2Proof.Machine

namespace Sys2Proof.Proofs

open Sys2Proof.Machine Sys2Proof.Claims

/-- Settles O34: `NOP` completes from the state it found, and completing writes no more than `LAST` (R113). -/
theorem nopCompletes : Obligations.NopCompletes := by
  intro s
  refine ⟨_, exec_nop s, ?completed, keepsAll_complete .ok s⟩
  case completed => exact completed_complete .ok ⟨rfl, rfl, rfl⟩ ⟨rfl, rfl, rfl⟩ rfl

end Sys2Proof.Proofs
end

section
/-! PROOFS. The laws of taking a fault (60_exceptions.md): the check of the context fields as one operation on a list of fields, what the row of a
fault says of its command and the parameters, which faults are precise, and what the port does while a fault is pending. -/

namespace Sys2Proof.Machine

open Sys2Proof.Claims

/-! ## The check of the context fields -/

/-- The checks of these context fields in order, and `go` when each of them is in range (R51 step 3). -/
def withSlots (s : State) (go : Result) : List (Bank × Slot) → Result
  | []                => go
  | (.acc, a) :: rest => withAcc a s (withSlots s go rest)
  | (.gen, g) :: rest => withGen g s (withSlots s go rest)

/-- Every command begins with the checks of its context fields, in the order of `Instr.slots`. -/
theorem exec_eq_withSlots (i : Instr) (s : State) : ∃ go, exec i s = withSlots s go i.slots := by
  cases i <;> exact ⟨_, rfl⟩

/-- The first field out of range decides, whatever would have come after the checks. -/
theorem withSlots_of_bad {s : State} {k : Slot} (go : Result) (slots : List (Bank × Slot))
    (h : (slots.find? fun bs => !s.params.hasSlot bs).map Prod.snd = some k) :
    withSlots s go slots = .next (s.raise .badSlot (k.setWidth 64)) := by
  induction slots with
  | nil => cases h
  | cons bs rest ih =>
    obtain ⟨_ | _, a⟩ := bs
    · by_cases ha : a.toNat < s.params.na
      · rw [withSlots, withAcc_ok _ ha]
        exact ih (by simpa [ha] using h)
      · obtain rfl : a = k := by simpa [ha] using h
        exact withAcc_bad _ ha
    · by_cases ha : a.toNat < s.params.ng
      · rw [withSlots, withGen_ok _ ha]
        exact ih (by simpa [ha] using h)
      · obtain rfl : a = k := by simpa [ha] using h
        exact withGen_bad _ ha

theorem exec_of_firstBadSlot {i : Instr} {s : State} {k : Slot} (h : i.firstBadSlot s.params = some k) :
    exec i s = .next (s.raise .badSlot (k.setWidth 64)) := by
  obtain ⟨go, hgo⟩ := exec_eq_withSlots i s
  rw [hgo]
  exact withSlots_of_bad go i.slots h

theorem not_wf_of_firstBadSlot {i : Instr} {p : Params} {k : Slot} (h : i.firstBadSlot p = some k) : ¬ i.wf p = true := by
  obtain ⟨bs, hfind, -⟩ := Option.map_eq_some_iff.mp h
  have hbad : p.hasSlot bs = false := by simpa using List.find?_some hfind
  intro hwf
  have hgood := List.all_eq_true.mp hwf bs (List.mem_of_find?_eq_some hfind)
  rw [hbad] at hgood
  cases hgood

/-! ## What the row of a fault says -/

/-- A fault is `BadSlot` of a command with a field out of range, or one that R119 lists for the command. -/
theorem faultRow_causesOf {i : Instr} {s : State} {cause info : Word} (h : FaultRow i s cause info) :
    (cause = 2#64 ∧ ¬ i.wf s.params = true) ∨ cause.toNat ∈ causesOf i := by
  rcases h with ⟨rfl, k, hk, -⟩ | ⟨rfl, n, -, -, hi⟩ | ⟨rfl, rt, hi⟩ | ⟨rfl, -, rt, addr, hi⟩ | ⟨rfl, rt, addr, k, kind, -, -, hi⟩
  · exact .inl ⟨rfl, not_wf_of_firstBadSlot hk⟩
  · right
    rcases hi with ⟨_, _, rfl, -⟩ | ⟨_, _, _, rfl, -⟩ <;> simp [causesOf]
  · right
    rcases hi with ⟨rfl, -⟩ | ⟨rfl, -⟩ <;> simp [causesOf]
  · right
    rcases hi with ⟨rfl, -⟩ | ⟨rfl, -⟩ <;> simp [causesOf]
  · right
    rcases hi with ⟨-, _, -, rfl | rfl⟩ | ⟨-, rfl, -⟩ | ⟨-, _, -, rfl⟩ | ⟨-, _, -, rfl⟩ <;> simp [causesOf]

/-- `LengthRange` is a fault of the 32-bit length only (R88, R119). -/
theorem faultRow_lengthRange {i : Instr} {s : State} {info : Word} (h : FaultRow i s 5#64 info) : s.params.lenW = .w32 := by
  rcases h with ⟨hc, -⟩ | ⟨hc, -⟩ | ⟨hc, -⟩ | ⟨-, hw, -⟩ | ⟨hc, -⟩
  case inr.inr.inr.inl => exact hw
  all_goals exact absurd hc (by decide)

/-- Behind a `BusFault` stands an access the platform refuses (R38, R116). -/
theorem faultRow_busFault {i : Instr} {s : State} {info : Word} (h : FaultRow i s 6#64 info) : ∃ a kind, memOk s.params a kind = false := by
  rcases h with ⟨hc, -⟩ | ⟨hc, -⟩ | ⟨hc, -⟩ | ⟨hc, -⟩ | ⟨-, _, addr, k, kind, ⟨-, hrefused⟩, -⟩
  case inr.inr.inr.inr => exact ⟨_, kind, hrefused⟩
  all_goals exact absurd hc (by decide)

/-! ## Which faults are precise -/

/-- The only fault a command raises after it has begun is `BusFault` (R122). -/
theorem Effect.faultedPrecisely {i : Instr} {s t : State} (h : Effect i s t) (hf : s.status.fault = false) (ht : t.status.fault = true)
    (hc : t.cause ≠ 6#64) : FaultedPrecisely t.cause t.info s t := by
  cases h with
  | raised c w => exact faultedPrecisely_raise c w s
  | busAcc | busGen => exact absurd rfl hc
  | completed | valued | wroteAcc | wroteGen | wroteGenValued | filled => exact absurd ht (by simp [hf])

/-! ## The port while a fault is pending -/

theorem submit_pending {s : State} (p : Packet) (hf : s.status.fault = true) : submit p s = .next s := if_pos hf

theorem observe_next {n : Nat} {s t : State} (h : observe n s = .next t) : ∃ v, t = { s with observed := some v } := by
  simp only [observe] at h
  split at h <;> cases h
  exact ⟨_, rfl⟩

theorem asAfterReset_resetEvent (s : State) : AsAfterReset s s.resetEvent :=
  ⟨s.resetEvent_acc, s.resetEvent_gen, rfl, rfl, rfl, rfl, rfl⟩

/-- While a fault is pending, no act of the host but a reset changes a register or a context (R121). -/
theorem act_pending {i : Input} {s t : State} (hf : s.status.fault = true) (h : act i s = .next t) :
    i = .reset ∨ (∃ p k, i = .resetDuring p k) ∨
      (t.status = s.status ∧ t.cause = s.cause ∧ t.info = s.info ∧ t.res = s.res ∧ KeepsAccs s t ∧ KeepsGens s t) := by
  cases i with
  | reset => exact .inl rfl
  | resetDuring p k => exact .inr (.inl ⟨p, k, rfl⟩)
  | submit p =>
    obtain rfl : s = t := by simpa [act, submit_pending p hf] using h
    exact .inr (.inr ⟨rfl, rfl, rfl, rfl, fun _ => rfl, fun _ => rfl⟩)
  | observe n =>
    obtain ⟨v, rfl⟩ := observe_next h
    exact .inr (.inr ⟨rfl, rfl, rfl, rfl, fun _ => rfl, fun _ => rfl⟩)
  | hostWrite a b | hostRead a =>
    cases h
    exact .inr (.inr ⟨rfl, rfl, rfl, rfl, fun _ => rfl, fun _ => rfl⟩)

end Sys2Proof.Machine
end

section
/-! PROOFS. The statements on faults, settled from the laws above. -/

namespace Sys2Proof.Proofs

open Sys2Proof.Machine Sys2Proof.Claims

/-- Settles O7: the port discards a packet, and every act of the host but a reset leaves the block as it is. -/
theorem faultStopsTheBlockUntilReset : Obligations.FaultStopsTheBlockUntilReset := by
  refine fun s hf => ⟨fun p rest hin => ?_, fun n rest v hin hv => ?_, fun rest hin => ?_, fun t h => ?_⟩
  · exact (step_act hin).trans (submit_pending (s := { s with inputs := rest }) p hf)
  · exact (step_act hin).trans (observe_some (s := { s with inputs := rest }) hv)
  · exact ⟨_, step_act hin, asAfterReset_resetEvent { s with inputs := rest }⟩
  · rcases step_next h with rfl | ⟨i, rest, _, rfl, hin, hact⟩
    · exact .inr (.inr ⟨rfl, rfl, rfl, rfl, fun _ => rfl, fun _ => rfl⟩)
    · rcases act_pending (s := { s with inputs := rest }) hf hact with rfl | ⟨p, k, rfl⟩ | hkept
      · exact .inl ⟨rest, hin⟩
      · exact .inr (.inl ⟨p, k, rest, hin⟩)
      · exact .inr (.inr hkept)

/-- Settles O16: every command begins with the checks of its context fields. -/
theorem badSlotComesFirst : Obligations.BadSlotComesFirst := by
  intro i s k hk
  rw [BitVec.ofNat_toNat]
  exact ⟨_, exec_of_firstBadSlot hk, faultedPrecisely_raise .badSlot _ s⟩

/-- Settles O17, read off the row of the fault table under which the command raised its fault. -/
theorem faultsPerCommand : Obligations.FaultsPerCommand := by
  intro i s t hf h ht
  have hrow : FaultRow i s t.cause t.info := (exec_run h).faultRow hf ht
  refine ⟨faultRow_causesOf hrow, fun hc => ?_, fun hall hc => ?_⟩ <;> rw [hc] at hrow
  · exact faultRow_lengthRange hrow
  · obtain ⟨a, kind, hrefused⟩ := faultRow_busFault hrow
    rw [hall a kind] at hrefused
    cases hrefused

/-- Settles O19, by what a command can do. -/
theorem faultsButBusFaultArePrecise : Obligations.FaultsButBusFaultArePrecise :=
  fun _ _ _ hf h ht hc => (exec_effect h).faultedPrecisely hf ht hc

end Sys2Proof.Proofs
end

section
/-! PROOFS. The laws of reset (70_reset_and_hazards.md): what a reset leaves, which bytes a command abandoned by a reset had written, and that every
command ends where no location is a device. -/

namespace Sys2Proof.Machine

open Sys2Proof.Claims

/-! ## Reset between commands -/

/-- The block after power-on is as after reset (R27, R135). -/
theorem asAfterReset_resetOf (p : Params) : AsAfterReset (State.resetOf p) (State.resetOf p) :=
  ⟨State.resetOf_acc p, State.resetOf_gen p, rfl, rfl, rfl, rfl, rfl⟩

/-- No command clears `FAULT` (R121, R135). -/
theorem Effect.keepsFault {i : Instr} {s t : State} (h : Effect i s t) (hf : s.status.fault = true) : t.status.fault = true := by
  cases h with
  | raised | busAcc | busGen => rfl
  | completed | valued | wroteAcc | wroteGen | wroteGenValued | filled => exact hf

/-- An act of the host that is no more than the reset event keeps the memory. -/
theorem resetWithMemoryKept_of_act {s : State} {i : Input} {rest : List Input} (hin : s.inputs = i :: rest)
    (h : act i { s with inputs := rest } = .next { s with inputs := rest }.resetEvent) : ResetWithMemoryKept s rest :=
  ⟨_, (step_act hin).trans h, asAfterReset_resetEvent { s with inputs := rest }, rfl, rfl⟩

/-! ## Reset during a command -/

section DuringACommand

variable {p : Packet} {i : Instr} {k : Nat} {s : State}

/-- The state a command leaves that is abandoned after `k` byte writes: those writes, up to the first the platform stops, then the reset (R136). -/
def State.abandoned (i : Instr) (k : Nat) (s : State) : State :=
  (s.setMem (storeBytes s.params s.mem ((commandWrites i s).take k)).1).resetEvent

theorem submitThenReset_pending (p : Packet) (k : Nat) (hf : s.status.fault = true) : submitThenReset p k s = .next s.resetEvent :=
  if_pos hf

theorem submitThenReset_illegal (k : Nat) (hf : s.status.fault = false) (hd : ∀ i, decode p ≠ .ok i) :
    submitThenReset p k s = .next s.resetEvent := by
  cases hp : decode p with
  | ok i => exact absurd hp (hd i)
  | error e => simp only [submitThenReset, hf, hp, Bool.false_eq_true, if_false]

theorem submitThenReset_refused {r : Refusal} (k : Nat) (hf : s.status.fault = false) (hd : decode p = .ok i) (h : exec i s = .refused r) :
    submitThenReset p k s = .refused r := by
  simp only [submitThenReset, hf, hd, h, Bool.false_eq_true, if_false]

/-- A command that would complete, take a fault or never complete is abandoned alike (R136, R143). -/
theorem submitThenReset_abandoned (k : Nat) (hf : s.status.fault = false) (hd : decode p = .ok i) (h : ∀ r, exec i s ≠ .refused r) :
    submitThenReset p k s = .next (s.abandoned i k) := by
  simp only [submitThenReset, hf, hd, Bool.false_eq_true, if_false]
  cases he : exec i s with
  | next t => rfl
  | fault f => rfl
  | refused r => exact absurd he (h r)

/-- Only a `GEN.FILL` of a generator in range writes memory (R30, R117). -/
theorem commandWrites_eq_nil (h : ∀ rt addr count, i = .genFill rt addr count → s.params.ng ≤ rt.toNat) : commandWrites i s = [] := by
  cases i with
  | genFill rt addr count => exact if_neg (Nat.not_lt_of_le (h rt addr count rfl))
  | _ => rfl

theorem commandWrites_genFill {rt : Slot} (addr count : Word) (hrt : rt.toNat < s.params.ng) :
    commandWrites (.genFill rt addr count) s = writesAt addr (fillWords rt count s) := if_pos hrt

theorem abandoned_of_no_writes (k : Nat) (h : commandWrites i s = []) : s.abandoned i k = s.resetEvent := by
  rw [State.abandoned, h, List.take_nil]
  rfl

theorem asAfterReset_abandoned (i : Instr) (k : Nat) (s : State) : AsAfterReset s (s.abandoned i k) :=
  asAfterReset_resetEvent (s.setMem _)

end DuringACommand

/-! ## The bytes of an abandoned store -/

section AbandonedStore

variable {p : Params} {m : Memory} {addr : Word} {ws : List Half} {k n : Nat} {stop : Stop}

/-- The first `k` byte writes of a store of words go to the first `k` addresses of its range. -/
theorem addr_of_mem_take {w : Word × Byte} (h : w ∈ (writesAt addr ws).take k) : ∃ j, j < k ∧ w.1 = addr + BitVec.ofNat 64 j := by
  obtain ⟨j, hj, rfl⟩ := List.mem_take_iff_getElem.mp h
  have hlen : j < 4 * ws.length := by rw [writesAt_length] at hj; omega
  have hget := writesAt_get addr ws j hlen
  rw [List.getElem?_eq_getElem (by omega), Option.some.injEq] at hget
  exact ⟨j, by omega, by rw [hget]⟩

/-- The first `k` byte writes are made where the block may write their bytes. -/
theorem storeBytes_take_of_accessible (m : Memory) (ws : List Half) (h : Accessible p addr k .write) :
    (storeBytes p m ((writesAt addr ws).take k)).1 = writeAll m ((writesAt addr ws).take k) := by
  rw [storeBytes_of_accepted fun w hw => ?_]
  obtain ⟨j, hj, haddr⟩ := addr_of_mem_take hw
  rw [haddr]
  exact checkAccess_of_accessible h hj

/-- A store into a range the block may write, abandoned after `k` byte writes, leaves those of the range among them (R136). -/
theorem storeBytes_take_wrote (hm : Memory.wf m = true) (h : Accessible p addr (4 * ws.length) .write) :
    Wrote m (storeBytes p m ((writesAt addr ws).take k)).1 addr (min k (4 * ws.length)) (storedByte ws) := by
  rw [List.take_eq_take_min, writesAt_length, storeBytes_take_of_accessible m ws fun j hj => h j (by omega)]
  exact writeAll_wrote addr hm (Nat.min_le_right ..)

/-- A store with a byte that stops it, abandoned after `k` byte writes, leaves those before that byte among them (R34, R136). -/
theorem StopsAt.storeBytes_take_wrote (h : StopsAt p addr n .write stop) (hm : Memory.wf m = true) (hn : n < 4 * ws.length) :
    Wrote m (storeBytes p m ((writesAt addr ws).take k)).1 addr (min k n) (storedByte ws) := by
  have hmem : (storeBytes p m ((writesAt addr ws).take k)).1 = writeAll m ((writesAt addr ws).take (min k n)) := by
    rcases Nat.lt_or_ge n k with hlt | hge
    · have hget : ((writesAt addr ws).take k)[n]? = some (addr + BitVec.ofNat 64 n, storedByte ws n) := by
        rw [List.getElem?_take_of_lt hlt, writesAt_get addr ws n hn, storedByte]
      rw [storeBytes_stopped (fun j hj w hw => ?_) hget h.2, List.take_take, Nat.min_comm]
      rw [List.getElem?_take_of_lt (by omega), writesAt_get addr ws j (by omega), Option.some.injEq] at hw
      subst hw
      exact checkAccess_of_accessible h.1 hj
    · rw [Nat.min_eq_left hge, storeBytes_take_of_accessible m ws fun j hj => h.1 j (by omega)]
  rw [hmem]
  exact writeAll_wrote addr hm (by omega)

/-- A `GEN.FILL` abandoned after `k` byte writes leaves them, up to the first byte the platform refuses (R136). -/
theorem abandoned_genFill_wrote {rt : Slot} {count : Word} {s : State} (hrt : rt.toNat < s.params.ng) (hm : Memory.wf s.mem = true) :
    (Accessible s.params addr (4 * count.toNat) .write →
      Wrote s.mem (s.abandoned (.genFill rt addr count) k).mem addr (min k (4 * count.toNat)) (fillByte s.params (s.gen rt))) ∧
    ∀ n, n < 4 * count.toNat → RefusedAt s.params addr n .write →
      Wrote s.mem (s.abandoned (.genFill rt addr count) k).mem addr (min k n) (fillByte s.params (s.gen rt)) := by
  have hbytes : ∀ j, j < 4 * count.toNat → storedByte (fillWords rt count s) j = fillByte s.params (s.gen rt) j :=
    fun j hj => storedByte_fillWords rt count s hj
  rw [State.abandoned, commandWrites_genFill addr count hrt, State.resetEvent_mem, State.setMem_mem]
  rw [← fillWords_length rt count s] at hbytes ⊢
  exact ⟨fun hacc => wrote_congr (storeBytes_take_wrote hm hacc) fun j hj => hbytes j (by omega),
    fun n hn href => wrote_congr ((StopsAt.of_refusedAt href).storeBytes_take_wrote hm hn) fun j hj => hbytes j (by omega)⟩

end AbandonedStore

/-! ## Every command ends -/

/-- The outcome is a next state (R143). -/
def Ends (r : Result) : Prop := ∃ t, r = .next t

theorem Ends.withAcc {a : Slot} {s : State} {go : Result} (h : Ends go) : Ends (withAcc a s go) := by
  by_cases ha : a.toNat < s.params.na
  · rwa [withAcc_ok go ha]
  · exact ⟨_, withAcc_bad go ha⟩

theorem Ends.withGen {g : Slot} {s : State} {go : Result} (h : Ends go) : Ends (withGen g s go) := by
  by_cases hg : g.toNat < s.params.ng
  · rwa [withGen_ok go hg]
  · exact ⟨_, withGen_bad go hg⟩

theorem digest_ends (rt : Slot) (s : State) (f : Acc → Acc) : Ends (digest rt s f) := by
  refine .withAcc ?_
  split <;> exact ⟨_, rfl⟩

section NoDevice

variable {s : State} (hdev : ∀ a, isDevice s.params a = false)
include hdev

/-- Where no location is a device, a stopped access is one the platform refuses (R36, R38). -/
theorem bus_of_checkAccess {a : Word} {kind : AccessKind} {stop : Stop} (h : checkAccess s.params a kind = some stop) : stop = .bus a := by
  cases stop with
  | bus x => rw [(checkAccess_bus.mp h).1]
  | device x =>
    have hd := (checkAccess_device.mp h).2.2
    rw [hdev a] at hd
    cases hd

theorem stopAcc_ends {a : Word} {kind : AccessKind} {stop : Stop} (rt : Slot) (h : checkAccess s.params a kind = some stop) :
    Ends (stopAcc rt stop s) := by
  obtain rfl := bus_of_checkAccess hdev h
  exact ⟨_, rfl⟩

theorem stopGen_ends {a : Word} {kind : AccessKind} {stop : Stop} (rt : Slot) (t : State) (h : checkAccess s.params a kind = some stop) :
    Ends (stopGen rt stop t) := by
  obtain rfl := bus_of_checkAccess hdev h
  exact ⟨_, rfl⟩

theorem digestBytes_ends (rt : Slot) (addr : Word) (n : Nat) (a : Acc) : Ends (digestBytes rt addr n a s) := by
  rw [digestBytes]
  split
  · obtain ⟨k, -, hstop, -⟩ := readBytes_error ‹_›
    exact stopAcc_ends hdev rt hstop
  · exact ⟨_, rfl⟩

theorem execUpdBuf_ends (rt : Slot) (addr len : Word) : Ends (execUpdBuf rt addr len s) := by
  refine .withAcc ?_
  split
  · exact ⟨_, rfl⟩
  · split
    · exact ⟨_, rfl⟩
    · exact digestBytes_ends hdev ..

theorem execUpdObj_ends (rt : Slot) (addr len : Word) : Ends (execUpdObj rt addr len s) := by
  refine .withAcc ?_
  split
  · exact ⟨_, rfl⟩
  · exact digestBytes_ends hdev ..

theorem execGenCreate_ends (rt : Slot) (addr size : Word) : Ends (execGenCreate rt addr size s) := by
  refine .withGen ?_
  split
  · exact ⟨_, rfl⟩
  · split
    · exact ⟨_, rfl⟩
    · split
      · obtain ⟨k, -, hstop, -⟩ := readBytes_error ‹_›
        exact stopGen_ends hdev rt s hstop
      · exact ⟨_, rfl⟩

theorem execGenFill_ends (rt : Slot) (addr count : Word) : Ends (execGenFill rt addr count s) := by
  refine .withGen ?_
  dsimp only
  split
  · rename_i stop hstored
    obtain ⟨_, _, -, -, -, ⟨hnone, -⟩ | ⟨stop', w, _, hsome, -, hstop⟩⟩ :=
      storeBytes_split s.params s.mem (writesAt addr (fillWords rt count s))
    · rw [hnone] at hstored
      cases hstored
    · rw [hsome, Option.some.injEq] at hstored
      exact stopGen_ends hdev rt _ (hstored ▸ hstop)
  · exact ⟨_, rfl⟩

/-- A text with an end, a refused byte before it, or more bytes than `LENW = 32` counts, ends the command; 2^64 bytes without a zero byte do not
(R88, R89). -/
theorem execUpdStr_ends (rt : Slot) (addr : Word) :
    Ends (execUpdStr rt addr s) ∨
      (execUpdStr rt addr s = .fault .neverCompletes ∧ s.params.lenW = .w64 ∧ NoZeroFor s.params s.mem addr (2 ^ 64)) := by
  by_cases hrt : rt.toNat < s.params.na
  case neg => exact .inl ⟨_, withAcc_bad _ hrt⟩
  rw [execUpdStr, withAcc_ok _ hrt]
  split
  · exact .inl ⟨_, rfl⟩
  split
  · rename_i stop hscan
    left
    rcases scanText_cases s.params s.mem addr (scanBound s.params) 0 with ⟨k, stop', -, he, hstop, -⟩ | ⟨k, -, he, -⟩ | ⟨he, -⟩
    · rw [he, Except.error.injEq] at hscan
      exact stopAcc_ends hdev rt (hscan ▸ hstop)
    all_goals rw [he] at hscan; cases hscan
  · have hz := scanText_none ‹_›
    rw [unterminated]
    cases hw : s.params.lenW with
    | w32 => exact .inl ⟨_, rfl⟩
    | w64 =>
      rw [scanBound, hw] at hz
      exact .inr ⟨rfl, rfl, hz⟩
  · exact .inl (digestBytes_ends hdev ..)

/-- Every command but `UPD.STR` ends in a next state (R143). -/
theorem exec_ends (i : Instr) (hi : ∀ rt addr, i ≠ .updStr rt addr) : Ends (exec i s) := by
  cases i
  case nop => exact ⟨_, rfl⟩
  case updU32 | updU64 | updF32 | updF64 | updPtr => exact digest_ends ..
  case updBuf rt addr len => exact execUpdBuf_ends hdev rt addr len
  case updObj rt addr len => exact execUpdObj_ends hdev rt addr len
  case updStr rt addr => exact absurd rfl (hi rt addr)
  case genCreate rt addr size => exact execGenCreate_ends hdev rt addr size
  case genFill rt addr count => exact execGenFill_ends hdev rt addr count
  -- the commands on contexts: no object or an object, and an index in range or not
  case accFree | accLen =>
    refine .withAcc ?_
    split <;> exact ⟨_, rfl⟩
  case accCreate | accLane =>
    refine .withAcc ?_
    split
    · exact ⟨_, rfl⟩
    · split <;> exact ⟨_, rfl⟩
  case accClone =>
    refine .withAcc (.withAcc ?_)
    split <;> exact ⟨_, rfl⟩
  case genFree | genLen | genNext | genRestart =>
    refine .withGen ?_
    split <;> exact ⟨_, rfl⟩
  case genKey =>
    refine .withGen ?_
    split
    · exact ⟨_, rfl⟩
    · split <;> exact ⟨_, rfl⟩
  case genFromAcc =>
    refine .withGen (.withAcc ?_)
    split <;> exact ⟨_, rfl⟩
  case genClone =>
    refine .withGen (.withGen ?_)
    split <;> exact ⟨_, rfl⟩

end NoDevice

end Sys2Proof.Machine
end

section
/-! PROOFS. The statements on reset and on the end of a command, settled from the laws above. -/

namespace Sys2Proof.Proofs

open Sys2Proof.Machine Sys2Proof.Claims

/-- Settles O10: the reset event is the whole act, and what a command can do never clears `FAULT`. -/
theorem resetEffect : Obligations.ResetEffect := by
  refine ⟨fun s rest hin => ?_, asAfterReset_resetOf Config.params, fun i s t hf h => (exec_effect h).keepsFault hf⟩
  exact ⟨_, step_act hin, asAfterReset_resetEvent { s with inputs := rest }, rfl, rfl⟩

/-- Settles O11: a command that is not refused is abandoned with the byte writes it had made, and none but `GEN.FILL` makes any. -/
theorem resetDuringACommand : Obligations.ResetDuringACommand := by
  intro s p k rest hin
  refine ⟨fun hf => ?_, fun hf hd => ?_, fun i hf hd => ⟨fun r hr => ?_, fun hr => ?_⟩⟩
  · exact resetWithMemoryKept_of_act hin (submitThenReset_pending p k hf)
  · exact resetWithMemoryKept_of_act hin (submitThenReset_illegal k hf hd)
  · exact (step_act hin).trans (submitThenReset_refused k hf hd hr)
  · have hact := submitThenReset_abandoned (s := { s with inputs := rest }) k hf hd hr
    refine ⟨fun hi => ?_, ?_⟩
    · rw [abandoned_of_no_writes (s := { s with inputs := rest }) k (commandWrites_eq_nil hi)] at hact
      exact resetWithMemoryKept_of_act hin hact
    · rintro rt addr count rfl hrt hm
      exact ⟨_, (step_act hin).trans hact, asAfterReset_abandoned _ k { s with inputs := rest }, rfl,
        abandoned_genFill_wrote (s := { s with inputs := rest }) hrt hm⟩

/-- Settles O24: only `UPD.STR` can fail to end, and then its scan has passed 2^64 bytes without a zero byte. -/
theorem everyCommandEnds : Obligations.EveryCommandEnds := by
  intro i s hdev
  by_cases hi : ∃ rt addr, i = .updStr rt addr
  · obtain ⟨rt, addr, rfl⟩ := hi
    rcases execUpdStr_ends hdev rt addr with hends | ⟨hstuck, hw, hz⟩
    · exact .inl hends
    · exact .inr ⟨hstuck, rt, addr, rfl, hw, hz⟩
  · exact .inl (exec_ends hdev i fun rt addr h => hi ⟨rt, addr, h⟩)

end Sys2Proof.Proofs
end
